-- ==== Sys2Proof/Word.lean ====
section
/-! DEFINITION. The word types of the avr-ppg CORE (spec/30_encoding.md R54, R62; spec/20_memory.md R36). -/

namespace Sys2Proof

/-- One byte: a waveform sample, a blob byte, a MIDI byte (R36, R37, R62). -/
abbrev Byte := BitVec 8

/-- One command word of the command port (R54). -/
abbrev Word := BitVec 32

/-- The 7-bit payload of a MIDI data byte (R62). -/
abbrev Payload := BitVec 7

/-- A 4-bit MIDI channel, or the 4-bit channel filter (R57, R63). -/
abbrev Channel := BitVec 4

/-- One stored waveform: 64 unsigned 8-bit samples (R36). -/
abbrev Waveform := Vector Byte 64

end Sys2Proof
end

