-- ==== Sys2Proof/Syntax.lean ====
section
/-! DEFINITION. The instructions: one constructor per row of spec/opcode_table.json (spec/30_encoding.md). -/

namespace Sys2Proof

/-- The four commands of the command word (R55–R58) and the ten MIDI byte rows (R62–R64), which decode the `byte`
operand of `MIDI_BYTE`. A MIDI byte never arrives alone: the block receives it with the channel filter `chan` of the
command that carries it (R57, R95), so each MIDI row has `chan` as its first operand (DEDUCED,
log 5). -/
inductive Instr where
  /-- `TICK slot, k` (R55, R110). -/
  | tick (slot k : Byte)
  /-- `SET_STEP step` (R56, R85). -/
  | setStep (step : BitVec 16)
  /-- `MIDI_BYTE byte, chan` (R57, R95). -/
  | midiByte (chan : Channel) (byte : Byte)
  /-- `LOAD_TABLE index` (R58, R79). -/
  | loadTable (index : BitVec 16)
  /-- The byte 0xFF (R62, R96). -/
  | midiReset (chan : Channel)
  /-- A data byte 0x00..0x7F with its payload (R62, R99). -/
  | midiData (chan : Channel) (data : Payload)
  /-- Status 0x80..0x8F (R64, R102). -/
  | midiNoteOff (chan channel : Channel)
  /-- Status 0x90..0x9F (R64, R101). -/
  | midiNoteOn (chan channel : Channel)
  /-- Status 0xA0..0xAF (R64, R106). -/
  | midiStatusClass2 (chan channel : Channel)
  /-- Status 0xB0..0xBF (R64, R103). -/
  | midiControlChange (chan channel : Channel)
  /-- Status 0xC0..0xCF (R64, R104). -/
  | midiProgramChange (chan channel : Channel)
  /-- Status 0xD0..0xDF (R64, R106). -/
  | midiStatusClass5 (chan channel : Channel)
  /-- Status 0xE0..0xEF (R64, R105). -/
  | midiPitchBend (chan channel : Channel)
  /-- Status 0xF0..0xFE (R64, R106); 0xFF is `midiReset`. -/
  | midiStatusClass7 (chan low : Channel)
  deriving DecidableEq, Repr

/-- What the decoder is given: a 32-bit command word (R54), or one MIDI byte with its channel filter (R62, R95). -/
inductive Code where
  | command (w : Word)
  | midi (chan : Channel) (b : Byte)
  deriving DecidableEq, Repr

end Sys2Proof
end

