-- ==== Sys2Proof/WellFormed.lean ====
section
/-! DEFINITION. Which instruction terms some code stands for (spec/30_encoding.md). -/

namespace Sys2Proof

/-- Every operand is a bit field of exactly its width, so the one check is that of class 7: "covers 0xF0..0xFE only,
because 0xFF is taken first by MIDI_RESET" (opcode_table.json, R62). -/
def Instr.wellFormed : Instr → Bool
  | .tick _ _ => true
  | .setStep _ => true
  | .midiByte _ _ => true
  | .loadTable _ => true
  | .midiReset _ => true
  | .midiData _ _ => true
  | .midiNoteOff _ _ => true
  | .midiNoteOn _ _ => true
  | .midiStatusClass2 _ _ => true
  | .midiControlChange _ _ => true
  | .midiProgramChange _ _ => true
  | .midiStatusClass5 _ _ => true
  | .midiPitchBend _ _ => true
  | .midiStatusClass7 _ low => decide (low ≠ 0xF#4)

end Sys2Proof
end

