-- ==== Sys2Proof/Decode.lean ====
section
/-! DEFINITION. Decoder and encoder (spec/30_encoding.md R54–R66, spec/20_memory.md R43). -/

namespace Sys2Proof

/-- Why a code is no instruction (R60); `truncated` is a byte transport that ends inside a word (DESIGN CHOICE, log 19). -/
inductive DecodeError where
  | unknownOpcode (op : BitVec 4)
  | reservedBits (rsv : BitVec 12)
  | reservedMidiBits (rsv : BitVec 4)
  | truncated
  deriving DecidableEq, Repr

/-! ## Fields of a command word (R54, R59) -/

/-- `op`, bits 31:28 (R54). -/
def opField (w : Word) : BitVec 4 := w.extractLsb' 28 4

/-- `rsv`, bits 27:16 (R54). -/
def rsvField (w : Word) : BitVec 12 := w.extractLsb' 16 12

/-- `arg`, bits 15:0 (R54): `step` of SET_STEP, `index` of LOAD_TABLE. -/
def argField (w : Word) : BitVec 16 := w.extractLsb' 0 16

/-- Bits 15:8: `slot` of TICK (R55). -/
def slotField (w : Word) : Byte := w.extractLsb' 8 8

/-- Bits 7:0: `k` of TICK, `byte` of MIDI_BYTE (R55, R57). -/
def lowByteField (w : Word) : Byte := w.extractLsb' 0 8

/-- Bits 15:12: reserved in MIDI_BYTE (R57). -/
def midiRsvField (w : Word) : BitVec 4 := w.extractLsb' 12 4

/-- Bits 11:8: `chan` of MIDI_BYTE (R57). -/
def chanField (w : Word) : Channel := w.extractLsb' 8 4

/-! ## Fields of a MIDI byte (R62, R63) -/

/-- Bit 7: set in a status byte (R62). -/
def isStatus (b : Byte) : Bool := b.getLsbD 7

/-- `b[6:4]`, the command class (R63). -/
def classField (b : Byte) : BitVec 3 := b.extractLsb' 4 3

/-- `b[3:0]`, the channel (R63). -/
def channelField (b : Byte) : Channel := b.extractLsb' 0 4

/-- `b[6:0]`, the payload of a data byte (R62). -/
def payloadField (b : Byte) : Payload := b.extractLsb' 0 7

/-! ## The decoder -/

/-- R61, line by line. -/
def decodeCommand (w : Word) : Except DecodeError Instr :=
  if rsvField w ≠ 0 then .error (.reservedBits (rsvField w))
  else if opField w = 0x1#4 then .ok (.tick (slotField w) (lowByteField w))
  else if opField w = 0x2#4 then .ok (.setStep (argField w))
  else if opField w = 0x3#4 then
    if midiRsvField w ≠ 0 then .error (.reservedMidiBits (midiRsvField w))
    else .ok (.midiByte (chanField w) (lowByteField w))
  else if opField w = 0x4#4 then .ok (.loadTable (argField w))
  else .error (.unknownOpcode (opField w))

/-- R62–R64: the sentinel first, then a data byte, then the status byte by its class. No byte is illegal (R66). -/
def decodeMidi (chan : Channel) (b : Byte) : Instr :=
  if b = 0xFF#8 then .midiReset chan
  else if isStatus b = false then .midiData chan (payloadField b)
  else if classField b = 0#3 then .midiNoteOff chan (channelField b)
  else if classField b = 1#3 then .midiNoteOn chan (channelField b)
  else if classField b = 2#3 then .midiStatusClass2 chan (channelField b)
  else if classField b = 3#3 then .midiControlChange chan (channelField b)
  else if classField b = 4#3 then .midiProgramChange chan (channelField b)
  else if classField b = 5#3 then .midiStatusClass5 chan (channelField b)
  else if classField b = 6#3 then .midiPitchBend chan (channelField b)
  else .midiStatusClass7 chan (channelField b)

/-- Both encodings (R61, R62). -/
def decode : Code → Except DecodeError Instr
  | .command w => decodeCommand w
  | .midi chan b => .ok (decodeMidi chan b)

/-! ## The encoder, from the patterns of R55–R58 and of the MIDI8 rows -/

/-- A status byte `1 ccc nnnn` (R63). -/
def statusOf (cls : BitVec 3) (channel : Channel) : Byte := 1#1 ++ cls ++ channel

/-- The word `0001 0000 0000 0000 ssss ssss kkkk kkkk` (R55). -/
def tickWord (slot k : Byte) : Word := 0x1000#16 ++ slot ++ k

/-- The word `0010 0000 0000 0000 vvvv vvvv vvvv vvvv` (R56). -/
def setStepWord (step : BitVec 16) : Word := 0x2000#16 ++ step

/-- The word `0011 0000 0000 0000 0000 cccc bbbb bbbb` (R57). -/
def midiByteWord (chan : Channel) (b : Byte) : Word := 0x30000#20 ++ chan ++ b

/-- The word `0100 0000 0000 0000 nnnn nnnn nnnn nnnn` (R58). -/
def loadTableWord (index : BitVec 16) : Word := 0x4000#16 ++ index

/-- The code of an instruction. -/
def encode : Instr → Code
  | .tick slot k => .command (tickWord slot k)
  | .setStep step => .command (setStepWord step)
  | .midiByte chan b => .command (midiByteWord chan b)
  | .loadTable index => .command (loadTableWord index)
  | .midiReset chan => .midi chan 0xFF#8
  | .midiData chan data => .midi chan (0#1 ++ data)
  | .midiNoteOff chan channel => .midi chan (statusOf 0#3 channel)
  | .midiNoteOn chan channel => .midi chan (statusOf 1#3 channel)
  | .midiStatusClass2 chan channel => .midi chan (statusOf 2#3 channel)
  | .midiControlChange chan channel => .midi chan (statusOf 3#3 channel)
  | .midiProgramChange chan channel => .midi chan (statusOf 4#3 channel)
  | .midiStatusClass5 chan channel => .midi chan (statusOf 5#3 channel)
  | .midiPitchBend chan channel => .midi chan (statusOf 6#3 channel)
  | .midiStatusClass7 chan low => .midi chan (statusOf 7#3 low)

/-! ## A command word on a byte transport: least significant byte first (R43) -/

/-- Byte `k` is bits `8k+7:8k` of the word (R43). -/
def bytesOfWord (w : Word) : List Byte :=
  [w.extractLsb' 0 8, w.extractLsb' 8 8, w.extractLsb' 16 8, w.extractLsb' 24 8]

/-- The word whose bytes, lowest first, are these (R43). -/
def wordOfBytes (b0 b1 b2 b3 : Byte) : Word := b3 ++ b2 ++ b1 ++ b0

/-- One command from a byte transport, and the bytes after it. -/
def decodeBytes : List Byte → Except DecodeError (Instr × List Byte)
  | b0 :: b1 :: b2 :: b3 :: rest =>
    match decodeCommand (wordOfBytes b0 b1 b2 b3) with
    | .ok i => .ok (i, rest)
    | .error e => .error e
  | _ => .error .truncated

/-- A word of an opcode-table row, as the table numbers its bits: 32 bits are a command word; 8 bits are a MIDI byte,
whose channel filter (the operand bits above the row's 8) is then 0 (log 5). -/
def codeOfTableWord (nbits w : Nat) : Option Code :=
  if nbits = 32 then some (.command (BitVec.ofNat 32 w))
  else if nbits = 8 then some (.midi 0#4 (BitVec.ofNat 8 w))
  else none

/-- The instruction the decoder reads from a word of an opcode-table row. -/
def decodeTableWord (nbits w : Nat) : Option Instr :=
  match codeOfTableWord nbits w with
  | some c =>
    match decode c with
    | .ok i => some i
    | .error _ => none
  | none => none

/-- The command word that brings a code to the block: itself, or the MIDI_BYTE word that carries the byte (R57). -/
def commandOfCode : Code → Word
  | .command w => w
  | .midi chan b => midiByteWord chan b

end Sys2Proof
end

