-- ==== Sys2Proof/Config.lean ====
section
/-! DEFINITION. The implementation parameters of spec/00_scope.md R8. The five parameters the spec leaves OPEN get
their values from constants without a body: nothing can be proved about what they are. -/

namespace Sys2Proof

/-- `NFILT`: one or two cascaded filters (R8, 92 D12). -/
inductive FilterCount where
  | one
  | two
  deriving DecidableEq, Repr

/-- `Q8_DIV`: how the Q8 division `state/256` rounds (R8, R91, 92 D24). -/
inductive Q8Div where
  | floor
  | trunc
  deriving DecidableEq, Repr

/-- `DELTA_MODE`: whether the filter's delta is exact or wrapped to 16 bits (R8, R92, 92 D25). -/
inductive DeltaMode where
  | exact
  | wrap16
  deriving DecidableEq, Repr

/-- The parameters of R8, the two ROMs' contents among them. `NWAVES` is the number of waveforms held and `BLOB_LEN`
the number of blob bytes held, so neither can disagree with the contents. -/
structure Params where
  /-- `WAVE`, one waveform after the other (R36). -/
  waves : List Waveform
  /-- `BLOB`, from offset 0 (R37). -/
  blob : List Byte
  /-- `SAMPLE_RATE` in Hz (R8); only `freqToStep` reads it. -/
  sampleRate : Nat
  /-- `TABLE_SIZE`, default 61. -/
  tableSize : Nat := 61
  /-- `NFILT`, default 2. -/
  nfilt : FilterCount := .two
  /-- `Q8_DIV`, default `FLOOR`. -/
  q8Div : Q8Div := .floor
  /-- `DELTA_MODE`, default `EXACT`. -/
  deltaMode : DeltaMode := .exact
  /-- `FF_ALSO_STATUS`, default `false`. -/
  ffAlsoStatus : Bool := false
  deriving DecidableEq, Repr

/-- `NWAVES` (R8). -/
def Params.nwaves (p : Params) : Nat := p.waves.length

/-- `BLOB_LEN` (R8). -/
def Params.blobLen (p : Params) : Nat := p.blob.length

/-- The ranges R8 gives: `NWAVES` in 1..256, `BLOB_LEN` in 0..65535, `SAMPLE_RATE` positive; and a table with at
least one slot, since R25 and R76 speak of its final slot (DEDUCED, log 3). -/
def Params.wf (p : Params) : Bool :=
  decide (1 ≤ p.nwaves) && decide (p.nwaves ≤ 256) && decide (p.blobLen ≤ 65535)
    && decide (0 < p.sampleRate) && decide (1 ≤ p.tableSize)

/-- R8, 92 D9: OPEN. Waveform 0; there is always one, as `NWAVES` is at least 1. -/
opaque Config.waveZero : Waveform

/-- R8, 92 D9: OPEN. The further waveforms, of which at most 255 count. -/
opaque Config.moreWaves : List Waveform

/-- R8, 92 D10: OPEN. The blob's bytes, of which at most 65535 count. -/
opaque Config.blobBytes : List Byte

/-- R8, 92 D11: OPEN. One less than the sample rate, so that the rate is positive. -/
opaque Config.sampleRatePred : Nat

/-- The parameters of the block that `State.reset` describes: the OPEN ones unknown, the others at the default R8
names (DESIGN CHOICE, log 10). -/
def Config.params : Params where
  waves := Config.waveZero :: Config.moreWaves.take 255
  blob := Config.blobBytes.take 65535
  sampleRate := Config.sampleRatePred + 1

end Sys2Proof
end

