-- ==== Sys2Proof/Machine/State.lean ====
section
/-! DEFINITION. Every piece of state of spec/10_state.md, the parameters of R8 the block is built with, and the
agents' offers on its port. -/

namespace Sys2Proof.Machine

/-- `WavetableEntry` (R23): `none` is `null`, a waveform reference is an index into the waveform ROM. -/
structure Entry where
  left : Option Byte
  right : Option Byte
  factor : Byte
  key : Bool
  deriving DecidableEq, Repr

/-- The cleared entry (R73, R128). -/
def Entry.cleared : Entry := { left := none, right := none, factor := 0, key := false }

/-- The block's faults with the info each records (R113). These are values of the register `FAULT`: a command that
raises one takes a next state in which it is recorded (R114; DEDUCED, log 1). -/
inductive FaultCause where
  /-- Any command word that is illegal (R60). -/
  | illegalCommand (word : Word)
  /-- `LOAD_TABLE` on an ill-formed table: the blob offset of the failed check (R77). -/
  | blobInvalid (offset : Nat)
  /-- `TICK` while `TBL_VALID = 0` (R110). -/
  | tableNotLoaded
  /-- `TICK` with `slot ≥ TABLE_SIZE` (R110). -/
  | slotRange (slot : Byte)
  /-- A host read of an unwritten `OUT` (R22). -/
  | outUnwritten
  deriving DecidableEq, Repr

/-- What `FAULT` records (R114): the fault with its info, and the command word; a host read has none. -/
structure FaultRecord where
  cause : FaultCause
  word : Option Word
  deriving DecidableEq, Repr

/-- The fields of a table entry a host may read (R34). -/
inductive EntryField where
  | left
  | right
  | factor
  | key
  deriving DecidableEq, Repr

/-- The output ports: every register of the summary table (R34). -/
inductive OutputPort where
  | phase
  | step
  | integ (j : Fin 2)
  | out
  | tbl (slot : Nat) (field : EntryField)
  | tblValid
  | tblOffset
  | rs
  | dcount
  | dlimit
  | dbuf (j : Fin 2)
  | note
  | vel
  | gate
  | prog
  | bend
  | ctrl (i : Payload)
  | resetFlag
  | fault
  deriving DecidableEq, Repr

/-- A value read from an output port, at the register's width (R34, R45). -/
inductive PortValue where
  | bits16 (v : BitVec 16)
  | bits14 (v : BitVec 14)
  | bits8 (v : Byte)
  | bits7 (v : Payload)
  | bits2 (v : BitVec 2)
  | bit (v : Bool)
  /-- `INTEG[j]`, a signed register (R21). -/
  | signed (v : Int)
  /-- A waveform reference or `null` (R23). -/
  | reference (v : Option Byte)
  | record (v : Option FaultRecord)
  deriving DecidableEq, Repr

/-- What the host does: present a command word, or read an output port (R4, R34). -/
inductive HostAction where
  | command (w : Word)
  | read (p : OutputPort)
  deriving DecidableEq, Repr

/-- The agents around the block: the sample clock, the host, and the driver, whose one action is to assert `RESET`
(R4, R128). -/
inductive Agent where
  | sampleClock
  | host
  | driver
  deriving DecidableEq, Repr

/-- What reaches the block next (R4, R34, R128). -/
inductive Event where
  | command (w : Word)
  | read (p : OutputPort)
  | reset
  deriving DecidableEq, Repr

/-- What the agents still offer, and the one total order in which it arrives (R48). The order is data that no step of
the block chooses; a statement about every port holds of every interleaving. Any agent may offer any command (R122). MODEL's
own (DESIGN CHOICE, log 2, log 16). -/
structure Port where
  /-- The sample clock's commands, first one first. -/
  clock : List Word
  /-- The host's commands and reads, first one first. -/
  host : List HostAction
  /-- Whose turn is next. -/
  schedule : List Agent
  deriving DecidableEq, Repr

/-- Nothing offered. -/
def Port.empty : Port := { clock := [], host := [], schedule := [] }

/-- The block's state (spec/10_state.md, summary table), the parameters it is built with, and the port. -/
structure State where
  /-- R8: the ROMs and the parameters; nothing writes them (R36, R37, R128). -/
  cfg : Params
  /-- MODEL's own: the agents' offers (R4, R48). -/
  port : Port
  /-- `PHASE` (R19). -/
  phase : BitVec 16
  /-- `STEP` (R20). -/
  stepReg : BitVec 16
  /-- `INTEG[0]`, read signed (R21). -/
  integ0 : BitVec 16
  /-- `INTEG[1]`, read signed; present iff `NFILT = 2` (R21, log 11). -/
  integ1 : BitVec 16
  /-- `OUT`; `none` is the spec's own state "unwritten" (R22, log 12). -/
  out : Option Byte
  /-- `TBL[0..TABLE_SIZE-1]` (R23, log 18). -/
  tbl : List Entry
  /-- `TBL_VALID` (R26). -/
  tblValid : Bool
  /-- `TBL_OFFSET` (R27). -/
  tblOffset : BitVec 16
  /-- `RS` (R28). -/
  rs : Byte
  /-- `DCOUNT` (R29). -/
  dcount : BitVec 2
  /-- `DLIMIT` (R29). -/
  dlimit : BitVec 2
  /-- `DBUF[0]` (R30). -/
  dbuf0 : Payload
  /-- `DBUF[1]` (R30). -/
  dbuf1 : Payload
  /-- `NOTE` (R31). -/
  note : Payload
  /-- `VEL` (R31). -/
  vel : Payload
  /-- `GATE` (R31, R33). -/
  gate : Bool
  /-- `PROG` (R31). -/
  prog : Payload
  /-- `BEND` (R31). -/
  bend : BitVec 14
  /-- `CTRL[0..127]` (R31, R39). -/
  ctrl : Vector Payload 128
  /-- `RESET_FLAG` (R31, R33). -/
  resetFlag : Bool
  /-- `FAULT` (R35). -/
  fault : Option FaultRecord
  deriving DecidableEq, Repr

/-- How a step can stop. The block's own faults are not here: they are recorded in `FAULT` (R114). -/
inductive Fault where
  /-- Raised by `TICK` when the table is valid and the slot in range but the entry has a `null` reference, a reference
  outside the waveform ROM, or no entry at that slot. R25 and R36 say that no run gets there, and the spec gives no
  sample for it (92 D20: "Null references have no sample"). Safe: the model stops (DEDUCED, log 4). -/
  | noSample (slot : Byte)
  deriving DecidableEq, Repr

/-- What the model gives no meaning. -/
inductive Refusal where
  /-- An instruction without a meaning yet; safe. No arm uses it. -/
  | notModelled (mnemonic : String)
  /-- Raised by a host read of a port the block does not have: `TBL[s]` with `s ≥ TABLE_SIZE`, or `INTEG[1]` when
  `NFILT = 1` (R34, R21). Safe: there is no such register to read (DESIGN CHOICE, log 6). -/
  | noSuchPort (p : OutputPort)
  deriving DecidableEq, Repr

/-- The block right after reset (R128, summary table of spec/10_state.md), with nothing offered on its port (log 10,
log 11). -/
def State.reset : State where
  cfg := Config.params
  port := Port.empty
  phase := 0
  stepReg := 0
  integ0 := 0
  integ1 := 0
  out := none
  tbl := List.replicate Config.params.tableSize Entry.cleared
  tblValid := false
  tblOffset := 0
  rs := 0
  dcount := 0
  dlimit := 0
  dbuf0 := 0
  dbuf1 := 0
  note := 0
  vel := 0
  gate := false
  prog := 0
  bend := 0
  ctrl := Vector.replicate 128 0
  resetFlag := false
  fault := none

end Sys2Proof.Machine
end

