-- ==== Sys2Proof/Machine/Ops.lean ====
section
/-! DEFINITION. The named operations over the block's registers: one for each group of registers a command writes
together, recording a fault, the RESET input, the output ports, and taking the next offer from the port. -/

namespace Sys2Proof.Machine

/-! ## Register writes -/

/-- `STEP <- v` (R85). -/
def writeStep (v : BitVec 16) (s : State) : State := { s with stepReg := v }

/-- The writes of one completed `TICK`: `PHASE`, `INTEG[0]`, `INTEG[1]`, `OUT` (R110). -/
def writeAudio (phase i0 i1 : BitVec 16) (out : Byte) (s : State) : State :=
  { s with phase := phase, integ0 := i0, integ1 := i1, out := some out }

/-- The one atomic update of `LOAD_TABLE`: `TBL`, `TBL_OFFSET`, `TBL_VALID` (R51, R79). -/
def installTable (entries : List Entry) (offset : BitVec 16) (s : State) : State :=
  { s with tbl := entries, tblOffset := offset, tblValid := true }

/-- The parser registers a status byte writes; `DBUF` is not changed (R97). -/
def writeParser (rs : Byte) (dcount dlimit : BitVec 2) (s : State) : State :=
  { s with rs := rs, dcount := dcount, dlimit := dlimit }

/-- `DCOUNT <- v` (R99). -/
def writeDcount (v : BitVec 2) (s : State) : State := { s with dcount := v }

/-- `DBUF[DCOUNT] <- d` (R99). The buffer has the entries 0 and 1; `DCOUNT` is one of them whenever `DCOUNT < DLIMIT`
and `DLIMIT ≤ 2` (R29), and in no other state is there an entry to write
(DESIGN CHOICE, log 7). -/
def bufferPayload (d : Payload) (s : State) : State :=
  { s with
    dbuf0 := if s.dcount = 0#2 then d else s.dbuf0
    dbuf1 := if s.dcount = 1#2 then d else s.dbuf1 }

/-- `NOTE <- n`, `VEL <- v` (R101). -/
def writeNote (n v : Payload) (s : State) : State := { s with note := n, vel := v }

/-- `CTRL[i] <- v`; a 7-bit index is always in range (R39, R103). -/
def writeCtrl (i v : Payload) (s : State) : State := { s with ctrl := s.ctrl.set i.toNat v i.isLt }

/-- `CTRL[i]` (R39). -/
def readCtrl (i : Payload) (s : State) : Payload := s.ctrl[i.toNat]'i.isLt

/-- `PROG <- v` (R104). -/
def writeProg (v : Payload) (s : State) : State := { s with prog := v }

/-- `BEND <- v` (R105). -/
def writeBend (v : BitVec 14) (s : State) : State := { s with bend := v }

/-- The port after something was taken from it; no register of the block. -/
def setPort (p : Port) (s : State) : State := { s with port := p }

/-! ## Faults (R113–R115) -/

/-- The next `FAULT`: only the first fault is kept (R114, R35). -/
def firstFault (old : Option FaultRecord) (r : FaultRecord) : Option FaultRecord :=
  match old with
  | none => some r
  | some q => some q

/-- `FAULT <- r`, and nothing else is written: faults are precise (R114). -/
def recordFault (r : FaultRecord) (s : State) : State := { s with fault := firstFault s.fault r }

/-- TAKING A FAULT: a command raises `cause`; the next state holds the fault, its info and the command word in `FAULT`
(R114). There is no other trap entry and no return but `RESET` (R115, R120). -/
def raiseFault (cause : FaultCause) (word : Word) (s : State) : State :=
  recordFault { cause := cause, word := some word } s

/-- The block is faulted (R115). -/
def isFaulted (s : State) : Bool := s.fault.isSome

/-! ## RESET (R128) -/

/-- `RESET`: every register to its reset value, line by line as R128 lists them; the ROMs are not changed. This is
also the only way out of the faulted state (R115). -/
def resetBlock (s : State) : State where
  cfg := s.cfg
  port := s.port
  phase := 0
  stepReg := 0
  integ0 := 0
  integ1 := 0
  out := none
  tbl := List.replicate s.cfg.tableSize Entry.cleared
  tblValid := false
  tblOffset := 0
  rs := 0
  dcount := 0
  dlimit := 0
  dbuf0 := 0
  dbuf1 := 0
  note := 0
  vel := 0
  gate := false
  prog := 0
  bend := 0
  ctrl := Vector.replicate 128 0
  resetFlag := false
  fault := none

/-- The reset request output: the value of `RESET_FLAG` (R118). -/
def resetRequest (s : State) : Bool := s.resetFlag

/-! ## Output ports (R34) -/

/-- What a host read finds: a value, an unwritten `OUT` (R22), or no such port. -/
inductive ReadResult where
  | value (v : PortValue)
  | unwritten
  | absent
  deriving DecidableEq, Repr

/-- One field of a table entry (R23, R34). -/
def entryField (e : Entry) : EntryField → PortValue
  | .left => .reference e.left
  | .right => .reference e.right
  | .factor => .bits8 e.factor
  | .key => .bit e.key

/-- The value of an output port between commands (R34). -/
def readPort (p : OutputPort) (s : State) : ReadResult :=
  match p with
  | .phase => .value (.bits16 s.phase)
  | .step => .value (.bits16 s.stepReg)
  | .integ j =>
    if j = 0 then .value (.signed s.integ0.toInt)
    else match s.cfg.nfilt with
      | .two => .value (.signed s.integ1.toInt)
      | .one => .absent
  | .out =>
    match s.out with
    | some v => .value (.bits8 v)
    | none => .unwritten
  | .tbl slot field =>
    match s.tbl[slot]? with
    | some e => .value (entryField e field)
    | none => .absent
  | .tblValid => .value (.bit s.tblValid)
  | .tblOffset => .value (.bits16 s.tblOffset)
  | .rs => .value (.bits8 s.rs)
  | .dcount => .value (.bits2 s.dcount)
  | .dlimit => .value (.bits2 s.dlimit)
  | .dbuf j => .value (.bits7 (if j = 0 then s.dbuf0 else s.dbuf1))
  | .note => .value (.bits7 s.note)
  | .vel => .value (.bits7 s.vel)
  | .gate => .value (.bit s.gate)
  | .prog => .value (.bits7 s.prog)
  | .bend => .value (.bits14 s.bend)
  | .ctrl i => .value (.bits7 (readCtrl i s))
  | .resetFlag => .value (.bit s.resetFlag)
  | .fault => .value (.record s.fault)

/-- A host read changes no state, but for the fault of an unwritten `OUT`, which is recorded without a command word
(R34, R113, R114). The value read is `readPort`; a faulted block is read like any other (DEDUCED, log 14). -/
def hostRead (p : OutputPort) (s : State) : Host.Outcome State Fault Refusal :=
  match readPort p s with
  | .value _ => .next s
  | .unwritten => .next (recordFault { cause := .outUnwritten, word := none } s)
  | .absent => .refused (.noSuchPort p)

/-! ## The port (R4, R48) -/

/-- A host action as an event. -/
def HostAction.event : HostAction → Event
  | .command w => .command w
  | .read p => .read p

/-- The next event in the order of `schedule`, and what is left. An agent that offers nothing lets its turn pass. -/
def nextOffer (clock : List Word) (host : List HostAction) : List Agent → Option (Event × Port)
  | [] => none
  | .driver :: rest => some (.reset, { clock := clock, host := host, schedule := rest })
  | .sampleClock :: rest =>
    match clock with
    | [] => nextOffer [] host rest
    | w :: q => some (.command w, { clock := q, host := host, schedule := rest })
  | .host :: rest =>
    match host with
    | [] => nextOffer clock [] rest
    | a :: q => some (a.event, { clock := clock, host := q, schedule := rest })

/-- Taking the next offer from the port. -/
def Port.take (p : Port) : Option (Event × Port) := nextOffer p.clock p.host p.schedule

/-- The port with one host command offered before everything else. -/
def Port.offerFirst (w : Word) (p : Port) : Port :=
  { clock := p.clock, host := .command w :: p.host, schedule := .host :: p.schedule }

/-- A command word on the command port. A faulted block accepts no command: it has no step for it and its state stays
(R115), so the offer is gone and nothing else is different (DEDUCED, log 13). Otherwise the word runs if it decodes, and an illegal word raises `IllegalCommand` (R60, R119). -/
def presentCommand (run : Instr → State → Host.Outcome State Fault Refusal) (w : Word) (s : State) :
    Host.Outcome State Fault Refusal :=
  if isFaulted s then .next s
  else
    match decodeCommand w with
    | .ok i => run i s
    | .error _ => .next (raiseFault (.illegalCommand w) w s)

/-- One event: a command, a host read, or `RESET`, which may be asserted between any two commands and in the faulted
state too (R48, R34, R128). -/
def handleEvent (run : Instr → State → Host.Outcome State Fault Refusal) (e : Event) (s : State) :
    Host.Outcome State Fault Refusal :=
  match e with
  | .command w => presentCommand run w s
  | .read p => hostRead p s
  | .reset => .next (resetBlock s)

/-- One step of the block: the next event the agents offer; with none, the block idles and keeps its state (R127). -/
def stepWith (run : Instr → State → Host.Outcome State Fault Refusal) (s : State) : Host.Outcome State Fault Refusal :=
  match s.port.take with
  | none => .next s
  | some (e, p) => handleEvent run e (setPort p s)

/-- A table word offered as the host's next command, in the word that brings it to the block. -/
def offerTableWord (nbits w : Nat) (s : State) : State :=
  match codeOfTableWord nbits w with
  | some c => setPort (s.port.offerFirst (commandOfCode c)) s
  | none => s

end Sys2Proof.Machine
end

