-- ==== Sys2Proof/Machine/Flags.lean ====
section
/-! DEFINITION. The block's 1-bit state (spec/10_state.md R33). It has no condition codes: the carry out of the phase
and the filter's saturation are recorded nowhere (R86, R89). `TBL_VALID` and `TBL[s].key` are written with the table. -/

namespace Sys2Proof.Machine

/-- `GATE <- 1` (R101). -/
def setGate (s : State) : State := { s with gate := true }

/-- `GATE <- 0` (R102). -/
def clearGate (s : State) : State := { s with gate := false }

/-- `RESET_FLAG <- 1`; no command clears it (R96). -/
def setResetFlag (s : State) : State := { s with resetFlag := true }

end Sys2Proof.Machine
end

