-- ==== Sys2Proof/Machine/Midi.lean ====
section
/-! DEFINITION. The MIDI byte decoder: MIDI_BYTE and the ten MIDI byte rows (spec/44_midi.md R95–R109). -/

namespace Sys2Proof.Machine

/-- `class_len`, the expected data length by class (R64, R95). -/
def classLen (c : BitVec 3) : BitVec 2 :=
  if c = 0#3 then 2#2
  else if c = 1#3 then 2#2
  else if c = 3#3 then 2#2
  else if c = 4#3 then 1#2
  else if c = 6#3 then 2#2
  else 0#2

/-- A status byte: `RS <- b`, `DCOUNT <- 0`, `DLIMIT <- class_len(b[6:4])`, whatever the channel filter (R97). -/
def acceptStatus (b : Byte) (s : State) : State := writeParser b 0 (classLen (classField b)) s

/-! ## Dispatch of a complete message (R100) -/

/-- Note-on: `NOTE`, `VEL`, `GATE <- 1`; velocity 0 is no special case (R101). -/
def dispatchNoteOn (s : State) : State := setGate (writeNote s.dbuf0 s.dbuf1 s)

/-- Note-off: `GATE <- 0` only if the released note is the held one (R102). -/
def dispatchNoteOff (s : State) : State := if s.dbuf0 = s.note then clearGate s else s

/-- Controller change: `CTRL[DBUF[0]] <- DBUF[1]` (R103). -/
def dispatchControlChange (s : State) : State := writeCtrl s.dbuf0 s.dbuf1 s

/-- Program change: `PROG <- DBUF[0]` (R104). -/
def dispatchProgramChange (s : State) : State := writeProg s.dbuf0 s

/-- Pitch bend: `BEND <- {DBUF[1], DBUF[0]}` (R105, R41). -/
def dispatchPitchBend (s : State) : State := writeBend (s.dbuf1 ++ s.dbuf0) s

/-- `dispatch(c)`; the unknown classes are never dispatched and write nothing (R100, R106). -/
def dispatch (c : BitVec 3) (s : State) : State :=
  if c = 0#3 then dispatchNoteOff s
  else if c = 1#3 then dispatchNoteOn s
  else if c = 3#3 then dispatchControlChange s
  else if c = 4#3 then dispatchProgramChange s
  else if c = 6#3 then dispatchPitchBend s
  else s

/-- An accepted payload: buffer it, count it, and at `DLIMIT` dispatch and count from 0 again; `RS` and `DLIMIT` are
kept, which is running status (R99). -/
def acceptPayload (d : Payload) (s : State) : State :=
  if s.dcount + 1 = s.dlimit then
    writeDcount 0 (dispatch (classField s.rs) (writeDcount (s.dcount + 1) (bufferPayload d s)))
  else writeDcount (s.dcount + 1) (bufferPayload d s)

/-- A data byte: absorbed while awaiting status, and absorbed on another channel than the filter's (R98, R99). -/
def takeData (chan : Channel) (d : Payload) (s : State) : State :=
  if s.dlimit = 0#2 then s
  else if channelField s.rs ≠ chan then s
  else acceptPayload d s

/-! ## One meaning per MIDI byte row. A message of a class takes effect at its last data byte (`execMidiData`); the
status rows start it (R65, R97; DEDUCED, log 15). -/

/-- The sentinel 0xFF: the reset flag, not filtered; a status byte too only under `FF_ALSO_STATUS` (R96). -/
def execMidiReset (_chan : Channel) (s : State) : Host.Outcome State Fault Refusal :=
  .next (if s.cfg.ffAlsoStatus then acceptStatus 0xFF#8 (setResetFlag s) else setResetFlag s)

/-- A data byte (R98, R99, R100). -/
def execMidiData (chan : Channel) (data : Payload) (s : State) : Host.Outcome State Fault Refusal :=
  .next (takeData chan data s)

/-- Status of a note-off: two data bytes follow (R97, R102). -/
def execMidiNoteOff (_chan channel : Channel) (s : State) : Host.Outcome State Fault Refusal :=
  .next (acceptStatus (statusOf 0#3 channel) s)

/-- Status of a note-on: two data bytes follow (R97, R101). -/
def execMidiNoteOn (_chan channel : Channel) (s : State) : Host.Outcome State Fault Refusal :=
  .next (acceptStatus (statusOf 1#3 channel) s)

/-- Status of class 2, unknown: no data bytes (R97, R106). -/
def execMidiStatusClass2 (_chan channel : Channel) (s : State) : Host.Outcome State Fault Refusal :=
  .next (acceptStatus (statusOf 2#3 channel) s)

/-- Status of a controller change: two data bytes follow (R97, R103). -/
def execMidiControlChange (_chan channel : Channel) (s : State) : Host.Outcome State Fault Refusal :=
  .next (acceptStatus (statusOf 3#3 channel) s)

/-- Status of a program change: one data byte follows (R97, R104). -/
def execMidiProgramChange (_chan channel : Channel) (s : State) : Host.Outcome State Fault Refusal :=
  .next (acceptStatus (statusOf 4#3 channel) s)

/-- Status of class 5, unknown: no data bytes (R97, R106). -/
def execMidiStatusClass5 (_chan channel : Channel) (s : State) : Host.Outcome State Fault Refusal :=
  .next (acceptStatus (statusOf 5#3 channel) s)

/-- Status of a pitch bend: two data bytes follow (R97, R105). -/
def execMidiPitchBend (_chan channel : Channel) (s : State) : Host.Outcome State Fault Refusal :=
  .next (acceptStatus (statusOf 6#3 channel) s)

/-- Status of class 7, 0xF0..0xFE, unknown: no data bytes (R97, R106). -/
def execMidiStatusClass7 (_chan low : Channel) (s : State) : Host.Outcome State Fault Refusal :=
  .next (acceptStatus (statusOf 7#3 low) s)

/-! ## The command -/

/-- `MIDI_BYTE byte, chan`: the row of the byte decides, the sentinel before every other (R62, R95). -/
def execMidiByte (chan : Channel) (b : Byte) (s : State) : Host.Outcome State Fault Refusal :=
  if b = 0xFF#8 then execMidiReset chan s
  else if isStatus b = false then execMidiData chan (payloadField b) s
  else if classField b = 0#3 then execMidiNoteOff chan (channelField b) s
  else if classField b = 1#3 then execMidiNoteOn chan (channelField b) s
  else if classField b = 2#3 then execMidiStatusClass2 chan (channelField b) s
  else if classField b = 3#3 then execMidiControlChange chan (channelField b) s
  else if classField b = 4#3 then execMidiProgramChange chan (channelField b) s
  else if classField b = 5#3 then execMidiStatusClass5 chan (channelField b) s
  else if classField b = 6#3 then execMidiPitchBend chan (channelField b) s
  else execMidiStatusClass7 chan (channelField b) s

end Sys2Proof.Machine
end

