-- ==== Sys2Proof/Machine/Arith.lean ====
section
/-! DEFINITION. The arithmetic of spec/00_scope.md R11 on mathematical integers: every wrap and clamp is written out. -/

namespace Sys2Proof.Machine

/-- `swrap_16(v)`: the integer in -32768..32767 congruent to `v` modulo 65536 (R11). -/
def swrap16 (v : Int) : Int := (v + 32768) % 65536 - 32768

/-- `sat16(v) = min(32767, max(-32768, v))` (R11). -/
def sat16 (v : Int) : Int := min 32767 (max (-32768) v)

/-- `asr8(v) = v div 256`, floor (R11). -/
def asr8 (v : Int) : Int := v / 256

/-- `tdiv256(v)`: division by 256 rounding toward zero (R11). -/
def tdiv256 (v : Int) : Int := Int.tdiv v 256

end Sys2Proof.Machine
end

