-- ==== Sys2Proof/Machine/Operands.lean ====
section
/-! DEFINITION. Operands as the commands use them. Every operand is an unsigned field, zero-extended
(spec/30_encoding.md R59); the one signed quantity, the filter input, is formed inside TICK (R59, R110). -/

namespace Sys2Proof.Machine

/-- `slot = zext_8(w[15:8])`: the slot number (R59). -/
def slotIndex (slot : Byte) : Nat := slot.toNat

/-- `k = zext_8(w[7:0])`: the filter coefficient, 0..255 (R59, R92). -/
def coefficient (k : Byte) : Int := k.toNat

/-- `index = zext_16(w[15:0])`: the ordinal of a table (R59). -/
def tableOrdinal (index : BitVec 16) : Nat := index.toNat

/-- `x <- s - 128`: the raw sample as the filter's signed input (R110). -/
def filterInput (sample : Byte) : Int := (sample.toNat : Int) - 128

/-- `OUT <- y + 128`: the filter's signed output as an unsigned sample (R110). -/
def outputSample (y : Int) : Byte := BitVec.ofInt 8 (y + 128)

end Sys2Proof.Machine
end

