-- ==== Sys2Proof/Machine/Filter.lean ====
section
/-! DEFINITION. The filter stage (spec/43_filter.md R89–R94). -/

namespace Sys2Proof.Machine

/-- `sat_add(a, b)` (R89). -/
def satAdd (a b : Int) : Int := sat16 (a + b)

/-- `integrator_feed(s, d)` (R90). -/
def integratorFeed (s d : Int) : Int := satAdd s d

/-- `q8(s)`, by `Q8_DIV` (R91). -/
def q8 (mode : Q8Div) (s : Int) : Int :=
  match mode with
  | .floor => asr8 s
  | .trunc => tdiv256 s

/-- `d`, by `DELTA_MODE` (R92). -/
def filterDelta (cfg : Params) (s k x : Int) : Int :=
  let d := (x - q8 cfg.q8Div s) * k
  match cfg.deltaMode with
  | .exact => d
  | .wrap16 => swrap16 d

/-- `filter_feed(s, k, x)` on integers: the new state and the output, read from the new state (R92). -/
def filterFeed (cfg : Params) (s k x : Int) : Int × Int :=
  let s' := integratorFeed s (filterDelta cfg s k x)
  (s', q8 cfg.q8Div s')

/-- What `cascade` writes to `INTEG[0]` and `INTEG[1]`, and its output (R93). -/
structure CascadeResult where
  integ0 : BitVec 16
  integ1 : BitVec 16
  y : Int
  deriving DecidableEq, Repr

/-- `cascade(k, x)`: the second filter reads the first one's new output; with `NFILT = 1` there is no second filter and
`INTEG[1]` is not written (R93). -/
def cascade (cfg : Params) (i0 i1 : BitVec 16) (k x : Int) : CascadeResult :=
  let r0 := filterFeed cfg i0.toInt k x
  match cfg.nfilt with
  | .one => { integ0 := BitVec.ofInt 16 r0.1, integ1 := i1, y := r0.2 }
  | .two =>
    let r1 := filterFeed cfg i1.toInt k r0.2
    { integ0 := BitVec.ofInt 16 r0.1, integ1 := BitVec.ofInt 16 r1.1, y := r1.2 }

end Sys2Proof.Machine
end

