-- ==== Sys2Proof/Machine/Oscillator.lean ====
section
/-! DEFINITION. The oscillator and SET_STEP (spec/42_oscillator.md R85–R88), with the host-side step function. -/

namespace Sys2Proof.Machine

/-- `wrap_16(PHASE + STEP)`; the carry is recorded nowhere (R86). -/
def advance (phase step : BitVec 16) : BitVec 16 := phase + step

/-- `SET_STEP step` (R85). -/
def execSetStep (step : BitVec 16) (s : State) : Host.Outcome State Fault Refusal :=
  .next (writeStep step s)

/-- `freq_to_step(hz, sr)`: exact rational arithmetic, rounding half up, undefined above 65535 or for operands outside
the domain R87 gives. A function of the host, not a command (R87). -/
def freqToStep (hz : ℚ) (sr : ℕ) : Option (BitVec 16) :=
  let t := (65536 * hz / (sr : ℚ) + 1 / 2).floor
  if hz < 0 ∨ sr = 0 ∨ t > 65535 then none else some (BitVec.ofInt 16 t)

end Sys2Proof.Machine
end

