-- ==== Sys2Proof/Machine/Loader.lean ====
section
/-! DEFINITION. The wavetable loader and LOAD_TABLE (spec/40_waveform_loader.md R72–R80). -/

namespace Sys2Proof.Machine

/-- `E[i].key`; no entry, no key. -/
def keyAt (E : List Entry) (i : Nat) : Bool :=
  match E[i]? with
  | some e => e.key
  | none => false

/-- `E[i].left`. -/
def leftAt (E : List Entry) (i : Nat) : Option Byte :=
  match E[i]? with
  | some e => e.left
  | none => none

/-- Step (1): every entry is the cleared entry (R73). -/
def clearedTable (cfg : Params) : List Entry := List.replicate cfg.tableSize Entry.cleared

/-- `E[p].key <- 1; E[p].left <- w` (R74). -/
def markKey (E : List Entry) (p : Nat) (w : Byte) : List Entry :=
  E.modify p fun e => { e with key := true, left := some w }

/-- Step (2): the pairs from blob offset `a` on, `bytes` being the blob from there (R74). Answers the marked entries
and the offset past the terminating pair, or the offset of the failed check (R77 (a), (b), (c), in that order). -/
def markKeys (cfg : Params) : List Byte → Nat → List Entry → Except Nat (List Entry × Nat)
  | w :: p :: rest, a, E =>
    if p.toNat ≥ cfg.tableSize then .error a
    else if w.toNat ≥ cfg.nwaves then .error a
    else if p.toNat = cfg.tableSize - 1 then .ok (markKey E p.toNat w, a + 2)
    else markKeys cfg rest (a + 2) (markKey E p.toNat w)
  | [_], a, _ => .error a
  | [], a, _ => .error a

/-- `for j in i+1 .. TABLE_SIZE-1: if E[j].key == 1: rk <- j; exit for`, with `rk <- i` before it (R75). -/
def nextKey (tableSize : Nat) (E : List Entry) (i : Nat) : Nat :=
  match (List.range tableSize).find? fun j => decide (i < j) && keyAt E j with
  | some j => j
  | none => i

/-- R76, with its truncation at each division. -/
def blendFactor (tableSize i lk rk : Nat) : Nat :=
  let dt := if i = tableSize - 1 then 0 else rk - lk
  let dl := i - lk
  if dt = 0 then 0 else ((65535 / dt) * dl) / 256

/-- The variables of the pass of R75. -/
structure Pass where
  entries : List Entry
  lk : Nat
  rk : Nat
  deriving DecidableEq, Repr

/-- `lk` after slot `i` has been looked at (R75). -/
def passLeftKey (st : Pass) (i : Nat) : Nat := if keyAt st.entries i then i else st.lk

/-- `rk` after slot `i` has been looked at (R75). -/
def passRightKey (tableSize : Nat) (st : Pass) (i : Nat) : Nat :=
  if keyAt st.entries i then nextKey tableSize st.entries i else st.rk

/-- One iteration of the pass, its three assignments in order (R75). -/
def passStep (tableSize : Nat) (st : Pass) (i : Nat) : Pass :=
  let lk := passLeftKey st i
  let rk := passRightKey tableSize st i
  let E1 := st.entries.modify i fun e =>
    { e with factor := BitVec.ofNat 8 (blendFactor tableSize i lk rk), left := leftAt st.entries lk }
  { entries := E1.modify i fun e => { e with right := leftAt E1 rk }, lk := lk, rk := rk }

/-- Step (3): the left-to-right pass over all slots (R75). -/
def interpolate (tableSize : Nat) (E : List Entry) : List Entry :=
  ((List.range tableSize).foldl (passStep tableSize) { entries := E, lk := 0, rk := 0 }).entries

/-- `load_one(base)` (R78): the entries and the number of bytes consumed, or the offset of the failed check (R77).
A `base` at or past the end of the blob fails first, at `base`: it leaves no ignored byte (R77 (a); DEDUCED,
log 8). -/
def loadOne (cfg : Params) (base : Nat) : Except Nat (List Entry × Nat) :=
  if base ≥ cfg.blobLen then .error base
  else
    match markKeys cfg (cfg.blob.drop (base + 1)) (base + 1) (clearedTable cfg) with
    | .error a => .error a
    | .ok (E, a) =>
      if keyAt E 0 then .ok (interpolate cfg.tableSize E, a - base) else .error base

/-- `load_nth` from `base`: discard `index` tables, keep the next one; with it, the offset past it (R79). -/
def loadNth (cfg : Params) : Nat → Nat → Except Nat (List Entry × Nat)
  | 0, base =>
    match loadOne cfg base with
    | .error a => .error a
    | .ok (E, c) => .ok (E, base + c)
  | t + 1, base =>
    match loadOne cfg base with
    | .error a => .error a
    | .ok (_, c) => loadNth cfg t (base + c)

/-- The state after `LOAD_TABLE index`: the table installed at once, or `BlobInvalid` recorded and nothing else changed
(R51, R77, R79). -/
def takeTable (index : BitVec 16) (s : State) : State :=
  match loadNth s.cfg (tableOrdinal index) 0 with
  | .ok (E, offset) => installTable E (BitVec.ofNat 16 offset) s
  | .error a => raiseFault (.blobInvalid a) (loadTableWord index) s

/-- `LOAD_TABLE index` (R79). -/
def execLoadTable (index : BitVec 16) (s : State) : Host.Outcome State Fault Refusal :=
  .next (takeTable index s)

end Sys2Proof.Machine
end

