-- ==== Sys2Proof/Machine/Sampler.lean ====
section
/-! DEFINITION. The wavetable crossfade sampler (spec/41_sampler.md R81–R84). -/

namespace Sys2Proof.Machine

/-- `WaveRead(w, ·)`: waveform `w` of the waveform ROM (R36, R72). -/
def waveform (cfg : Params) (w : Byte) : Option Waveform := cfg.waves[w.toNat]?

/-- `sp = phase[15:9]`, the high byte shifted right one bit (R81). -/
def subPhase (phase : BitVec 16) : BitVec 7 := phase.extractLsb' 9 7

/-- `idx = sp[5:0]` (R81). -/
def sampleIndex (phase : BitVec 16) : BitVec 6 := (subPhase phase).extractLsb' 0 6

/-- `sp[6]`: clear in the first half, set in the second (R81). -/
def secondHalf (phase : BitVec 16) : Bool := (subPhase phase).getLsbD 6

/-- `sfp(w, phase)` on the samples of one waveform: the first half mirrored and inverted, the second direct (R81). -/
def sfp (wave : Waveform) (phase : BitVec 16) : Byte :=
  let idx := sampleIndex phase
  if secondHalf phase then wave[idx.toNat]'idx.isLt
  else 255#8 - wave[63 - idx.toNat]'(by have := idx.isLt; omega)

/-- `mirror(phase) = phase XOR 0xFE00` (R82). -/
def mirror (phase : BitVec 16) : BitVec 16 := phase ^^^ 0xFE00#16

/-- `((256 - f) * l + f * r) >> 8` (R83). -/
def crossfade (f l r : Byte) : Byte :=
  BitVec.ofNat 8 (((256 - f.toNat) * l.toNat + f.toNat * r.toNat) / 256)

/-- `mix(e, phase)`; no value for an entry with a reference that is `null` or outside the ROM (R83, log 4). -/
def mix (cfg : Params) (e : Entry) (phase : BitVec 16) : Option Byte :=
  match e.left, e.right with
  | some wl, some wr =>
    match waveform cfg wl, waveform cfg wr with
    | some a, some b => some (crossfade e.factor (sfp a phase) (sfp b phase))
    | _, _ => none
  | _, _ => none

/-- `sample(slot, phase) = mix(TBL[slot], phase)` (R84). -/
def sample (cfg : Params) (tbl : List Entry) (slot : Nat) (phase : BitVec 16) : Option Byte :=
  match tbl[slot]? with
  | some e => mix cfg e phase
  | none => none

end Sys2Proof.Machine
end

