-- ==== Sys2Proof/Machine/Tick.lean ====
section
/-! DEFINITION. The sample tick pipeline, TICK (spec/45_tick.md R110). -/

namespace Sys2Proof.Machine

/-- The pipeline after the checks, for the raw sample at the new phase: filter, bias, output (R110). -/
def tickWith (k sample : Byte) (s : State) : State :=
  let r := cascade s.cfg s.integ0 s.integ1 (coefficient k) (filterInput sample)
  writeAudio (advance s.phase s.stepReg) r.integ0 r.integ1 (outputSample r.y) s

/-- `TICK slot, k`: the two checks in order, then the phase advances, the sampler reads the new phase, the cascade runs
and `OUT` is written (R110). -/
def execTick (slot k : Byte) (s : State) : Host.Outcome State Fault Refusal :=
  if s.tblValid = false then .next (raiseFault .tableNotLoaded (tickWord slot k) s)
  else if slotIndex slot ≥ s.cfg.tableSize then .next (raiseFault (.slotRange slot) (tickWord slot k) s)
  else
    match sample s.cfg s.tbl (slotIndex slot) (advance s.phase s.stepReg) with
    | some smp => .next (tickWith k smp s)
    | none => .fault (.noSample slot)

end Sys2Proof.Machine
end

