-- ==== Sys2Proof/Machine/Dispatch.lean ====
section
/-! DEFINITION. One arm per row of spec/opcode_table.json. -/

namespace Sys2Proof.Machine

/-- The meaning of an instruction the block has accepted. -/
def exec (i : Instr) (s : State) : Host.Outcome State Fault Refusal :=
  match i with
  | .tick slot k => Sys2Proof.Machine.execTick slot k s
  | .setStep step => Sys2Proof.Machine.execSetStep step s
  | .midiByte chan byte => Sys2Proof.Machine.execMidiByte chan byte s
  | .loadTable index => Sys2Proof.Machine.execLoadTable index s
  | .midiReset chan => Sys2Proof.Machine.execMidiReset chan s
  | .midiData chan data => Sys2Proof.Machine.execMidiData chan data s
  | .midiNoteOff chan channel => Sys2Proof.Machine.execMidiNoteOff chan channel s
  | .midiNoteOn chan channel => Sys2Proof.Machine.execMidiNoteOn chan channel s
  | .midiStatusClass2 chan channel => Sys2Proof.Machine.execMidiStatusClass2 chan channel s
  | .midiControlChange chan channel => Sys2Proof.Machine.execMidiControlChange chan channel s
  | .midiProgramChange chan channel => Sys2Proof.Machine.execMidiProgramChange chan channel s
  | .midiStatusClass5 chan channel => Sys2Proof.Machine.execMidiStatusClass5 chan channel s
  | .midiPitchBend chan channel => Sys2Proof.Machine.execMidiPitchBend chan channel s
  | .midiStatusClass7 chan low => Sys2Proof.Machine.execMidiStatusClass7 chan low s

end Sys2Proof.Machine
end

