-- ==== Sys2Proof/Machine/Step.lean ====
section
/-! DEFINITION. One step of the block (spec/20_memory.md R48). -/

namespace Sys2Proof.Machine

/-- The next event the agents offer runs as one atomic step (R48). -/
def step (s : State) : Host.Outcome State Fault Refusal := stepWith exec s

/-- The block fetches nothing (R17): a program is what the agents offer on the port. This is `s` with the table word
offered as the host's next command, so that the next step takes exactly it (log 2). -/
def State.withFetchWord (s : State) (nbits w : Nat) : State := offerTableWord nbits w s

end Sys2Proof.Machine
end

