-- ==== Sys2Proof/Machine/Assembler.lean ====
section
/-! DEFINITION. The textual form of commands and the pseudo-instructions (spec/30_encoding.md R70, R71). A tool of the
host, outside the block: no step of the machine uses it. -/

namespace Sys2Proof.Machine

/-- A command of R70 with its operands as written. -/
inductive CoreLine where
  | tick (slot k : Nat)
  | setStep (step : Nat)
  | midi (byte chan : Nat)
  | load (index : Nat)
  deriving DecidableEq, Repr

/-- A line: a command, or a pseudo-instruction of R71. -/
inductive AsmLine where
  | core (c : CoreLine)
  | setFreq (hz : ℚ)
  | msg (chan : Nat) (bytes : List Nat)
  | noteOn (chan note vel : Nat)
  | noteOff (chan note : Nat)
  | resetReq
  deriving DecidableEq, Repr

/-- The operands are in their fields' ranges (R70). -/
def CoreLine.inRange : CoreLine → Bool
  | .tick slot k => decide (slot ≤ 255) && decide (k ≤ 255)
  | .setStep step => decide (step ≤ 65535)
  | .midi byte chan => decide (byte ≤ 255) && decide (chan ≤ 15)
  | .load index => decide (index ≤ 65535)

/-- The word of a command by the sums of R70. -/
def CoreLine.word : CoreLine → Nat
  | .tick slot k => 0x10000000 + slot * 256 + k
  | .setStep step => 0x20000000 + step
  | .midi byte chan => 0x30000000 + chan * 256 + byte
  | .load index => 0x40000000 + index

/-- An operand outside its field's range is refused, never truncated (R70). -/
def assembleCore (c : CoreLine) : Option Word :=
  if c.inRange then some (BitVec.ofNat 32 c.word) else none

/-- The expansion of a line (R71); `SETFREQ` is refused where the function is undefined. -/
def expand (sampleRate : Nat) : AsmLine → Option (List CoreLine)
  | .core c => some [c]
  | .setFreq hz =>
    match freqToStep hz sampleRate with
    | some v => some [.setStep v.toNat]
    | none => none
  | .msg chan bytes => some (bytes.map fun b => .midi b chan)
  | .noteOn chan note vel => some [.midi (0x90 + chan) chan, .midi note chan, .midi vel chan]
  | .noteOff chan note => some [.midi (0x80 + chan) chan, .midi note chan, .midi 0 chan]
  | .resetReq => some [.midi 0xFF 0]

/-- The words of some commands, refused as a whole if one operand is out of range. -/
def assembleAll : List CoreLine → Option (List Word)
  | [] => some []
  | c :: rest =>
    match assembleCore c, assembleAll rest with
    | some w, some ws => some (w :: ws)
    | _, _ => none

/-- The words of a line. -/
def assembleLine (sampleRate : Nat) (l : AsmLine) : Option (List Word) :=
  match expand sampleRate l with
  | some cs => assembleAll cs
  | none => none

/-! ## The text (R70): one command per line, `;` starts a comment, numbers decimal or `0x` hexadecimal -/

/-- A digit's value in bases up to 16. -/
def digitValue (c : Char) : Option Nat :=
  let n := c.toNat
  if 48 ≤ n ∧ n ≤ 57 then some (n - 48)
  else if 97 ≤ n ∧ n ≤ 102 then some (n - 87)
  else if 65 ≤ n ∧ n ≤ 70 then some (n - 55)
  else none

/-- Digits of a base, after `acc`. -/
def readDigits (base : Nat) : List Char → Nat → Option Nat
  | [], acc => some acc
  | c :: cs, acc =>
    match digitValue c with
    | some d => if d < base then readDigits base cs (acc * base + d) else none
    | none => none

/-- A decimal or `0x` hexadecimal number. -/
def readNumber : List Char → Option Nat
  | '0' :: 'x' :: c :: cs => readDigits 16 (c :: cs) 0
  | c :: cs => readDigits 10 (c :: cs) 0
  | [] => none

/-- A frequency: a number, or a decimal fraction (DESIGN CHOICE, log 9). -/
def readFrequency (cs : List Char) : Option ℚ :=
  match cs.splitOn '.' with
  | [whole] =>
    match readNumber whole with
    | some n => some (n : ℚ)
    | none => none
  | [c :: whole, d :: frac] =>
    match readDigits 10 (c :: whole) 0, readDigits 10 (d :: frac) 0 with
    | some n, some f => some ((n : ℚ) + (f : ℚ) / (10 : ℚ) ^ (frac.length + 1))
    | _, _ => none
  | _ => none

/-- A blank between tokens. -/
def isBlank (c : Char) : Bool := c == ' ' || c == '\t' || c == '\r'

/-- A piece of text without the blanks around it. -/
def trimBlanks (cs : List Char) : List Char :=
  ((cs.dropWhile isBlank).reverse.dropWhile isBlank).reverse

/-- The operands of a line, as text, separated by commas. -/
def operandTexts (cs : List Char) : List (List Char) :=
  match trimBlanks cs with
  | [] => []
  | c :: rest => ((c :: rest).splitOn ',').map trimBlanks

/-- All the operands as numbers, or a refusal. -/
def readNumbers : List (List Char) → Option (List Nat)
  | [] => some []
  | t :: ts =>
    match readNumber t, readNumbers ts with
    | some n, some ns => some (n :: ns)
    | _, _ => none

/-- A line with numeric operands. -/
def numericLine (name : List Char) (ops : List Nat) : Option AsmLine :=
  if name = ['T', 'I', 'C', 'K'] then
    match ops with
    | [slot, k] => some (.core (.tick slot k))
    | _ => none
  else if name = ['S', 'E', 'T', 'S', 'T', 'E', 'P'] then
    match ops with
    | [step] => some (.core (.setStep step))
    | _ => none
  else if name = ['M', 'I', 'D', 'I'] then
    match ops with
    | [byte, chan] => some (.core (.midi byte chan))
    | _ => none
  else if name = ['L', 'O', 'A', 'D'] then
    match ops with
    | [index] => some (.core (.load index))
    | _ => none
  else if name = ['M', 'S', 'G'] then
    match ops with
    | chan :: b :: bs => some (.msg chan (b :: bs))
    | _ => none
  else if name = ['N', 'O', 'T', 'E', 'O', 'N'] then
    match ops with
    | [chan, note, vel] => some (.noteOn chan note vel)
    | _ => none
  else if name = ['N', 'O', 'T', 'E', 'O', 'F', 'F'] then
    match ops with
    | [chan, note] => some (.noteOff chan note)
    | _ => none
  else if name = ['R', 'E', 'S', 'E', 'T', 'R', 'E', 'Q'] then
    match ops with
    | [] => some .resetReq
    | _ => none
  else none

/-- A line that is not empty: the mnemonic, then its operands. -/
def parseCommand (cs : List Char) : Option AsmLine :=
  let name := cs.takeWhile fun c => !isBlank c
  let ops := operandTexts (cs.dropWhile fun c => !isBlank c)
  if name = ['S', 'E', 'T', 'F', 'R', 'E', 'Q'] then
    match ops with
    | [t] =>
      match readFrequency t with
      | some hz => some (.setFreq hz)
      | none => none
    | _ => none
  else
    match readNumbers ops with
    | some ns => numericLine name ns
    | none => none

/-- The words of one line of text; a blank line or a comment has none. -/
def assembleText (sampleRate : Nat) (cs : List Char) : Option (List Word) :=
  match trimBlanks (cs.takeWhile fun c => c != ';') with
  | [] => some []
  | c :: rest =>
    match parseCommand (c :: rest) with
    | some l => assembleLine sampleRate l
    | none => none

/-- The words of some lines of text. -/
def assembleLines (sampleRate : Nat) : List (List Char) → Option (List Word)
  | [] => some []
  | l :: ls =>
    match assembleText sampleRate l, assembleLines sampleRate ls with
    | some a, some b => some (a ++ b)
    | _, _ => none

/-- The words of a program text. -/
def assembleProgram (sampleRate : Nat) (text : List Char) : Option (List Word) :=
  assembleLines sampleRate (text.splitOn '\n')

end Sys2Proof.Machine
end

