-- ==== Sys2Proof/Machine/Instances.lean ====
section
/-! DEFINITION. Several blocks (spec/60_exceptions.md R125): each has its own state; they share only the two ROMs
(DESIGN CHOICE, log 17). -/

namespace Sys2Proof.Machine

/-- The blocks of a system all read the same waveform ROM and blob ROM (R125). -/
def sharesRoms : List State → Bool
  | [] => true
  | s :: rest =>
    rest.all fun t => decide (t.cfg.waves = s.cfg.waves) && decide (t.cfg.blob = s.cfg.blob)

/-- One step of block number `j` of a system; no other block's state is read or written (R125). -/
def stepInstance (j : Nat) (sys : List State) : Host.Outcome (List State) Fault Refusal :=
  match sys[j]? with
  | none => .next sys
  | some s =>
    match step s with
    | .next t => .next (sys.set j t)
    | .fault f => .fault f
    | .refused r => .refused r

end Sys2Proof.Machine
end

