-- ==== Sys2Proof/Safety.lean ====
section
/-! DEFINITION. What a safe run is, and the invariant of the block's reachable states. -/

namespace Sys2Proof.Machine

/-- A safe state: not faulted. "The faulted state is never a normal end of a run" (R115). -/
abbrev Safe (s : State) : Prop := s.fault = none

/-- A waveform reference that is not `null` and inside the waveform ROM (R25, R36). -/
def refOk (nwaves : Nat) : Option Byte → Bool
  | some w => decide (w.toNat < nwaves)
  | none => false

/-- An entry of a loaded table: both references good, and factor 0 at a key frame (R25, R80). -/
abbrev EntryOk (nwaves : Nat) (e : Entry) : Prop :=
  refOk nwaves e.left = true ∧ refOk nwaves e.right = true ∧ (e.key = true → e.factor = 0)

/-- A loaded table: good entries, key frames at both ends, factor 0 at the final slot (R25, R74, R77 (d)). -/
abbrev LoadedTable (cfg : Params) (tbl : List Entry) : Prop :=
  tbl.length = cfg.tableSize ∧ (∀ e ∈ tbl, EntryOk cfg.nwaves e) ∧ keyAt tbl 0 = true ∧
    keyAt tbl (cfg.tableSize - 1) = true ∧ (tbl[cfg.tableSize - 1]?).map (·.factor) = some 0

/-- The table registers: a loaded table when valid, the reset values when not (R25, R26, R27, R128). -/
abbrev TableOk (s : State) : Prop :=
  (s.tblValid = true → LoadedTable s.cfg s.tbl ∧ s.tblOffset.toNat ≤ s.cfg.blobLen) ∧
  (s.tblValid = false → s.tbl = List.replicate s.cfg.tableSize Entry.cleared ∧ s.tblOffset = 0)

/-- The parser registers between commands (R28, R29): `DLIMIT` is the length of the class in `RS`, or 0 before the
first status byte; `DCOUNT < DLIMIT` when `DLIMIT > 0`, and `DCOUNT = 0` when `DLIMIT = 0`. -/
abbrev ParserOk (s : State) : Prop :=
  (isStatus s.rs = true → s.dlimit = classLen (classField s.rs)) ∧
  (isStatus s.rs = false → s.rs = 0 ∧ s.dlimit = 0) ∧
  (s.dlimit ≠ 0 → s.dcount < s.dlimit) ∧ (s.dlimit = 0 → s.dcount = 0)

/-- The audio registers (R22, R26, R111, R128): a sample only from a loaded table, the reset values before the first
sample, and nothing in the second integrator of a block with one filter. -/
abbrev AudioOk (s : State) : Prop :=
  (s.out ≠ none → s.tblValid = true) ∧
  (s.out = none → s.phase = 0 ∧ s.integ0 = 0 ∧ s.integ1 = 0) ∧
  (s.cfg.nfilt = .one → s.integ1 = 0)

/-- What a fault record can be (R113, R114): the info belongs to the fault, and the word is the command that raised
it. -/
def recordOk (cfg : Params) (r : FaultRecord) : Bool :=
  match r.cause, r.word with
  | .illegalCommand w, some v => decide (v = w) && (decodeCommand w).toOption.isNone
  | .blobInvalid a, some v => decide (a ≤ cfg.blobLen) && decide (v = loadTableWord (argField v))
  | .tableNotLoaded, some v => decide (v = tickWord (slotField v) (lowByteField v))
  | .slotRange slot, some v =>
    decide (cfg.tableSize ≤ slot.toNat) && decide (v = tickWord slot (lowByteField v))
  | .outUnwritten, none => true
  | _, _ => false

/-- `FAULT` is none or a record a fault can leave (R35, R114). -/
abbrev FaultOk (s : State) : Prop := ∀ r ∈ s.fault, recordOk s.cfg r = true

/-- The invariant: the parameters are in range, and every group of registers is as the rules say. -/
abbrev Inv (s : State) : Prop :=
  s.cfg.wf = true ∧ TableOk s ∧ ParserOk s ∧ AudioOk s ∧ FaultOk s

/-! ## The words the statements use -/

/-- Instructions one after the other, each run as an accepted command; the first stop ends the run. -/
def runInstrs : List Instr → State → Host.Outcome State Fault Refusal
  | [], s => .next s
  | i :: is, s =>
    match exec i s with
    | .next t => runInstrs is t
    | .fault f => .fault f
    | .refused r => .refused r

/-- Steps one after the other, each taking the port's next offer; the first stop ends the run. -/
def runSteps : Nat → State → Host.Outcome State Fault Refusal
  | 0, s => .next s
  | n + 1, s =>
    match step s with
    | .next t => runSteps n t
    | .fault f => .fault f
    | .refused r => .refused r

/-- The events of up to `n` takes from a port, in order. -/
def arrivals : Nat → Port → List Event
  | 0, _ => []
  | n + 1, p =>
    match p.take with
    | none => []
    | some (e, q) => e :: arrivals n q

/-- A table descriptor: one ignored byte, then the pairs `(waveform index, slot position)` (R67). -/
def descriptor (ignored : Byte) (pairs : List (Byte × Byte)) : List Byte :=
  ignored :: pairs.flatMap fun p => [p.1, p.2]

/-- A pair that passes the checks of R77 (b) and (c) and is not the terminating pair. -/
abbrev InnerPair (cfg : Params) (p : Byte × Byte) : Prop :=
  p.1.toNat < cfg.nwaves ∧ p.2.toNat + 1 < cfg.tableSize

/-- A terminating pair that passes the check of R77 (c) (R67). -/
abbrev LastPair (cfg : Params) (p : Byte × Byte) : Prop :=
  p.1.toNat < cfg.nwaves ∧ p.2.toNat + 1 = cfg.tableSize

/-- A descriptor: its ignored byte, its pairs before the terminating one, and the terminating pair (R67). -/
structure Descriptor where
  ignored : Byte
  inner : List (Byte × Byte)
  last : Byte × Byte
  deriving DecidableEq, Repr

/-- The pairs of a descriptor, the terminating one last. -/
def Descriptor.pairs (d : Descriptor) : List (Byte × Byte) := d.inner ++ [d.last]

/-- The bytes of a descriptor (R67). -/
def Descriptor.bytes (d : Descriptor) : List Byte := descriptor d.ignored d.pairs

/-- None of the checks of R77 fails on this descriptor: (b), (c), (d) by its pairs, (a) by having a terminating
pair. -/
abbrev Descriptor.Accepted (cfg : Params) (d : Descriptor) : Prop :=
  (∀ p ∈ d.inner, InnerPair cfg p) ∧ LastPair cfg d.last ∧ ∃ p ∈ d.pairs, p.2 = 0

/-- The waveform of the last pair that names a slot (R74, 92 D14). -/
def namedWave (pairs : List (Byte × Byte)) (slot : Nat) : Option Byte :=
  (pairs.reverse.find? fun p => decide (p.2.toNat = slot)).map (·.1)

end Sys2Proof.Machine
end

