-- ==== Sys2Proof/Certificates/Slice0/Obligations.lean ====
section
/-! DEFINITION. The statements about the avr-ppg CORE, one per `def Obligations.<Name> : Prop`. -/

open Sys2Proof Sys2Proof.Machine

/-! ## Encoding (spec/30_encoding.md) -/

/-- Words and bytes written out from the patterns of R55–R58 and R64 decode to the instructions they stand for. -/
def Obligations.WrittenOutWordsDecode : Prop :=
  decodeCommand 0b00010000000000000011110011111111#32 = .ok (.tick 60 255) ∧
  decodeCommand 0b00100000000000000000010000000000#32 = .ok (.setStep 0x0400) ∧
  decodeCommand 0b00110000000000000000111110010000#32 = .ok (.midiByte 15 0x90) ∧
  decodeCommand 0b01000000000000001111111111111111#32 = .ok (.loadTable 65535) ∧
  decode (.midi 3 0b11111111#8) = .ok (.midiReset 3) ∧
  decode (.midi 3 0b01000001#8) = .ok (.midiData 3 0x41) ∧
  decode (.midi 3 0b10000101#8) = .ok (.midiNoteOff 3 5) ∧
  decode (.midi 3 0b10010101#8) = .ok (.midiNoteOn 3 5) ∧
  decode (.midi 3 0b10100101#8) = .ok (.midiStatusClass2 3 5) ∧
  decode (.midi 3 0b10110101#8) = .ok (.midiControlChange 3 5) ∧
  decode (.midi 3 0b11000101#8) = .ok (.midiProgramChange 3 5) ∧
  decode (.midi 3 0b11010101#8) = .ok (.midiStatusClass5 3 5) ∧
  decode (.midi 3 0b11100101#8) = .ok (.midiPitchBend 3 5) ∧
  decode (.midi 3 0b11111000#8) = .ok (.midiStatusClass7 3 8)

/-- Decoding the code of any well-formed instruction gives it back, every operand at every value. -/
def Obligations.DecodeOfEncodeIsTheInstruction : Prop :=
  ∀ i : Instr, i.wellFormed = true → decode (encode i) = .ok i

/-- A code that decodes is the code of the well-formed instruction it decodes to: the decoder drops no bit. -/
def Obligations.EncodeOfDecodeIsTheCode : Prop :=
  ∀ (c : Code) (i : Instr), decode c = .ok i → i.wellFormed = true ∧ encode i = c

/-- The decoder follows the match and mask of every row of opcode_table.json, with the operand fields of R59, the
sentinel before every other byte (R62). -/
def Obligations.DecoderFollowsTheOpcodeTable : Prop :=
  (∀ w : Word,
    (w &&& 0xFFFF0000 = 0x10000000 → decodeCommand w = .ok (.tick (w.extractLsb' 8 8) (w.extractLsb' 0 8))) ∧
    (w &&& 0xFFFF0000 = 0x20000000 → decodeCommand w = .ok (.setStep (w.extractLsb' 0 16))) ∧
    (w &&& 0xFFFFF000 = 0x30000000 → decodeCommand w = .ok (.midiByte (w.extractLsb' 8 4) (w.extractLsb' 0 8))) ∧
    (w &&& 0xFFFF0000 = 0x40000000 → decodeCommand w = .ok (.loadTable (w.extractLsb' 0 16)))) ∧
  (∀ (chan : Channel) (b : Byte),
    (b &&& 0xFF = 0xFF → decodeMidi chan b = .midiReset chan) ∧
    (b &&& 0x80 = 0x00 → decodeMidi chan b = .midiData chan (b.extractLsb' 0 7)) ∧
    (b &&& 0xF0 = 0x80 → decodeMidi chan b = .midiNoteOff chan (b.extractLsb' 0 4)) ∧
    (b &&& 0xF0 = 0x90 → decodeMidi chan b = .midiNoteOn chan (b.extractLsb' 0 4)) ∧
    (b &&& 0xF0 = 0xA0 → decodeMidi chan b = .midiStatusClass2 chan (b.extractLsb' 0 4)) ∧
    (b &&& 0xF0 = 0xB0 → decodeMidi chan b = .midiControlChange chan (b.extractLsb' 0 4)) ∧
    (b &&& 0xF0 = 0xC0 → decodeMidi chan b = .midiProgramChange chan (b.extractLsb' 0 4)) ∧
    (b &&& 0xF0 = 0xD0 → decodeMidi chan b = .midiStatusClass5 chan (b.extractLsb' 0 4)) ∧
    (b &&& 0xF0 = 0xE0 → decodeMidi chan b = .midiPitchBend chan (b.extractLsb' 0 4)) ∧
    (b &&& 0xF0 = 0xF0 → b ≠ 0xFF → decodeMidi chan b = .midiStatusClass7 chan (b.extractLsb' 0 4)))

/-- R60: which words are illegal; an illegal word raises `IllegalCommand(word)` and changes no other state; every other
word is an instruction and runs. -/
def Obligations.IllegalWordsRaiseIllegalCommand : Prop :=
  ∀ (s : State) (w : Word) (p : Port), s.fault = none → s.port.take = some (.command w, p) →
    ((w.toNat / 2 ^ 28 = 0 ∨ 5 ≤ w.toNat / 2 ^ 28 ∨ w.toNat / 2 ^ 16 % 2 ^ 12 ≠ 0 ∨
        (w.toNat / 2 ^ 28 = 3 ∧ w.toNat / 2 ^ 12 % 2 ^ 4 ≠ 0)) →
      step s = .next { s with port := p, fault := some { cause := .illegalCommand w, word := some w } }) ∧
    (¬ (w.toNat / 2 ^ 28 = 0 ∨ 5 ≤ w.toNat / 2 ^ 28 ∨ w.toNat / 2 ^ 16 % 2 ^ 12 ≠ 0 ∨
        (w.toNat / 2 ^ 28 = 3 ∧ w.toNat / 2 ^ 12 % 2 ^ 4 ≠ 0)) →
      ∃ i, decodeCommand w = .ok i ∧ step s = exec i { s with port := p })

/-- A MIDI byte with its channel filter runs the row of opcode_table.json it decodes to (R62, R95). -/
def Obligations.MidiByteRunsItsRow : Prop :=
  ∀ (s : State) (chan : Channel) (b : Byte), exec (.midiByte chan b) s = exec (decodeMidi chan b) s

/-- A step runs the decoded command: a word presented to a block that is not faulted and that decodes to `i` makes the
step `exec i`, on the state with the word taken from the port. -/
def Obligations.StepRunsTheDecodedCommand : Prop :=
  ∀ (s : State) (w : Word) (p : Port) (i : Instr), s.fault = none → s.port.take = some (.command w, p) →
    decodeCommand w = .ok i → step s = exec i { s with port := p }

/-- A table word placed by `withFetchWord` is what the next step runs, and nothing else of the state differs (the
model's convention, log 2 and log 5). -/
def Obligations.FetchWordRunsTheTableWord : Prop :=
  ∀ (s : State) (nbits w : Nat) (i : Instr), s.fault = none → decodeTableWord nbits w = some i →
    step (s.withFetchWord nbits w) = exec i s

/-- On a byte transport the command word travels least significant byte first (R43). -/
def Obligations.CommandBytesAreLittleEndian : Prop :=
  ∀ (w : Word) (rest : List Byte),
    (bytesOfWord w).map BitVec.toNat =
      [w.toNat % 256, w.toNat / 256 % 256, w.toNat / 65536 % 256, w.toNat / 16777216] ∧
    (∀ i, decodeCommand w = .ok i → decodeBytes (bytesOfWord w ++ rest) = .ok (i, rest)) ∧
    (∀ e, decodeCommand w = .error e → decodeBytes (bytesOfWord w ++ rest) = .error e)

/-- R70: the words of the assembler's commands, and an operand outside its field's range is refused. -/
def Obligations.AssembledCommandsDecode : Prop :=
  (∀ slot k : Nat,
    (slot ≤ 255 ∧ k ≤ 255 → ∃ w, assembleCore (.tick slot k) = some w ∧ w.toNat = 0x10000000 + slot * 256 + k ∧
      decodeCommand w = .ok (.tick (BitVec.ofNat 8 slot) (BitVec.ofNat 8 k))) ∧
    (¬ (slot ≤ 255 ∧ k ≤ 255) → assembleCore (.tick slot k) = none)) ∧
  (∀ v : Nat,
    (v ≤ 65535 → ∃ w, assembleCore (.setStep v) = some w ∧ w.toNat = 0x20000000 + v ∧
      decodeCommand w = .ok (.setStep (BitVec.ofNat 16 v))) ∧
    (¬ v ≤ 65535 → assembleCore (.setStep v) = none)) ∧
  (∀ b chan : Nat,
    (b ≤ 255 ∧ chan ≤ 15 → ∃ w, assembleCore (.midi b chan) = some w ∧ w.toNat = 0x30000000 + chan * 256 + b ∧
      decodeCommand w = .ok (.midiByte (BitVec.ofNat 4 chan) (BitVec.ofNat 8 b))) ∧
    (¬ (b ≤ 255 ∧ chan ≤ 15) → assembleCore (.midi b chan) = none)) ∧
  (∀ v : Nat,
    (v ≤ 65535 → ∃ w, assembleCore (.load v) = some w ∧ w.toNat = 0x40000000 + v ∧
      decodeCommand w = .ok (.loadTable (BitVec.ofNat 16 v))) ∧
    (¬ v ≤ 65535 → assembleCore (.load v) = none))

/-- R71: the expansions of the pseudo-instructions, and the refusals. -/
def Obligations.PseudoInstructionsExpand : Prop :=
  (∀ (sr : Nat) (hz : ℚ) (v : BitVec 16), freqToStep hz sr = some v →
    assembleLine sr (.setFreq hz) = assembleLine sr (.core (.setStep v.toNat)) ∧
      assembleLine sr (.setFreq hz) = some [setStepWord v]) ∧
  (∀ (sr : Nat) (hz : ℚ), freqToStep hz sr = none → assembleLine sr (.setFreq hz) = none) ∧
  (∀ (sr : Nat) (chan : Channel) (bytes : List Byte),
    assembleLine sr (.msg chan.toNat (bytes.map BitVec.toNat)) = some (bytes.map (midiByteWord chan))) ∧
  (∀ (sr : Nat) (chan : Channel) (note vel : Byte),
    assembleLine sr (.noteOn chan.toNat note.toNat vel.toNat) =
      some [midiByteWord chan (0x9#4 ++ chan), midiByteWord chan note, midiByteWord chan vel]) ∧
  (∀ (sr : Nat) (chan : Channel) (note : Byte),
    assembleLine sr (.noteOff chan.toNat note.toNat) =
      some [midiByteWord chan (0x8#4 ++ chan), midiByteWord chan note, midiByteWord chan 0]) ∧
  (∀ sr : Nat, assembleLine sr .resetReq = some [midiByteWord 0 0xFF])

/-! ## Agents, order and reads (spec/20_memory.md, spec/10_state.md) -/

/-- With nothing offered, the block idles and keeps all its state (R127). -/
def Obligations.IdleBlockKeepsItsState : Prop :=
  ∀ s : State, s.port.take = none → step s = .next s

/-- R48: every interleaving of the sample clock's commands and the host's commands and reads, with `RESET` anywhere
between, is the order in which some schedule makes them arrive. -/
def Obligations.EveryInterleavingIsAdmitted : Prop :=
  ∀ (clock : List Word) (host : List HostAction) (merge : List (Word ⊕ HostAction ⊕ Unit)),
    merge.filterMap (fun x => match x with | .inl w => some w | _ => none) = clock →
    merge.filterMap (fun x => match x with | .inr (.inl a) => some a | _ => none) = host →
    ∃ schedule : List Agent,
      arrivals schedule.length { clock := clock, host := host, schedule := schedule } =
        merge.map fun x =>
          match x with
          | .inl w => Event.command w
          | .inr (.inl a) => a.event
          | .inr (.inr _) => Event.reset

/-- A faulted block accepts no command and its state stays; `RESET`, and nothing else, leaves the faulted state (R115).
That the step takes the presented command from the port, drops it and answers a next state is the model's choice
(log 13). -/
def Obligations.FaultedBlockAcceptsNoCommand : Prop :=
  ∀ (s : State) (r : FaultRecord), s.fault = some r →
    (∀ w p, s.port.take = some (.command w, p) → step s = .next { s with port := p }) ∧
    (∀ p, s.port.take = some (.reset, p) → ∃ t, step s = .next t ∧ t.fault = none) ∧
    (∀ t, step s = .next t → t.fault ≠ some r → ∃ p, s.port.take = some (.reset, p))

/-- R114: a step that records a fault writes nothing else of the block; a command's record holds the command word, a
read's record is `OutUnwritten` alone; only the first fault is kept. -/
def Obligations.FaultsArePreciseAndTheFirstIsKept : Prop :=
  ∀ s t : State, step s = .next t →
    (∀ r, s.fault = some r → t.fault = some r ∨ (t.fault = none ∧ ∃ p, s.port.take = some (.reset, p))) ∧
    (s.fault = none → ∀ r, t.fault = some r →
      ∃ e p, s.port.take = some (e, p) ∧ t = { s with port := p, fault := some r } ∧
        ((∃ w, e = .command w ∧ r.word = some w ∧ r.cause ≠ .outUnwritten) ∨
          (e = .read .out ∧ r = { cause := .outUnwritten, word := none })))

/-- R34: every register of the summary table is an output port; a read answers the register and changes no state; its
only fault is `OutUnwritten` on an unwritten `OUT`. -/
def Obligations.HostReadsEveryRegister : Prop :=
  (∀ (s : State) (q : OutputPort) (p : Port), s.port.take = some (.read q, p) →
    ((q = .integ 1 → s.cfg.nfilt = .two) → (∀ i f, q = .tbl i f → i < s.tbl.length) → (q = .out → s.out ≠ none) →
      (∃ v, readPort q s = .value v) ∧ step s = .next { s with port := p }) ∧
    (q = .out → s.out = none → s.fault = none →
      step s = .next { s with port := p, fault := some { cause := .outUnwritten, word := none } })) ∧
  (∀ s : State,
    readPort .phase s = .value (.bits16 s.phase) ∧ readPort .step s = .value (.bits16 s.stepReg) ∧
    readPort (.integ 0) s = .value (.signed s.integ0.toInt) ∧
    (s.cfg.nfilt = .two → readPort (.integ 1) s = .value (.signed s.integ1.toInt)) ∧
    (∀ v, s.out = some v → readPort .out s = .value (.bits8 v)) ∧
    (∀ i e, s.tbl[i]? = some e →
      readPort (.tbl i .left) s = .value (.reference e.left) ∧
      readPort (.tbl i .right) s = .value (.reference e.right) ∧
      readPort (.tbl i .factor) s = .value (.bits8 e.factor) ∧ readPort (.tbl i .key) s = .value (.bit e.key)) ∧
    readPort .tblValid s = .value (.bit s.tblValid) ∧ readPort .tblOffset s = .value (.bits16 s.tblOffset) ∧
    readPort .rs s = .value (.bits8 s.rs) ∧ readPort .dcount s = .value (.bits2 s.dcount) ∧
    readPort .dlimit s = .value (.bits2 s.dlimit) ∧ readPort (.dbuf 0) s = .value (.bits7 s.dbuf0) ∧
    readPort (.dbuf 1) s = .value (.bits7 s.dbuf1) ∧ readPort .note s = .value (.bits7 s.note) ∧
    readPort .vel s = .value (.bits7 s.vel) ∧ readPort .gate s = .value (.bit s.gate) ∧
    readPort .prog s = .value (.bits7 s.prog) ∧ readPort .bend s = .value (.bits14 s.bend) ∧
    (∀ i : Payload, readPort (.ctrl i) s = .value (.bits7 (s.ctrl.toList.getD i.toNat 0))) ∧
    readPort .resetFlag s = .value (.bit s.resetFlag) ∧ readPort .fault s = .value (.record s.fault))

/-- The model's choice (log 6): a read of a port the block does not have, a slot past the table or the second
integrator of a block with one filter, is refused. -/
def Obligations.AbsentPortsAreRefused : Prop :=
  ∀ (s : State) (p : Port),
    (s.cfg.nfilt = .one → s.port.take = some (.read (.integ 1), p) → step s = .refused (.noSuchPort (.integ 1))) ∧
    (∀ i f, s.tbl.length ≤ i → s.port.take = some (.read (.tbl i f), p) →
      step s = .refused (.noSuchPort (.tbl i f)))

/-! ## Reset (spec/70_reset_and_hazards.md) -/

/-- R128: `RESET` between any two commands, in the faulted state too, sets every register to its reset value and keeps
the ROMs. -/
def Obligations.ResetSetsEveryRegister : Prop :=
  ∀ (s : State) (p : Port), s.port.take = some (.reset, p) →
    step s = .next
      { cfg := s.cfg, port := p, phase := 0, stepReg := 0, integ0 := 0, integ1 := 0, out := none,
        tbl := List.replicate s.cfg.tableSize { left := none, right := none, factor := 0, key := false },
        tblValid := false, tblOffset := 0, rs := 0, dcount := 0, dlimit := 0, dbuf0 := 0, dbuf1 := 0, note := 0,
        vel := 0, gate := false, prog := 0, bend := 0, ctrl := Vector.replicate 128 0, resetFlag := false,
        fault := none }

/-- The state right after reset has the values of the summary table of spec/10_state.md and the default parameters of
R8. That nothing is offered on its port, the last clause, is the model's choice (log 11). -/
def Obligations.ResetStateHasTheSpecsValues : Prop :=
  (State.reset.phase = 0 ∧ State.reset.stepReg = 0 ∧ State.reset.integ0 = 0 ∧ State.reset.integ1 = 0 ∧
    State.reset.out = none ∧
    State.reset.tbl = List.replicate 61 { left := none, right := none, factor := 0, key := false } ∧
    State.reset.tblValid = false ∧ State.reset.tblOffset = 0) ∧
  (State.reset.rs = 0 ∧ State.reset.dcount = 0 ∧ State.reset.dlimit = 0 ∧ State.reset.dbuf0 = 0 ∧
    State.reset.dbuf1 = 0 ∧ State.reset.note = 0 ∧ State.reset.vel = 0 ∧ State.reset.gate = false ∧
    State.reset.prog = 0 ∧ State.reset.bend = 0 ∧ (∀ i : Payload, readCtrl i State.reset = 0) ∧
    State.reset.resetFlag = false ∧ State.reset.fault = none) ∧
  (State.reset.cfg.tableSize = 61 ∧ State.reset.cfg.nfilt = .two ∧ State.reset.cfg.q8Div = .floor ∧
    State.reset.cfg.deltaMode = .exact ∧ State.reset.cfg.ffAlsoStatus = false) ∧
  State.reset.port.take = none

/-! ## Oscillator (spec/42_oscillator.md) -/

/-- R85: `SET_STEP` has the word `0x2000vvvv` and no legal word with a reserved bit set; it completes from every state,
writes `STEP`, and leaves everything else. -/
def Obligations.SetStepWritesOnlyStep : Prop :=
  (∀ v : BitVec 16, decodeCommand (0x2000#16 ++ v) = .ok (.setStep v)) ∧
  (∀ w : Word, w.toNat / 2 ^ 28 = 2 → w.toNat / 2 ^ 16 % 2 ^ 12 ≠ 0 → ∃ err, decodeCommand w = .error err) ∧
  (∀ (s : State) (v : BitVec 16), exec (.setStep v) s = .next { s with stepReg := v })

/-- With a constant step, the phase is back after `n` advances exactly when `n` is a multiple of
`65536 / gcd(65536, s)`; and so it is after `n` TICKs, of whatever slots and coefficients, which all complete on a loaded
table (R86, R88). -/
def Obligations.PhaseReturnsAfterItsPeriod : Prop :=
  (∀ (phase step : BitVec 16) (n : Nat),
    (fun q => advance q step)^[n] phase = phase ↔ 65536 / Nat.gcd 65536 step.toNat ∣ n) ∧
  (∀ (s : State) (ticks : List (Byte × Byte)), s.fault = none → s.tblValid = true → LoadedTable s.cfg s.tbl →
    (∀ x ∈ ticks, x.1.toNat < s.cfg.tableSize) →
    ∃ t, runInstrs (ticks.map fun x => .tick x.1 x.2) s = .next t ∧ t.fault = none ∧ t.stepReg = s.stepReg ∧
      (t.phase = s.phase ↔ 65536 / Nat.gcd 65536 s.stepReg.toNat ∣ ticks.length))

/-- R87: `freq_to_step` rounds the exact quotient half up where it is defined, and is undefined from
`sr × 65535.5 / 65536` on. -/
def Obligations.FreqToStepRoundsHalfUp : Prop :=
  ∀ (hz : ℚ) (sr : Nat), 0 ≤ hz → 0 < sr →
    (hz < (sr : ℚ) * (131071 / 131072) →
      ∃ v, freqToStep hz sr = some v ∧ (v.toNat : ℚ) ≤ 65536 * hz / sr + 1 / 2 ∧
        65536 * hz / sr + 1 / 2 < (v.toNat : ℚ) + 1) ∧
    ((sr : ℚ) * (131071 / 131072) ≤ hz → freqToStep hz sr = none)

/-! ## Sampler (spec/41_sampler.md) -/

/-- R81: the first half of the period is the stored half period mirrored and inverted, the second is direct; only
`phase[15:9]` matters. -/
def Obligations.SampleMirrorsTheFirstHalf : Prop :=
  ∀ (wave : Waveform) (phase : BitVec 16),
    (phase.toNat < 32768 →
      (sfp wave phase).toNat = 255 - (wave.toList.getD (63 - phase.toNat / 512) 0).toNat) ∧
    (32768 ≤ phase.toNat → sfp wave phase = wave.toList.getD (phase.toNat / 512 - 64) 0)

/-- Mirroring antisymmetry (R82). -/
def Obligations.MirroredSamplesAddTo255 : Prop :=
  ∀ (wave : Waveform) (phase : BitVec 16), (sfp wave phase).toNat + (sfp wave (mirror phase)).toNat = 255

/-- R83: the crossfade of an entry is the exact weighted sum divided by 256, rounded down; factor 0 gives the left
sample, and equal samples give that sample. -/
def Obligations.MixIsTheExactCrossfade : Prop :=
  ∀ (cfg : Params) (e : Entry) (phase : BitVec 16) (wl wr : Byte) (a b : Waveform),
    e.left = some wl → e.right = some wr → cfg.waves[wl.toNat]? = some a → cfg.waves[wr.toNat]? = some b →
    ∃ m : Byte, mix cfg e phase = some m ∧
      m.toNat = ((256 - e.factor.toNat) * (sfp a phase).toNat + e.factor.toNat * (sfp b phase).toNat) / 256 ∧
      (256 - e.factor.toNat) * (sfp a phase).toNat + e.factor.toNat * (sfp b phase).toNat ≤ 65280 ∧
      (e.factor = 0 → m = sfp a phase) ∧ (sfp a phase = sfp b phase → m = sfp a phase) ∧
      (e.factor = 255 → m.toNat = ((sfp a phase).toNat + 255 * (sfp b phase).toNat) / 256)

/-! ## Filter (spec/43_filter.md) -/

/-- R89, R90: the saturating add clamps the true sum, and feeding the integrator is that add. -/
def Obligations.SaturatingAddClamps : Prop :=
  ∀ a b : Int,
    (32767 < a + b → satAdd a b = 32767) ∧ (a + b < -32768 → satAdd a b = -32768) ∧
    (-32768 ≤ a + b → a + b ≤ 32767 → satAdd a b = a + b) ∧ integratorFeed a b = satAdd a b

/-- R91: `q8` under both roundings, where they differ, and its range. -/
def Obligations.QuotientRoundsByItsMode : Prop :=
  ∀ s : Int, -32768 ≤ s → s ≤ 32767 →
    (256 * q8 .floor s ≤ s ∧ s < 256 * q8 .floor s + 256) ∧
    (0 ≤ s ∨ s % 256 = 0 → q8 .trunc s = q8 .floor s) ∧
    (s < 0 → s % 256 ≠ 0 → q8 .trunc s = q8 .floor s + 1) ∧
    (∀ m, -128 ≤ q8 m s ∧ q8 m s ≤ 127)

/-- R92: the filter step for both delta modes and both roundings, its ranges, and its two fixed points. -/
def Obligations.FilterStepIsTheLeakyIntegrator : Prop :=
  ∀ (cfg : Params) (s k x : Int), -32768 ≤ s → s ≤ 32767 → 0 ≤ k → k ≤ 255 → -128 ≤ x → x ≤ 127 →
    (cfg.deltaMode = .exact →
      (filterFeed cfg s k x).1 = satAdd s ((x - q8 cfg.q8Div s) * k)) ∧
    (cfg.deltaMode = .wrap16 → ∀ d : Int, -32768 ≤ d → d ≤ 32767 →
      (d - (x - q8 cfg.q8Div s) * k) % 65536 = 0 → (filterFeed cfg s k x).1 = satAdd s d) ∧
    (filterFeed cfg s k x).2 = q8 cfg.q8Div (filterFeed cfg s k x).1 ∧
    (-32768 ≤ (filterFeed cfg s k x).1 ∧ (filterFeed cfg s k x).1 ≤ 32767) ∧
    (-128 ≤ (filterFeed cfg s k x).2 ∧ (filterFeed cfg s k x).2 ≤ 127) ∧
    (k = 0 ∨ x = q8 cfg.q8Div s → filterFeed cfg s k x = (s, q8 cfg.q8Div s))

/-- With the default parameters, a constant input and a coefficient of at least 1: no step clips, the output moves
monotonically toward the input and never passes it, and from some step on it is exactly the input (R94). -/
def Obligations.FilterConvergesToItsInput : Prop :=
  ∀ (cfg : Params) (s k x : Int), cfg.q8Div = .floor → cfg.deltaMode = .exact →
    -32768 ≤ s → s ≤ 32767 → 1 ≤ k → k ≤ 255 → -128 ≤ x → x ≤ 127 →
    (∀ n : Nat, (fun v => (filterFeed cfg v k x).1)^[n + 1] s =
      (fun v => (filterFeed cfg v k x).1)^[n] s + (x - q8 .floor ((fun v => (filterFeed cfg v k x).1)^[n] s)) * k) ∧
    (q8 .floor s ≤ x → ∀ n : Nat,
      q8 .floor ((fun v => (filterFeed cfg v k x).1)^[n] s) ≤
        q8 .floor ((fun v => (filterFeed cfg v k x).1)^[n + 1] s) ∧
      q8 .floor ((fun v => (filterFeed cfg v k x).1)^[n + 1] s) ≤ x) ∧
    (x ≤ q8 .floor s → ∀ n : Nat,
      q8 .floor ((fun v => (filterFeed cfg v k x).1)^[n + 1] s) ≤
        q8 .floor ((fun v => (filterFeed cfg v k x).1)^[n] s) ∧
      x ≤ q8 .floor ((fun v => (filterFeed cfg v k x).1)^[n + 1] s)) ∧
    ∃ N : Nat, ∀ n, N ≤ n →
      q8 .floor ((fun v => (filterFeed cfg v k x).1)^[n] s) = x ∧
      (filterFeed cfg ((fun v => (filterFeed cfg v k x).1)^[n] s) k x).2 = x

/-- R110's corner case, for one filter and for two: with `STEP = 0`, the default rounding and delta, and `k ≥ 1`,
ticking one slot long enough makes `OUT` exactly the sampler's constant output. -/
def Obligations.TicksConvergeToTheSample : Prop :=
  ∀ (s : State) (slot k : Byte) (e : Entry) (wl wr : Byte) (a b : Waveform),
    s.cfg.q8Div = .floor → s.cfg.deltaMode = .exact → s.stepReg = 0 → k ≠ 0 → s.tblValid = true →
    slot.toNat < s.cfg.tableSize → s.tbl[slot.toNat]? = some e → e.left = some wl → e.right = some wr →
    s.cfg.waves[wl.toNat]? = some a → s.cfg.waves[wr.toNat]? = some b →
    ∃ N : Nat, ∀ n, N ≤ n → ∃ t, runInstrs (List.replicate n (.tick slot k)) s = .next t ∧
      t.phase = s.phase ∧ t.out = some (crossfade e.factor (sfp a s.phase) (sfp b s.phase))

/-! ## TICK (spec/45_tick.md) -/

/-- R110, with R86 and R93: the word of TICK and its illegal words, the two checks in order and what each raises, and the
whole result of a completing TICK: the new phase, both integrators, the output, and nothing else. -/
def Obligations.TickRunsThePipeline : Prop :=
  (∀ slot k : Byte, decodeCommand (0x1000#16 ++ slot ++ k) = .ok (.tick slot k)) ∧
  (∀ w : Word, w.toNat / 2 ^ 28 = 1 → w.toNat / 2 ^ 16 % 2 ^ 12 ≠ 0 → ∃ err, decodeCommand w = .error err) ∧
  (∀ (s : State) (slot k : Byte), s.fault = none →
    (s.tblValid = false → exec (.tick slot k) s =
      .next { s with fault := some { cause := .tableNotLoaded, word := some (0x1000#16 ++ slot ++ k) } }) ∧
    (s.tblValid = true → s.cfg.tableSize ≤ slot.toNat → exec (.tick slot k) s =
      .next { s with fault := some { cause := .slotRange slot, word := some (0x1000#16 ++ slot ++ k) } })) ∧
  (∀ (s : State) (slot k : Byte) (e : Entry) (wl wr : Byte) (a b : Waveform),
    s.tblValid = true → slot.toNat < s.cfg.tableSize → s.tbl[slot.toNat]? = some e →
    e.left = some wl → e.right = some wr → s.cfg.waves[wl.toNat]? = some a → s.cfg.waves[wr.toNat]? = some b →
    ∃ (phase i0 i1 : BitVec 16) (out smp : Byte) (y : Int),
      exec (.tick slot k) s = .next { s with phase := phase, integ0 := i0, integ1 := i1, out := some out } ∧
      phase.toNat = (s.phase.toNat + s.stepReg.toNat) % 65536 ∧
      smp = crossfade e.factor (sfp a phase) (sfp b phase) ∧
      (out.toNat : Int) = y + 128 ∧
      i0.toInt = (filterFeed s.cfg s.integ0.toInt k.toNat ((smp.toNat : Int) - 128)).1 ∧
      (s.cfg.nfilt = .one → i1 = s.integ1 ∧
        y = (filterFeed s.cfg s.integ0.toInt k.toNat ((smp.toNat : Int) - 128)).2) ∧
      (s.cfg.nfilt = .two →
        i1.toInt = (filterFeed s.cfg s.integ1.toInt k.toNat
          (filterFeed s.cfg s.integ0.toInt k.toNat ((smp.toNat : Int) - 128)).2).1 ∧
        y = (filterFeed s.cfg s.integ1.toInt k.toNat
          (filterFeed s.cfg s.integ0.toInt k.toNat ((smp.toNat : Int) - 128)).2).2))

/-- The model's choice (log 4), in states R25 and R36 say no run reaches: a TICK that passes the checks and finds a
reference that is `null` or outside the waveform ROM, or no entry, stops. -/
def Obligations.TickStopsWithoutASample : Prop :=
  ∀ (s : State) (slot k : Byte), s.tblValid = true → slot.toNat < s.cfg.tableSize →
    (s.tbl[slot.toNat]? = none → exec (.tick slot k) s = .fault (.noSample slot)) ∧
    (∀ e, s.tbl[slot.toNat]? = some e →
      e.left = none ∨ e.right = none ∨ (∃ w, e.left = some w ∧ s.cfg.waves.length ≤ w.toNat) ∨
        (∃ w, e.right = some w ∧ s.cfg.waves.length ≤ w.toNat) →
      exec (.tick slot k) s = .fault (.noSample slot))

/-- The audio path and the MIDI decoder do not touch each other (R108, R112): on a block that is not faulted, a TICK that
passes its two checks and a MIDI byte may be swapped, as instructions and as the next two offers of the sample clock and
of the host. (A TICK that fails a check faults the block, which then accepts no MIDI byte, R115.) -/
def Obligations.TickAndMidiByteCommute : Prop :=
  ∀ (s : State) (slot k : Byte) (chan : Channel) (b : Byte),
    s.fault = none → s.tblValid = true → slot.toNat < s.cfg.tableSize →
    runInstrs [.tick slot k, .midiByte chan b] s = runInstrs [.midiByte chan b, .tick slot k] s ∧
    ∀ (clock : List Word) (host : List HostAction) (schedule : List Agent),
      runSteps 2 { s with port :=
        { clock := tickWord slot k :: clock, host := .command (midiByteWord chan b) :: host,
          schedule := .sampleClock :: .host :: schedule } } =
      runSteps 2 { s with port :=
        { clock := tickWord slot k :: clock, host := .command (midiByteWord chan b) :: host,
          schedule := .host :: .sampleClock :: schedule } }

/-! ## Whole-machine rules (spec/10_state.md) -/

/-- Each register has one writing command (R16, R24, R49, R111): only TICK writes `PHASE`, `INTEG` and `OUT`, only
SET_STEP writes `STEP`, only LOAD_TABLE writes the table registers, and those three commands write no MIDI register; no
instruction writes the parameters or the port. -/
def Obligations.EachRegisterHasOneWriter : Prop :=
  ∀ (i : Instr) (s t : State), exec i s = .next t →
    ((∀ slot k, i ≠ .tick slot k) →
      t.phase = s.phase ∧ t.integ0 = s.integ0 ∧ t.integ1 = s.integ1 ∧ t.out = s.out) ∧
    ((∀ v, i ≠ .setStep v) → t.stepReg = s.stepReg) ∧
    ((∀ n, i ≠ .loadTable n) → t.tbl = s.tbl ∧ t.tblValid = s.tblValid ∧ t.tblOffset = s.tblOffset) ∧
    ((∃ slot k, i = .tick slot k) ∨ (∃ v, i = .setStep v) ∨ (∃ n, i = .loadTable n) →
      t.rs = s.rs ∧ t.dcount = s.dcount ∧ t.dlimit = s.dlimit ∧ t.dbuf0 = s.dbuf0 ∧ t.dbuf1 = s.dbuf1 ∧
      t.note = s.note ∧ t.vel = s.vel ∧ t.gate = s.gate ∧ t.prog = s.prog ∧ t.bend = s.bend ∧ t.ctrl = s.ctrl ∧
      t.resetFlag = s.resetFlag) ∧
    t.cfg = s.cfg ∧ t.port = s.port

/-- No step, `RESET` among them, changes the ROMs or a parameter (R36, R37, R128). -/
def Obligations.RomsAndParametersNeverChange : Prop :=
  ∀ s t : State, step s = .next t → t.cfg = s.cfg

/-- `RESET_FLAG` is set by the byte 0xFF only and cleared by `RESET` only; the reset request is its value (R31, R33,
R96, R118). -/
def Obligations.ResetFlagIsSticky : Prop :=
  ∀ s t : State, step s = .next t →
    (s.resetFlag = true → t.resetFlag = false → ∃ p, s.port.take = some (.reset, p)) ∧
    (s.resetFlag = false → t.resetFlag = true →
      ∃ chan p, s.port.take = some (.command (midiByteWord chan 0xFF), p)) ∧
    resetRequest t = t.resetFlag

/-! ## Loader (spec/40_waveform_loader.md) -/

/-- R74, R75, R76, R78, R79: when tables 0..index of the blob are accepted descriptors, LOAD_TABLE completes, writes the
three table registers only, and the new table is the interpolation of the named key frames: each slot between a key
frame `lk` and the next one `rk` has their two waveforms and the truncated blend factor, and the final slot has its own
waveform twice and factor 0. -/
def Obligations.LoadTableInterpolatesTheKeyFrames : Prop :=
  ∀ (s : State) (index : BitVec 16) (before : List Descriptor) (d : Descriptor) (rest : List Byte),
    s.cfg.wf = true → before.length = index.toNat →
    s.cfg.blob = before.flatMap Descriptor.bytes ++ d.bytes ++ rest →
    (∀ b ∈ before, b.Accepted s.cfg) → d.Accepted s.cfg →
    ∃ (E : List Entry) (offset : BitVec 16),
      exec (.loadTable index) s = .next { s with tbl := E, tblOffset := offset, tblValid := true } ∧
      offset.toNat = (before.flatMap Descriptor.bytes ++ d.bytes).length ∧
      E.length = s.cfg.tableSize ∧
      (∀ i lk rk, lk ≤ i → i < rk → (∃ p ∈ d.pairs, p.2.toNat = lk) → (∃ p ∈ d.pairs, p.2.toNat = rk) →
        (∀ p ∈ d.pairs, ¬ (lk < p.2.toNat ∧ p.2.toNat < rk)) →
        E[i]? = some
          { left := namedWave d.pairs lk, right := namedWave d.pairs rk,
            factor := BitVec.ofNat 8 (65535 / (rk - lk) * (i - lk) / 256), key := decide (i = lk) }) ∧
      E[s.cfg.tableSize - 1]? = some
        { left := some d.last.1, right := some d.last.1, factor := 0, key := true }

/-- R77: each failing check of the first ill-formed table among 0..index raises `BlobInvalid` with its offset, and
nothing else changes. The model's reading of (a) at the end of the blob is log 8. -/
def Obligations.IllFormedTablesRaiseBlobInvalid : Prop :=
  ∀ (s : State) (index : BitVec 16) (before : List Descriptor) (suffix : List Byte),
    s.fault = none → before.length ≤ index.toNat → (∀ b ∈ before, b.Accepted s.cfg) →
    s.cfg.blob = before.flatMap Descriptor.bytes ++ suffix →
    (suffix = [] → exec (.loadTable index) s = .next { s with
      fault := some { cause := .blobInvalid (before.flatMap Descriptor.bytes).length,
                      word := some (0x4000#16 ++ index) } }) ∧
    (∀ (ignored : Byte) (inner : List (Byte × Byte)) (tail : List Byte),
      suffix = descriptor ignored inner ++ tail → (∀ p ∈ inner, InnerPair s.cfg p) →
      (tail.length ≤ 1 ∨ (∃ w p r, tail = w :: p :: r ∧ (s.cfg.tableSize ≤ p.toNat ∨ s.cfg.nwaves ≤ w.toNat)) →
        exec (.loadTable index) s = .next { s with
          fault := some
            { cause := .blobInvalid ((before.flatMap Descriptor.bytes).length + 1 + 2 * inner.length),
              word := some (0x4000#16 ++ index) } }) ∧
      (∀ w p r, tail = w :: p :: r → LastPair s.cfg (w, p) → (∀ q ∈ inner ++ [(w, p)], q.2 ≠ 0) →
        exec (.loadTable index) s = .next { s with
          fault := some { cause := .blobInvalid (before.flatMap Descriptor.bytes).length,
                          word := some (0x4000#16 ++ index) } }))

/-- The offset after loading table `n + 1` exceeds that after loading table `n` by at least 3, and lies inside the
blob (R80 item 3). -/
def Obligations.LaterTablesEndLater : Prop :=
  ∀ (s t u : State) (n : BitVec 16), s.cfg.wf = true → s.fault = none → n.toNat + 1 < 65536 →
    exec (.loadTable n) s = .next t → t.fault = none →
    exec (.loadTable (n + 1)) s = .next u → u.fault = none →
    t.tblOffset.toNat + 3 ≤ u.tblOffset.toNat ∧ u.tblOffset.toNat ≤ s.cfg.blob.length

/-- At a key frame of a loaded table the sample is the pure waveform's at every phase (R80 item 2). -/
def Obligations.KeyFramesSampleTheirWaveform : Prop :=
  ∀ (cfg : Params) (tbl : List Entry) (i : Nat) (e : Entry) (w : Byte) (a : Waveform) (phase : BitVec 16),
    LoadedTable cfg tbl → tbl[i]? = some e → e.key = true → e.left = some w → cfg.waves[w.toNat]? = some a →
    sample cfg tbl i phase = some (sfp a phase)

/-- R76: the blend factor with its truncations, its bounds, that it does not fall from slot to slot, and 0 at the key
slot and at the final slot. -/
def Obligations.BlendFactorTruncatesTwice : Prop :=
  (∀ n i lk rk : Nat, lk ≤ i → i < rk → rk < n →
    blendFactor n i lk rk = 65535 / (rk - lk) * (i - lk) / 256 ∧
    65535 / (rk - lk) * (i - lk) < 65535 ∧ blendFactor n i lk rk ≤ 255 ∧
    (i = lk → blendFactor n i lk rk = 0) ∧
    (i + 1 < rk → blendFactor n i lk rk ≤ blendFactor n (i + 1) lk rk)) ∧
  (∀ n lk rk : Nat, blendFactor n (n - 1) lk rk = 0)

/-- After a LOAD_TABLE that completes without a fault the table is valid and loaded: as many entries as slots, every
reference in the ROM, factor 0 at the final slot (R25, R26). -/
def Obligations.LoadTableLeavesALoadedTable : Prop :=
  ∀ (s t : State) (index : BitVec 16), s.fault = none → exec (.loadTable index) s = .next t → t.fault = none →
    t.tblValid = true ∧ LoadedTable s.cfg t.tbl

/-! ## MIDI decoder (spec/44_midi.md) -/

/-- R97: a status byte completes from every state and with every channel filter, writes `RS`, `DCOUNT` and `DLIMIT`, and
leaves everything else; 0xFF is one of class 7 under `FF_ALSO_STATUS`. Said of every byte 0x80..0xFE, and of each row. -/
def Obligations.StatusBytesStartAMessage : Prop :=
  ∀ (s : State) (chan ch : Channel),
    (∀ b : Byte, 0x80 ≤ b.toNat → b ≠ 0xFF → exec (.midiByte chan b) s = .next
      { s with rs := b, dcount := 0,
               dlimit := if b.toNat / 16 = 0x8 ∨ b.toNat / 16 = 0x9 ∨ b.toNat / 16 = 0xB ∨ b.toNat / 16 = 0xE then 2
                         else if b.toNat / 16 = 0xC then 1 else 0 }) ∧
    exec (.midiNoteOff chan ch) s = .next { s with rs := 0x8#4 ++ ch, dcount := 0, dlimit := 2 } ∧
    exec (.midiNoteOn chan ch) s = .next { s with rs := 0x9#4 ++ ch, dcount := 0, dlimit := 2 } ∧
    exec (.midiStatusClass2 chan ch) s = .next { s with rs := 0xA#4 ++ ch, dcount := 0, dlimit := 0 } ∧
    exec (.midiControlChange chan ch) s = .next { s with rs := 0xB#4 ++ ch, dcount := 0, dlimit := 2 } ∧
    exec (.midiProgramChange chan ch) s = .next { s with rs := 0xC#4 ++ ch, dcount := 0, dlimit := 1 } ∧
    exec (.midiStatusClass5 chan ch) s = .next { s with rs := 0xD#4 ++ ch, dcount := 0, dlimit := 0 } ∧
    exec (.midiPitchBend chan ch) s = .next { s with rs := 0xE#4 ++ ch, dcount := 0, dlimit := 2 } ∧
    exec (.midiStatusClass7 chan ch) s = .next { s with rs := 0xF#4 ++ ch, dcount := 0, dlimit := 0 } ∧
    (s.cfg.ffAlsoStatus = true →
      exec (.midiReset chan) s = .next { s with rs := 0xFF, dcount := 0, dlimit := 0, resetFlag := true })

/-- R96: the sentinel 0xFF sets `RESET_FLAG` in every state and with every channel filter; nothing else changes, unless
`FF_ALSO_STATUS` makes it a status byte too; and the flag stays set until `RESET`. -/
def Obligations.SentinelSetsTheResetFlag : Prop :=
  ∀ (s : State) (chan : Channel),
    (s.cfg.ffAlsoStatus = false → exec (.midiReset chan) s = .next { s with resetFlag := true }) ∧
    (s.cfg.ffAlsoStatus = true →
      exec (.midiReset chan) s = .next { s with rs := 0xFF, dcount := 0, dlimit := 0, resetFlag := true }) ∧
    exec (.midiByte chan 0xFF) s = exec (.midiReset chan) s ∧
    (∀ t, s.resetFlag = true → step s = .next t → t.resetFlag = true ∨ ∃ p, s.port.take = some (.reset, p))

/-- R98, R99: a data byte is absorbed while awaiting status and on another channel than the filter's; else it is
buffered and counted, and the byte that reaches `DLIMIT` dispatches the message and resets the count. -/
def Obligations.DataBytesBufferAndDispatch : Prop :=
  ∀ (s : State) (chan : Channel) (d : Payload),
    (s.dlimit = 0 → exec (.midiData chan d) s = .next s) ∧
    (s.rs.extractLsb' 0 4 ≠ chan → exec (.midiData chan d) s = .next s) ∧
    (s.rs.extractLsb' 0 4 = chan →
      (s.dlimit = 2 → s.dcount = 0 → exec (.midiData chan d) s = .next { s with dbuf0 := d, dcount := 1 }) ∧
      (s.dlimit = 2 → s.dcount = 1 → exec (.midiData chan d) s =
        .next { dispatch (s.rs.extractLsb' 4 3) { s with dbuf1 := d } with dcount := 0 }) ∧
      (s.dlimit = 1 → s.dcount = 0 → exec (.midiData chan d) s =
        .next { dispatch (s.rs.extractLsb' 4 3) { s with dbuf0 := d } with dcount := 0 }))

/-- R101: a note-on message, from every state: `NOTE`, `VEL` and `GATE`, at velocity 0 too; nothing else but the
parser's registers. -/
def Obligations.NoteOnSetsNoteVelocityGate : Prop :=
  ∀ (s : State) (chan0 ch : Channel) (n v : Payload),
    runInstrs [.midiNoteOn chan0 ch, .midiData ch n, .midiData ch v] s =
      .next { s with rs := 0x9#4 ++ ch, dcount := 0, dlimit := 2, dbuf0 := n, dbuf1 := v,
                     note := n, vel := v, gate := true }

/-- R102: a note-off message, from every state: `GATE` is cleared only if the released note is the held one; `NOTE`
and `VEL` stay. -/
def Obligations.NoteOffClearsTheHeldGate : Prop :=
  ∀ (s : State) (chan0 ch : Channel) (n v : Payload),
    runInstrs [.midiNoteOff chan0 ch, .midiData ch n, .midiData ch v] s =
      .next { s with rs := 0x8#4 ++ ch, dcount := 0, dlimit := 2, dbuf0 := n, dbuf1 := v,
                     gate := if n = s.note then false else s.gate }

/-- R103: a controller change, from every state: the one controller named by the first data byte gets the second;
no other controller changes. -/
def Obligations.ControlChangeStoresOneController : Prop :=
  ∀ (s : State) (chan0 ch : Channel) (n v : Payload),
    ∃ ctrl, runInstrs [.midiControlChange chan0 ch, .midiData ch n, .midiData ch v] s =
      .next { s with rs := 0xB#4 ++ ch, dcount := 0, dlimit := 2, dbuf0 := n, dbuf1 := v, ctrl := ctrl } ∧
      readCtrl n { s with ctrl := ctrl } = v ∧ ∀ i, i ≠ n → readCtrl i { s with ctrl := ctrl } = readCtrl i s

/-- R104: a program change, from every state: however many accepted data bytes follow the status byte, one or more, each
is a program change of its own, so that the program is the last of them. -/
def Obligations.ProgramChangeStoresProgram : Prop :=
  ∀ (s : State) (chan0 ch : Channel) (earlier : List Payload) (last : Payload),
    runInstrs (.midiProgramChange chan0 ch :: (earlier ++ [last]).map fun d => .midiData ch d) s =
      .next { s with rs := 0xC#4 ++ ch, dcount := 0, dlimit := 1, dbuf0 := last, prog := last }

/-- R105, R41: a pitch bend, from every state: the first data byte is the low 7 bits, the second the high 7 bits. -/
def Obligations.PitchBendCombinesTwoBytes : Prop :=
  ∀ (s : State) (chan0 ch : Channel) (lo hi : Payload),
    ∃ bend : BitVec 14, bend.toNat = lo.toNat + 128 * hi.toNat ∧
      runInstrs [.midiPitchBend chan0 ch, .midiData ch lo, .midiData ch hi] s =
        .next { s with rs := 0xE#4 ++ ch, dcount := 0, dlimit := 2, dbuf0 := lo, dbuf1 := hi, bend := bend }

/-- R106: after a status byte of class 2, 5 or 7, data bytes on any channel filter, however many, change nothing. -/
def Obligations.UnknownClassesAbsorbTheirData : Prop :=
  ∀ (s : State) (chan ch : Channel) (data : List (Channel × Payload)),
    runInstrs (.midiStatusClass2 chan ch :: data.map fun p => .midiData p.1 p.2) s =
      .next { s with rs := 0xA#4 ++ ch, dcount := 0, dlimit := 0 } ∧
    runInstrs (.midiStatusClass5 chan ch :: data.map fun p => .midiData p.1 p.2) s =
      .next { s with rs := 0xD#4 ++ ch, dcount := 0, dlimit := 0 } ∧
    runInstrs (.midiStatusClass7 chan ch :: data.map fun p => .midiData p.1 p.2) s =
      .next { s with rs := 0xF#4 ++ ch, dcount := 0, dlimit := 0 }

/-- Running status, between messages (R107): in a class of two data bytes every further pair of accepted data bytes is one
more message of that class, and in a class of one data byte every further accepted data byte is; however many. -/
def Obligations.RunningStatusRepeatsTheMessage : Prop :=
  ∀ s : State, s.dcount = 0 →
    (∀ pairs : List (Payload × Payload), s.dlimit = 2 →
      runInstrs (pairs.flatMap fun p =>
          [.midiData (s.rs.extractLsb' 0 4) p.1, .midiData (s.rs.extractLsb' 0 4) p.2]) s =
        .next (pairs.foldl (fun u p => dispatch (s.rs.extractLsb' 4 3) { u with dbuf0 := p.1, dbuf1 := p.2 }) s)) ∧
    (∀ data : List Payload, s.dlimit = 1 →
      runInstrs (data.map fun d => .midiData (s.rs.extractLsb' 0 4) d) s =
        .next (data.foldl (fun u d => dispatch (s.rs.extractLsb' 4 3) { u with dbuf0 := d }) s))

/-- No MIDI byte faults or stops, with any channel filter in any state, and none touches the audio path, the table, the
parameters, the port or `FAULT` (R66, R108). -/
def Obligations.MidiBytesNeverFault : Prop :=
  ∀ (s : State) (chan : Channel) (b : Byte),
    ∃ t, exec (.midiByte chan b) s = .next t ∧
      t = { s with rs := t.rs, dcount := t.dcount, dlimit := t.dlimit, dbuf0 := t.dbuf0, dbuf1 := t.dbuf1,
                   note := t.note, vel := t.vel, gate := t.gate, prog := t.prog, bend := t.bend, ctrl := t.ctrl,
                   resetFlag := t.resetFlag }

/-- A note-on message whose data bytes the filter rejects leaves the channel state; the parser has the status byte
(R109). -/
def Obligations.FilteredMessageLeavesTheChannelState : Prop :=
  ∀ (s : State) (chan ch : Channel) (n v : Payload), chan ≠ ch →
    runInstrs [.midiNoteOn chan ch, .midiData chan n, .midiData chan v] s =
      .next { s with rs := 0x9#4 ++ ch, dcount := 0, dlimit := 2 }

/-! ## Invariants -/

/-- The invariant holds of the reset state, whatever the OPEN parameters are. -/
def Obligations.ResetStateMeetsTheInvariant : Prop :=
  Inv State.reset

/-- Every step keeps the invariant: the parameters in range, the table a loaded one when valid and cleared when not, the
parser's counters in range and matching `RS`, no sample without a table, and a fault record as R113 and R114 say. -/
def Obligations.EveryStepKeepsTheInvariant : Prop :=
  ∀ s t : State, Inv s → step s = .next t → Inv t

/-- Under the invariant a step answers a next state, except a refused host read of a port the block does not have. Four
clauses of it are the model's choices: a fault recorded in `FAULT` is a next state and no stop of the machine (log 1; R120
calls the faulted state the block's one form of stop), a command presented to a faulted block, which R115 gives no step,
is dropped in a next state (log 13), so is a host read of a faulted block answered in one (log 14), and the read of an
absent port is refused (log 6). -/
def Obligations.InvariantStatesNeverStop : Prop :=
  ∀ s : State, Inv s →
    (∃ t, step s = .next t) ∨
    (∃ q p, s.port.take = some (.read q, p) ∧ readPort q s = .absent ∧ step s = .refused (.noSuchPort q))

/-! ## Several blocks (spec/60_exceptions.md) -/

/-- A step of one block of a system leaves every other block as it is, and the blocks go on sharing their ROMs
(R125). -/
def Obligations.InstancesAreIndependent : Prop :=
  ∀ (sys sys' : List State) (j : Nat), stepInstance j sys = .next sys' →
    sys'.length = sys.length ∧ (∀ i, i ≠ j → sys'[i]? = sys[i]?) ∧
    (∀ s, sys[j]? = some s → ∃ t, step s = .next t ∧ sys'[j]? = some t) ∧
    (sharesRoms sys = true → sharesRoms sys' = true)
end

