-- ==== Sys2Proof/Laws/Decode.lean ====
section
/-! SUPPORT. The fields of encoded words and bytes, and what the decoder makes of them. -/

namespace Sys2Proof

section Fields
variable (slot k b : Byte) (v : BitVec 16) (chan channel : Channel) (cls : BitVec 3) (d : Payload) (w : Word)

@[simp] theorem opField_tickWord : opField (tickWord slot k) = 1#4 := by
  apply BitVec.eq_of_getLsbD_eq; intro i hi
  simp only [opField, tickWord, BitVec.getLsbD_extractLsb', BitVec.getLsbD_append]
  interval_cases i <;> simp

@[simp] theorem rsvField_tickWord : rsvField (tickWord slot k) = 0#12 := by
  apply BitVec.eq_of_getLsbD_eq; intro i hi
  simp only [rsvField, tickWord, BitVec.getLsbD_extractLsb', BitVec.getLsbD_append]
  interval_cases i <;> simp

@[simp] theorem opField_setStepWord : opField (setStepWord v) = 2#4 := by
  apply BitVec.eq_of_getLsbD_eq; intro i hi
  simp only [opField, setStepWord, BitVec.getLsbD_extractLsb', BitVec.getLsbD_append]
  interval_cases i <;> simp

@[simp] theorem rsvField_setStepWord : rsvField (setStepWord v) = 0#12 := by
  apply BitVec.eq_of_getLsbD_eq; intro i hi
  simp only [rsvField, setStepWord, BitVec.getLsbD_extractLsb', BitVec.getLsbD_append]
  interval_cases i <;> simp

@[simp] theorem opField_midiByteWord : opField (midiByteWord chan b) = 3#4 := by
  apply BitVec.eq_of_getLsbD_eq; intro i hi
  simp only [opField, midiByteWord, BitVec.getLsbD_extractLsb', BitVec.getLsbD_append]
  interval_cases i <;> simp

@[simp] theorem rsvField_midiByteWord : rsvField (midiByteWord chan b) = 0#12 := by
  apply BitVec.eq_of_getLsbD_eq; intro i hi
  simp only [rsvField, midiByteWord, BitVec.getLsbD_extractLsb', BitVec.getLsbD_append]
  interval_cases i <;> simp

@[simp] theorem opField_loadTableWord : opField (loadTableWord v) = 4#4 := by
  apply BitVec.eq_of_getLsbD_eq; intro i hi
  simp only [opField, loadTableWord, BitVec.getLsbD_extractLsb', BitVec.getLsbD_append]
  interval_cases i <;> simp

@[simp] theorem rsvField_loadTableWord : rsvField (loadTableWord v) = 0#12 := by
  apply BitVec.eq_of_getLsbD_eq; intro i hi
  simp only [rsvField, loadTableWord, BitVec.getLsbD_extractLsb', BitVec.getLsbD_append]
  interval_cases i <;> simp

@[simp] theorem slotField_tickWord : slotField (tickWord slot k) = slot := by
  apply BitVec.eq_of_getLsbD_eq; intro i hi
  simp only [slotField, tickWord, BitVec.getLsbD_extractLsb', BitVec.getLsbD_append]
  interval_cases i <;> simp

@[simp] theorem lowByteField_tickWord : lowByteField (tickWord slot k) = k := by
  apply BitVec.eq_of_getLsbD_eq; intro i hi
  simp only [lowByteField, tickWord, BitVec.getLsbD_extractLsb', BitVec.getLsbD_append]
  interval_cases i <;> simp

@[simp] theorem argField_setStepWord : argField (setStepWord v) = v := by
  apply BitVec.eq_of_getLsbD_eq; intro i hi
  simp only [argField, setStepWord, BitVec.getLsbD_extractLsb', BitVec.getLsbD_append]
  interval_cases i <;> simp

@[simp] theorem argField_loadTableWord : argField (loadTableWord v) = v := by
  apply BitVec.eq_of_getLsbD_eq; intro i hi
  simp only [argField, loadTableWord, BitVec.getLsbD_extractLsb', BitVec.getLsbD_append]
  interval_cases i <;> simp

@[simp] theorem midiRsvField_midiByteWord : midiRsvField (midiByteWord chan b) = 0#4 := by
  apply BitVec.eq_of_getLsbD_eq; intro i hi
  simp only [midiRsvField, midiByteWord, BitVec.getLsbD_extractLsb', BitVec.getLsbD_append]
  interval_cases i <;> simp

@[simp] theorem chanField_midiByteWord : chanField (midiByteWord chan b) = chan := by
  apply BitVec.eq_of_getLsbD_eq; intro i hi
  simp only [chanField, midiByteWord, BitVec.getLsbD_extractLsb', BitVec.getLsbD_append]
  interval_cases i <;> simp

@[simp] theorem lowByteField_midiByteWord : lowByteField (midiByteWord chan b) = b := by
  apply BitVec.eq_of_getLsbD_eq; intro i hi
  simp only [lowByteField, midiByteWord, BitVec.getLsbD_extractLsb', BitVec.getLsbD_append]
  interval_cases i <;> simp

@[simp] theorem classField_statusOf : classField (statusOf cls channel) = cls := by
  apply BitVec.eq_of_getLsbD_eq; intro i hi
  simp only [classField, statusOf, BitVec.getLsbD_extractLsb', BitVec.getLsbD_append]
  interval_cases i <;> simp

@[simp] theorem channelField_statusOf : channelField (statusOf cls channel) = channel := by
  apply BitVec.eq_of_getLsbD_eq; intro i hi
  simp only [channelField, statusOf, BitVec.getLsbD_extractLsb', BitVec.getLsbD_append]
  interval_cases i <;> simp

@[simp] theorem isStatus_statusOf : isStatus (statusOf cls channel) = true := by
  simp only [isStatus, statusOf, BitVec.getLsbD_append]; simp

@[simp] theorem isStatus_data : isStatus (0#1 ++ d) = false := by
  simp only [isStatus, BitVec.getLsbD_append]; simp

@[simp] theorem payloadField_data : payloadField (0#1 ++ d) = d := by
  apply BitVec.eq_of_getLsbD_eq; intro i hi
  simp only [payloadField, BitVec.getLsbD_extractLsb', BitVec.getLsbD_append]
  interval_cases i <;> simp

/-- A data byte is not the sentinel. -/
@[simp] theorem data_ne_sentinel : 0#1 ++ d ≠ 0xFF#8 := by
  intro h; have := congrArg isStatus h; simp at this; exact absurd this (by decide)

/-- The only status byte that is the sentinel has class 7 and low bits 0xF (R62). -/
theorem statusOf_eq_sentinel : statusOf cls channel = 0xFF#8 ↔ cls = 7#3 ∧ channel = 0xF#4 := by
  constructor
  · intro h
    have h1 := congrArg classField h
    have h2 := congrArg channelField h
    simp only [classField_statusOf, channelField_statusOf] at h1 h2
    exact ⟨h1, h2⟩
  · rintro ⟨rfl, rfl⟩; rfl

/-- A status byte is its class and channel (R63). -/
theorem statusOf_fields (h : isStatus b = true) : statusOf (classField b) (channelField b) = b := by
  apply BitVec.eq_of_getLsbD_eq; intro i hi
  simp only [isStatus] at h
  simp only [statusOf, classField, channelField, BitVec.getLsbD_extractLsb', BitVec.getLsbD_append]
  interval_cases i <;> simp [h]

/-- A data byte is its payload (R62). -/
theorem data_payloadField (h : isStatus b = false) : 0#1 ++ payloadField b = b := by
  apply BitVec.eq_of_getLsbD_eq; intro i hi
  simp only [isStatus] at h
  simp only [payloadField, BitVec.getLsbD_extractLsb', BitVec.getLsbD_append]
  interval_cases i <;> simp
  simpa using h.symm

/-- A word is its four transport bytes, lowest first (R43). -/
theorem wordOfBytes_bytes :
    wordOfBytes (w.extractLsb' 0 8) (w.extractLsb' 8 8) (w.extractLsb' 16 8) (w.extractLsb' 24 8) = w := by
  apply BitVec.eq_of_getLsbD_eq; intro i hi
  simp only [wordOfBytes, BitVec.getLsbD_extractLsb', BitVec.getLsbD_append]
  interval_cases i <;> simp

/-- Concatenation on numbers: the high part times a power of two, plus the low part (R10). -/
theorem toNat_append {m n : Nat} (x : BitVec m) (y : BitVec n) : (x ++ y).toNat = x.toNat * 2 ^ n + y.toNat := by
  rw [BitVec.toNat_append, ← Nat.shiftLeft_add_eq_or_of_lt y.isLt, Nat.shiftLeft_eq]

/-- The words as the sums of R70. -/
theorem toNat_tickWord : (tickWord slot k).toNat = 0x10000000 + slot.toNat * 256 + k.toNat := by
  simp only [tickWord, toNat_append]; simp; omega

theorem toNat_setStepWord : (setStepWord v).toNat = 0x20000000 + v.toNat := by
  simp only [setStepWord, toNat_append]; simp

theorem toNat_midiByteWord : (midiByteWord chan b).toNat = 0x30000000 + chan.toNat * 256 + b.toNat := by
  simp only [midiByteWord, toNat_append]; simp; omega

theorem toNat_loadTableWord : (loadTableWord v).toNat = 0x40000000 + v.toNat := by
  simp only [loadTableWord, toNat_append]; simp

/-- The fields of a word as numbers (R54, R55, R57). -/
theorem toNat_opField : (opField w).toNat = w.toNat / 2 ^ 28 := by
  have := w.isLt
  simp only [opField, BitVec.extractLsb'_toNat, Nat.shiftRight_eq_div_pow]; omega

theorem toNat_rsvField : (rsvField w).toNat = w.toNat / 2 ^ 16 % 2 ^ 12 := by
  simp only [rsvField, BitVec.extractLsb'_toNat, Nat.shiftRight_eq_div_pow]

theorem toNat_argField : (argField w).toNat = w.toNat % 2 ^ 16 := by
  simp [argField]

theorem toNat_slotField : (slotField w).toNat = w.toNat / 2 ^ 8 % 2 ^ 8 := by
  simp only [slotField, BitVec.extractLsb'_toNat, Nat.shiftRight_eq_div_pow]

theorem toNat_lowByteField : (lowByteField w).toNat = w.toNat % 2 ^ 8 := by
  simp [lowByteField]

theorem toNat_midiRsvField : (midiRsvField w).toNat = w.toNat / 2 ^ 12 % 2 ^ 4 := by
  simp only [midiRsvField, BitVec.extractLsb'_toNat, Nat.shiftRight_eq_div_pow]

theorem toNat_chanField : (chanField w).toNat = w.toNat / 2 ^ 8 % 2 ^ 4 := by
  simp only [chanField, BitVec.extractLsb'_toNat, Nat.shiftRight_eq_div_pow]

end Fields

/-! ## The encoded words decode -/

@[simp] theorem decodeCommand_tickWord (slot k : Byte) : decodeCommand (tickWord slot k) = .ok (.tick slot k) := by
  simp [decodeCommand]

@[simp] theorem decodeCommand_setStepWord (v : BitVec 16) : decodeCommand (setStepWord v) = .ok (.setStep v) := by
  simp [decodeCommand]

@[simp] theorem decodeCommand_midiByteWord (chan : Channel) (b : Byte) :
    decodeCommand (midiByteWord chan b) = .ok (.midiByte chan b) := by
  simp [decodeCommand]

@[simp] theorem decodeCommand_loadTableWord (v : BitVec 16) :
    decodeCommand (loadTableWord v) = .ok (.loadTable v) := by
  simp [decodeCommand]

/-- What the decoder can answer on a command word, and the word each answer stands for (R61). -/
theorem decodeCommand_ok {w : Word} {i : Instr} (h : decodeCommand w = .ok i) :
    (∃ slot k, i = .tick slot k ∧ w = tickWord slot k) ∨ (∃ v, i = .setStep v ∧ w = setStepWord v) ∨
      (∃ chan b, i = .midiByte chan b ∧ w = midiByteWord chan b) ∨
      (∃ v, i = .loadTable v ∧ w = loadTableWord v) := by
  have hop := toNat_opField w
  have hrsv := toNat_rsvField w
  unfold decodeCommand at h
  split_ifs at h with h0 h1 h2 h3 h4 h5 <;> injection h with h
  all_goals
    have h0 : rsvField w = 0#12 := by simpa using h0
    rw [h0] at hrsv
  · refine .inl ⟨_, _, h.symm, BitVec.eq_of_toNat_eq ?_⟩
    rw [h1] at hop
    rw [toNat_tickWord, toNat_slotField, toNat_lowByteField]
    simp at hop hrsv; omega
  · refine .inr (.inl ⟨_, h.symm, BitVec.eq_of_toNat_eq ?_⟩)
    rw [h2] at hop
    rw [toNat_setStepWord, toNat_argField]
    simp at hop hrsv; omega
  · refine .inr (.inr (.inl ⟨_, _, h.symm, BitVec.eq_of_toNat_eq ?_⟩))
    have h4 : midiRsvField w = 0#4 := by simpa using h4
    have hm := toNat_midiRsvField w
    rw [h3] at hop
    rw [h4] at hm
    rw [toNat_midiByteWord, toNat_chanField, toNat_lowByteField]
    simp at hop hrsv hm; omega
  · refine .inr (.inr (.inr ⟨_, h.symm, BitVec.eq_of_toNat_eq ?_⟩))
    rw [h5] at hop
    rw [toNat_loadTableWord, toNat_argField]
    simp at hop hrsv; omega

end Sys2Proof
end

