-- ==== Sys2Proof/Laws/Filter.lean ====
section
/-! SUPPORT. Ranges of the filter's values, and one step toward a constant input (R89–R94). -/

namespace Sys2Proof.Machine

/-- `sat16` answers a 16-bit signed value (R11). -/
theorem sat16_range (v : Int) : -32768 ≤ sat16 v ∧ sat16 v ≤ 32767 := by unfold sat16; omega

/-- `sat16` changes nothing in range (R11). -/
theorem sat16_of_range {v : Int} (h : -32768 ≤ v ∧ v ≤ 32767) : sat16 v = v := by unfold sat16; omega

/-- `swrap_16` answers the value in range that is congruent (R11). -/
theorem swrap16_spec (v : Int) : -32768 ≤ swrap16 v ∧ swrap16 v ≤ 32767 ∧ (swrap16 v - v) % 65536 = 0 := by
  unfold swrap16; omega

/-- Floor division by 256 as bounds (R11). -/
theorem asr8_spec (v : Int) : 256 * asr8 v ≤ v ∧ v < 256 * asr8 v + 256 := by unfold asr8; omega

/-- Division toward zero, sign by sign (R11). -/
theorem tdiv256_of_nonneg {v : Int} (h : 0 ≤ v) : tdiv256 v = v / 256 := by
  unfold tdiv256; exact Int.tdiv_eq_ediv_of_nonneg h

theorem tdiv256_of_nonpos {v : Int} (h : v ≤ 0) : tdiv256 v = -(-v / 256) := by
  unfold tdiv256
  rw [← Int.tdiv_eq_ediv_of_nonneg (by omega : 0 ≤ -v), Int.neg_tdiv, Int.neg_neg]

/-- For every 16-bit `s`, `q8(s)` is in -128..127 (R91). -/
theorem q8_range (m : Q8Div) {s : Int} (h : -32768 ≤ s ∧ s ≤ 32767) : -128 ≤ q8 m s ∧ q8 m s ≤ 127 := by
  cases m with
  | floor => have := asr8_spec s; simp only [q8]; omega
  | trunc =>
    simp only [q8]
    rcases Int.le_total 0 s with h0 | h0
    · rw [tdiv256_of_nonneg h0]; omega
    · rw [tdiv256_of_nonpos h0]; omega

/-- The new state is a 16-bit value and the output an 8-bit one, for any operands (R92). -/
theorem filterFeed_range (cfg : Params) (s k x : Int) :
    (-32768 ≤ (filterFeed cfg s k x).1 ∧ (filterFeed cfg s k x).1 ≤ 32767) ∧
      -128 ≤ (filterFeed cfg s k x).2 ∧ (filterFeed cfg s k x).2 ≤ 127 :=
  ⟨sat16_range _, q8_range _ (sat16_range _)⟩

/-- A 16-bit signed value is kept by its register (R21). -/
theorem toInt_ofInt16 {v : Int} (h : -32768 ≤ v ∧ v ≤ 32767) : (BitVec.ofInt 16 v).toInt = v := by
  rw [BitVec.toInt_ofInt]
  exact Int.bmod_eq_of_le (by omega) (by omega)

/-- A register's value is a 16-bit signed value (R21). -/
theorem toInt16_range (v : BitVec 16) : -32768 ≤ v.toInt ∧ v.toInt ≤ 32767 := by
  have h1 := BitVec.le_toInt v
  have h2 := BitVec.toInt_lt (x := v)
  norm_num at h1 h2; omega

/-- One step with the default parameters and `q8(s) ≤ x`: no clip, the state does not fall, rises by at least `k` below
`x`, and `q8` does not pass `x` (R94). -/
theorem filterFeed_below {cfg : Params} (hq : cfg.q8Div = .floor) (hd : cfg.deltaMode = .exact) {s k x : Int}
    (hs : -32768 ≤ s ∧ s ≤ 32767) (hk : 0 ≤ k ∧ k ≤ 255) (hx : -128 ≤ x ∧ x ≤ 127) (h : asr8 s ≤ x) :
    (filterFeed cfg s k x).1 = s + (x - asr8 s) * k ∧ s ≤ (filterFeed cfg s k x).1 ∧
      (asr8 s < x → s + k ≤ (filterFeed cfg s k x).1) ∧ asr8 (filterFeed cfg s k x).1 ≤ x ∧
      asr8 s ≤ asr8 (filterFeed cfg s k x).1 := by
  have h0 := asr8_spec s
  have hlo : 0 ≤ (x - asr8 s) * k := Int.mul_nonneg (by omega) hk.1
  have hhi : (x - asr8 s) * k ≤ (x - asr8 s) * 255 := Int.mul_le_mul_of_nonneg_left hk.2 (by omega)
  have hv : (filterFeed cfg s k x).1 = s + (x - asr8 s) * k := by
    simp only [filterFeed, integratorFeed, satAdd, filterDelta, hq, hd, q8]
    exact sat16_of_range (by omega)
  rw [hv]
  have h1 := asr8_spec (s + (x - asr8 s) * k)
  refine ⟨rfl, by omega, fun hlt => ?_, by omega, by omega⟩
  have : 1 * k ≤ (x - asr8 s) * k := Int.mul_le_mul_of_nonneg_right (by omega) hk.1
  omega

/-- One step with the default parameters and `x ≤ q8(s)`, the same downward (R94). -/
theorem filterFeed_above {cfg : Params} (hq : cfg.q8Div = .floor) (hd : cfg.deltaMode = .exact) {s k x : Int}
    (hs : -32768 ≤ s ∧ s ≤ 32767) (hk : 0 ≤ k ∧ k ≤ 255) (hx : -128 ≤ x ∧ x ≤ 127) (h : x ≤ asr8 s) :
    (filterFeed cfg s k x).1 = s + (x - asr8 s) * k ∧ (filterFeed cfg s k x).1 ≤ s ∧
      (x < asr8 s → (filterFeed cfg s k x).1 ≤ s - k) ∧ x ≤ asr8 (filterFeed cfg s k x).1 ∧
      asr8 (filterFeed cfg s k x).1 ≤ asr8 s := by
  have h0 := asr8_spec s
  have hhi : (x - asr8 s) * k ≤ 0 := Int.mul_nonpos_of_nonpos_of_nonneg (by omega) hk.1
  have hlo : (x - asr8 s) * 255 ≤ (x - asr8 s) * k := Int.mul_le_mul_of_nonpos_left (by omega) hk.2
  have hv : (filterFeed cfg s k x).1 = s + (x - asr8 s) * k := by
    simp only [filterFeed, integratorFeed, satAdd, filterDelta, hq, hd, q8]
    exact sat16_of_range (by omega)
  rw [hv]
  have h1 := asr8_spec (s + (x - asr8 s) * k)
  refine ⟨rfl, by omega, fun hlt => ?_, by omega, by omega⟩
  have : (x - asr8 s) * k ≤ (-1) * k := Int.mul_le_mul_of_nonneg_right (by omega) hk.1
  omega

end Sys2Proof.Machine
end

