-- ==== Sys2Proof/Laws/Loader.lean ====
section
/-! SUPPORT. What the loader computes: the marked key frames, the pass in closed form, and what an accepted table
satisfies (R73–R80). -/

namespace Sys2Proof.Machine

/-! ## Entries by slot -/

/-- The ranges of R8, one by one. -/
theorem params_wf {p : Params} (h : p.wf = true) :
    1 ≤ p.nwaves ∧ p.nwaves ≤ 256 ∧ p.blobLen ≤ 65535 ∧ 0 < p.sampleRate ∧ 1 ≤ p.tableSize := by
  simpa [Params.wf, and_assoc] using h

theorem keyAt_eq (E : List Entry) (i : Nat) : keyAt E i = ((E[i]?).map (·.key)).getD false := by
  unfold keyAt; cases E[i]? <;> rfl

theorem leftAt_eq (E : List Entry) (i : Nat) : leftAt E i = (E[i]?).bind (·.left) := by
  unfold leftAt; cases E[i]? <;> rfl

/-- A key is inside the table. -/
theorem lt_of_keyAt {E : List Entry} {i : Nat} (h : keyAt E i = true) : i < E.length := by
  by_contra hn
  simp [keyAt_eq, List.getElem?_eq_none (Nat.le_of_not_lt hn)] at h

@[simp] theorem keyAt_replicate_cleared (n i : Nat) : keyAt (List.replicate n Entry.cleared) i = false := by
  rw [keyAt_eq, List.getElem?_replicate]; split <;> rfl

@[simp] theorem leftAt_replicate_cleared (n i : Nat) : leftAt (List.replicate n Entry.cleared) i = none := by
  rw [leftAt_eq, List.getElem?_replicate]; split <;> rfl

/-! ## Step (2): marking -/

@[simp] theorem length_markKey (E : List Entry) (p : Nat) (w : Byte) : (markKey E p w).length = E.length := by
  simp [markKey]

theorem keyAt_markKey (E : List Entry) (p : Nat) (w : Byte) (i : Nat) :
    keyAt (markKey E p w) i = (keyAt E i || (decide (p = i) && decide (i < E.length))) := by
  simp only [keyAt_eq, markKey, List.getElem?_modify]
  by_cases hi : i < E.length
  · rw [List.getElem?_eq_getElem hi]
    by_cases hp : p = i <;> simp [hp, hi]
  · rw [List.getElem?_eq_none (Nat.le_of_not_lt hi)]; simp [hi]

theorem leftAt_markKey (E : List Entry) (p : Nat) (w : Byte) (i : Nat) :
    leftAt (markKey E p w) i = if p = i ∧ i < E.length then some w else leftAt E i := by
  simp only [leftAt_eq, markKey, List.getElem?_modify]
  by_cases hi : i < E.length
  · rw [List.getElem?_eq_getElem hi]
    by_cases hp : p = i <;> simp [hp, hi]
  · rw [List.getElem?_eq_none (Nat.le_of_not_lt hi)]; simp [hi]

/-- The marks of some pairs, in order (R74). -/
def markAll (E : List Entry) (pairs : List (Byte × Byte)) : List Entry :=
  pairs.foldl (fun E p => markKey E p.2.toNat p.1) E

@[simp] theorem markAll_nil (E : List Entry) : markAll E [] = E := rfl

@[simp] theorem markAll_cons (E : List Entry) (p : Byte × Byte) (ps : List (Byte × Byte)) :
    markAll E (p :: ps) = markAll (markKey E p.2.toNat p.1) ps := rfl

@[simp] theorem length_markAll (E : List Entry) (ps : List (Byte × Byte)) : (markAll E ps).length = E.length := by
  induction ps generalizing E with
  | nil => rfl
  | cons p ps ih => simp [ih]

/-- A slot is a key frame after the marks iff it was one or a pair names it. -/
theorem keyAt_markAll (E : List Entry) (ps : List (Byte × Byte)) (i : Nat) :
    keyAt (markAll E ps) i = (keyAt E i || (decide (i < E.length) && ps.any fun p => decide (p.2.toNat = i))) := by
  induction ps generalizing E with
  | nil => simp
  | cons p ps ih =>
    rw [markAll_cons, ih, keyAt_markKey, length_markKey, List.any_cons]
    cases keyAt E i <;> cases decide (p.2.toNat = i) <;> cases decide (i < E.length) <;> simp

/-- A slot's waveform after the marks is that of the last pair that names it (92 D14). -/
theorem leftAt_markAll (E : List Entry) (ps : List (Byte × Byte)) {i : Nat} (hi : i < E.length) :
    leftAt (markAll E ps) i = (namedWave ps i).or (leftAt E i) := by
  induction ps generalizing E with
  | nil => simp [namedWave]
  | cons p ps ih =>
    rw [markAll_cons, ih _ (by simpa using hi), leftAt_markKey]
    unfold namedWave
    rw [List.reverse_cons, List.find?_append]
    by_cases hp : p.2.toNat = i
    · cases h : List.find? (fun p => decide (p.2.toNat = i)) ps.reverse <;> simp [hp, hi]
    · cases h : List.find? (fun p => decide (p.2.toNat = i)) ps.reverse <;> simp [hp]

/-- The bytes of some pairs, in order (R67). -/
abbrev pairBytes (ps : List (Byte × Byte)) : List Byte := ps.flatMap fun p => [p.1, p.2]

theorem length_pairBytes (ps : List (Byte × Byte)) : (pairBytes ps).length = 2 * ps.length := by
  induction ps with
  | nil => rfl
  | cons p ps ih => simp [List.flatMap_cons]; omega

/-- Pairs that pass the checks and do not terminate are marked one after the other (R74). -/
theorem markKeys_inner {cfg : Params} (ps : List (Byte × Byte)) (h : ∀ p ∈ ps, InnerPair cfg p) (rest : List Byte)
    (a : Nat) (E : List Entry) :
    markKeys cfg (pairBytes ps ++ rest) a E = markKeys cfg rest (a + 2 * ps.length) (markAll E ps) := by
  induction ps generalizing a E with
  | nil => simp
  | cons p ps ih =>
    have hp := h p (by simp)
    have h1 : ¬ p.2.toNat ≥ cfg.tableSize := by have := hp.2; omega
    have h2 : ¬ p.1.toNat ≥ cfg.nwaves := by have := hp.1; omega
    have h3 : ¬ p.2.toNat = cfg.tableSize - 1 := by have := hp.2; omega
    rw [pairBytes, List.flatMap_cons, List.append_assoc]
    show markKeys cfg (p.1 :: p.2 :: (pairBytes ps ++ rest)) a E = _
    rw [markKeys, if_neg h1, if_neg h2, if_neg h3, ih (fun q hq => h q (by simp [hq]))]
    rw [markAll_cons, List.length_cons]
    congr 1; omega

/-- A descriptor's pairs up to the terminating one (R74). -/
theorem markKeys_descriptor {cfg : Params} {ps : List (Byte × Byte)} {l : Byte × Byte}
    (h : ∀ p ∈ ps, InnerPair cfg p) (hl : LastPair cfg l) (rest : List Byte) (a : Nat) (E : List Entry) :
    markKeys cfg (pairBytes (ps ++ [l]) ++ rest) a E = .ok (markAll E (ps ++ [l]), a + 2 * (ps.length + 1)) := by
  have h1 : ¬ l.2.toNat ≥ cfg.tableSize := by have := hl.2; omega
  have h2 : ¬ l.1.toNat ≥ cfg.nwaves := by have := hl.1; omega
  have h3 : l.2.toNat = cfg.tableSize - 1 := by have := hl.2; omega
  have hb : pairBytes (ps ++ [l]) ++ rest = pairBytes ps ++ (l.1 :: l.2 :: rest) := by
    simp [pairBytes]
  rw [hb, markKeys_inner ps h, markKeys, if_neg h1, if_neg h2, if_pos h3]
  simp only [markAll, List.foldl_append, List.foldl_cons, List.foldl_nil]
  congr 2

/-- Everything a successful marking says about its bytes. -/
theorem markKeys_ok {cfg : Params} {bytes : List Byte} {a b : Nat} {E F : List Entry}
    (h : markKeys cfg bytes a E = .ok (F, b)) :
    ∃ ps l rest, bytes = pairBytes (ps ++ [l]) ++ rest ∧ (∀ p ∈ ps, InnerPair cfg p) ∧ LastPair cfg l ∧
      F = markAll E (ps ++ [l]) ∧ b = a + 2 * (ps.length + 1) := by
  fun_induction markKeys cfg bytes a E with
  | case1 => simp at h
  | case2 => simp at h
  | case3 w p rest a E h1 h2 h3 =>
    injection h with h; injection h with hF hb
    exact ⟨[], (w, p), rest, by simp [pairBytes], by simp, ⟨by simpa using h2, by simp only; omega⟩, by simp [hF],
      by simp [← hb]⟩
  | case4 w p rest a E h1 h2 h3 ih =>
    obtain ⟨ps, l, r, hr, hi, hl, hF, hb⟩ := ih h
    refine ⟨(w, p) :: ps, l, r, by simp [pairBytes, hr], ?_, hl, by simp [hF], by simp [hb]; omega⟩
    intro q hq
    rcases List.mem_cons.1 hq with rfl | hq
    · exact ⟨by simpa using h2, by simp only; omega⟩
    · exact hi q hq
  | case5 => simp at h
  | case6 => simp at h

/-- A failed marking names an offset of the blob, or its end (R77). -/
theorem markKeys_error {cfg : Params} {bytes : List Byte} {a e : Nat} {E : List Entry}
    (h : markKeys cfg bytes a E = .error e) : a ≤ e ∧ e ≤ a + bytes.length := by
  fun_induction markKeys cfg bytes a E with
  | case1 => injection h with h; simp; omega
  | case2 => injection h with h; simp; omega
  | case3 => simp at h
  | case4 w p rest a E h1 h2 h3 ih =>
    have := ih h
    simp; omega
  | case5 => injection h with h; simp; omega
  | case6 => injection h with h; simp; omega

/-! ## Step (3): the pass -/

/-- The last key slot at or before `i`, slot 0 being one. -/
def lastKey (E : List Entry) : Nat → Nat
  | 0 => 0
  | i + 1 => if keyAt E (i + 1) then i + 1 else lastKey E i

theorem lastKey_le (E : List Entry) (i : Nat) : lastKey E i ≤ i := by
  induction i with
  | zero => simp [lastKey]
  | succ i ih => unfold lastKey; split <;> omega

theorem keyAt_lastKey {E : List Entry} (h0 : keyAt E 0 = true) (i : Nat) : keyAt E (lastKey E i) = true := by
  induction i with
  | zero => exact h0
  | succ i ih => unfold lastKey; split <;> assumption

/-- No key lies strictly between `lastKey E i` and `i`, nor is `i` one unless it is `lastKey E i`. -/
theorem not_key_after_lastKey {E : List Entry} {i j : Nat} (h1 : lastKey E i < j) (h2 : j ≤ i) :
    keyAt E j = false := by
  induction i with
  | zero => omega
  | succ i ih =>
    unfold lastKey at h1
    split at h1
    · omega
    · rcases Nat.lt_or_ge j (i + 1) with h | h
      · exact ih h1 (by omega)
      · have : j = i + 1 := by omega
        subst this; simp_all

/-- `lastKey` is the one key at or before `i` with none between (R75). -/
theorem lastKey_unique {E : List Entry} (h0 : keyAt E 0 = true) {i k : Nat} (hk : keyAt E k = true) (hki : k ≤ i)
    (hno : ∀ j, k < j → j ≤ i → keyAt E j = false) : lastKey E i = k := by
  rcases Nat.lt_trichotomy (lastKey E i) k with h | h | h
  · exact absurd hk (by simp [not_key_after_lastKey h hki])
  · exact h
  · have := hno _ h (lastKey_le E i); rw [keyAt_lastKey h0] at this; cases this

/-- The forward scan: the first key after `i`, or `i` if there is none (R75). -/
theorem nextKey_cases (n : Nat) (E : List Entry) (i : Nat) :
    (i < nextKey n E i ∧ nextKey n E i < n ∧ keyAt E (nextKey n E i) = true ∧
      ∀ j, i < j → j < nextKey n E i → keyAt E j = false) ∨
    (nextKey n E i = i ∧ ∀ j, i < j → j < n → keyAt E j = false) := by
  unfold nextKey
  split
  · rename_i j hj
    obtain ⟨hp, as, bs, hab, hno⟩ := List.find?_eq_some_iff_append.1 hj
    have hmem : j ∈ List.range n := by rw [hab]; simp
    have hp' : i < j ∧ keyAt E j = true := by simpa using hp
    refine .inl ⟨hp'.1, List.mem_range.1 hmem, hp'.2, fun k hk1 hk2 => ?_⟩
    have hkm : k ∈ as := by
      have hjn := List.mem_range.1 hmem
      have hlen : as.length = j := by
        have h1 : (List.range n)[as.length]? = some j := by rw [hab]; simp
        have h2 : as.length < n := by
          have := congrArg List.length hab; simp at this; omega
        rw [List.getElem?_range h2] at h1; injection h1
      have h3 : (List.range n)[k]? = some k := List.getElem?_range (by omega)
      rw [hab, List.getElem?_append_left (by omega)] at h3
      exact List.mem_of_getElem? h3
    have := hno k hkm
    simpa [hk1] using this
  · rename_i hnone
    refine .inr ⟨rfl, fun j h1 h2 => ?_⟩
    have := List.find?_eq_none.1 hnone j (List.mem_range.2 h2)
    simpa [h1] using this

/-- `nextKey` is the one key after `i` with none between (R75). -/
theorem nextKey_unique {n : Nat} {E : List Entry} {i r : Nat} (hr : keyAt E r = true) (hir : i < r) (hrn : r < n)
    (hno : ∀ j, i < j → j < r → keyAt E j = false) : nextKey n E i = r := by
  rcases nextKey_cases n E i with ⟨h1, h2, h3, h4⟩ | ⟨h1, h2⟩
  · rcases Nat.lt_trichotomy (nextKey n E i) r with h | h | h
    · rw [hno _ h1 h] at h3; cases h3
    · exact h
    · rw [h4 r hir h] at hr; cases hr
  · rw [h2 r hir hrn] at hr; cases hr

/-- The scan reads only the key flags. -/
theorem nextKey_congr {n : Nat} {E F : List Entry} (h : ∀ j, keyAt E j = keyAt F j) (i : Nat) :
    nextKey n E i = nextKey n F i := by
  unfold nextKey; simp only [h]

/-- The entry the pass leaves at slot `i` of a marked table `E` (R75, R76). -/
def slotEntry (n : Nat) (E : List Entry) (i : Nat) : Entry where
  left := leftAt E (lastKey E i)
  right := leftAt E (nextKey n E (lastKey E i))
  factor := BitVec.ofNat 8 (blendFactor n i (lastKey E i) (nextKey n E (lastKey E i)))
  key := keyAt E i

/-- What holds after the pass has done the slots before `m` (R75). -/
structure PassInv (n : Nat) (E : List Entry) (st : Pass) (m : Nat) : Prop where
  len : st.entries.length = E.length
  done : ∀ j, j < m → st.entries[j]? = some (slotEntry n E j)
  todo : ∀ j, m ≤ j → st.entries[j]? = E[j]?
  lk : 0 < m → st.lk = lastKey E (m - 1)
  rk : 0 < m → st.rk = nextKey n E (lastKey E (m - 1))

theorem PassInv.keyAt_eq {n m : Nat} {E : List Entry} {st : Pass} (h : PassInv n E st m) (j : Nat) :
    keyAt st.entries j = keyAt E j := by
  rcases Nat.lt_or_ge j m with hj | hj
  · rw [Machine.keyAt_eq, h.done j hj]; rfl
  · rw [Machine.keyAt_eq, h.todo j hj, ← Machine.keyAt_eq]

theorem PassInv.leftAt_key {n m : Nat} {E : List Entry} {st : Pass} (h : PassInv n E st m) {j : Nat}
    (hk : keyAt E j = true) : leftAt st.entries j = leftAt E j := by
  rcases Nat.lt_or_ge j m with hj | hj
  · rw [leftAt_eq, h.done j hj]
    have : lastKey E j = j := by
      cases j with
      | zero => rfl
      | succ j => simp [lastKey, hk]
    simp [slotEntry, this]
  · rw [leftAt_eq, h.todo j hj, ← leftAt_eq]

theorem passInv_step {n m : Nat} {E : List Entry} {st : Pass} (hn : E.length = n) (h0 : keyAt E 0 = true)
    (h : PassInv n E st m) (hm : m < n) : PassInv n E (passStep n st m) (m + 1) := by
  have hlk : passLeftKey st m = lastKey E m := by
    unfold passLeftKey; rw [h.keyAt_eq]
    cases m with
    | zero => simp [h0, lastKey]
    | succ m => simp [lastKey, h.lk (by omega)]
  have hrk : passRightKey n st m = nextKey n E (lastKey E m) := by
    unfold passRightKey; rw [h.keyAt_eq, nextKey_congr h.keyAt_eq]
    cases m with
    | zero => simp [h0, lastKey]
    | succ m =>
      by_cases hk : keyAt E (m + 1) = true
      · simp [hk, lastKey]
      · simp [hk, lastKey, h.rk (by omega)]
  have hmE : m < E.length := by omega
  have hEm : st.entries[m]? = some E[m] := by rw [h.todo m (le_refl m), List.getElem?_eq_getElem hmE]
  have hkm : keyAt E m = E[m].key := by simp [Machine.keyAt_eq, hmE]
  have hleft : leftAt st.entries (lastKey E m) = leftAt E (lastKey E m) := h.leftAt_key (keyAt_lastKey h0 m)
  set lk := lastKey E m with hlkdef
  set rk := nextKey n E lk with hrkdef
  set E1 := st.entries.modify m fun e =>
    { e with factor := BitVec.ofNat 8 (blendFactor n m lk rk), left := leftAt st.entries lk } with hE1
  have hE1m : E1[m]? = some { E[m] with factor := BitVec.ofNat 8 (blendFactor n m lk rk), left := leftAt E lk } := by
    rw [hE1, List.getElem?_modify, hEm, hleft]; simp
  have hright : leftAt E1 rk = leftAt E rk := by
    by_cases hrm : rk = m
    · have hself : lk = m := by
        rcases nextKey_cases n E lk with ⟨h1, _, h3, _⟩ | ⟨h1, _⟩
        · rw [← hrkdef, hrm] at h1 h3
          rw [not_key_after_lastKey h1 (le_refl m)] at h3; cases h3
        · rw [← hrkdef, hrm] at h1; exact h1.symm
      rw [hrm, leftAt_eq, hE1m, hself]; rfl
    · have : E1[rk]? = st.entries[rk]? := by
        rw [hE1, List.getElem?_modify]; simp [Ne.symm hrm]
      rw [leftAt_eq, this, ← leftAt_eq]
      refine h.leftAt_key ?_
      rcases nextKey_cases n E lk with ⟨_, _, h3, _⟩ | ⟨h1, _⟩
      · exact h3
      · rw [hrkdef, h1]; exact keyAt_lastKey h0 m
  have hst : passStep n st m =
      { entries := E1.modify m fun e => { e with right := leftAt E1 rk }, lk := lk, rk := rk } := by
    unfold passStep; rw [hlk, hrk]
  rw [hst]
  refine ⟨by simp [hE1, h.len], fun j hj => ?_, fun j hj => ?_, fun _ => rfl, fun _ => rfl⟩
  · simp only [List.getElem?_modify]
    rcases Nat.lt_or_ge j m with hjm | hjm
    · have : m ≠ j := by omega
      simp only [hE1, List.getElem?_modify, if_neg this]
      simp [h.done j hjm]
    · have : j = m := by omega
      subst this
      rw [hE1m, hright]
      simp [slotEntry, ← hlkdef, ← hrkdef, hkm]
  · have : m ≠ j := by omega
    simp only [List.getElem?_modify, hE1, if_neg this]
    simpa using h.todo j (by omega)

theorem passInv_fold {n : Nat} {E : List Entry} (hn : E.length = n) (h0 : keyAt E 0 = true) (m : Nat) (hm : m ≤ n) :
    PassInv n E ((List.range m).foldl (passStep n) { entries := E, lk := 0, rk := 0 }) m := by
  induction m with
  | zero => exact ⟨rfl, fun _ h => absurd h (Nat.not_lt_zero _), fun _ _ => rfl, fun h => absurd h (by omega),
      fun h => absurd h (by omega)⟩
  | succ m ih =>
    rw [List.range_succ, List.foldl_append, List.foldl_cons, List.foldl_nil]
    exact passInv_step hn h0 (ih (by omega)) (by omega)

theorem length_interpolate {n : Nat} {E : List Entry} (hn : E.length = n) (h0 : keyAt E 0 = true) :
    (interpolate n E).length = n := by
  have := (passInv_fold hn h0 n (le_refl n)).len
  unfold interpolate; omega

/-- THE PASS IN CLOSED FORM (R75, R76). -/
theorem interpolate_getElem? {n : Nat} {E : List Entry} (hn : E.length = n) (h0 : keyAt E 0 = true) {i : Nat}
    (hi : i < n) : (interpolate n E)[i]? = some (slotEntry n E i) :=
  (passInv_fold hn h0 n (le_refl n)).done i hi

theorem keyAt_interpolate {n : Nat} {E : List Entry} (hn : E.length = n) (h0 : keyAt E 0 = true) (i : Nat) :
    keyAt (interpolate n E) i = keyAt E i :=
  (passInv_fold hn h0 n (le_refl n)).keyAt_eq i

/-- A key frame keeps its own waveform (R75). -/
theorem leftAt_interpolate {n : Nat} {E : List Entry} (hn : E.length = n) (h0 : keyAt E 0 = true) {i : Nat}
    (hk : keyAt E i = true) : leftAt (interpolate n E) i = leftAt E i :=
  (passInv_fold hn h0 n (le_refl n)).leftAt_key hk

/-- The factor fits 8 bits (R76). -/
theorem blendFactor_le (n i lk rk : Nat) (h : i < rk ∨ i = n - 1) : blendFactor n i lk rk ≤ 255 := by
  unfold blendFactor
  simp only
  split_ifs with h1 h2 h3
  · simp
  · simp at h2
  · simp
  · have hi : i < rk := by rcases h with h | h <;> omega
    have h5 : 65535 / (rk - lk) * (i - lk) ≤ 65535 / (rk - lk) * (rk - lk) := Nat.mul_le_mul_left _ (by omega)
    have h6 := Nat.div_mul_le_self 65535 (rk - lk)
    omega

/-- The factor at a key frame is 0 (R76). -/
theorem blendFactor_self (n i rk : Nat) : blendFactor n i i rk = 0 := by
  unfold blendFactor; simp

/-- The factor between two key frames (R76). -/
theorem blendFactor_between {n i lk rk : Nat} (h1 : lk ≤ i) (h2 : i < rk) (h3 : rk < n) :
    blendFactor n i lk rk = 65535 / (rk - lk) * (i - lk) / 256 := by
  unfold blendFactor
  simp only
  rw [if_neg (show ¬ i = n - 1 by omega), if_neg (by omega)]

/-- The factor at the final slot is 0 (R76). -/
theorem blendFactor_last (n lk rk : Nat) : blendFactor n (n - 1) lk rk = 0 := by
  unfold blendFactor; simp

end Sys2Proof.Machine
end

