-- ==== Sys2Proof/Laws/State.lean ====
section
/-! SUPPORT. For each register update of Machine/Ops.lean and Machine/Flags.lean, each field after it. -/

namespace Sys2Proof.Machine

section writeStepFields
variable (v : BitVec 16) (s : State)
@[simp] theorem writeStep_cfg : (writeStep v s).cfg = s.cfg := rfl
@[simp] theorem writeStep_port : (writeStep v s).port = s.port := rfl
@[simp] theorem writeStep_phase : (writeStep v s).phase = s.phase := rfl
@[simp] theorem writeStep_stepReg : (writeStep v s).stepReg = v := rfl
@[simp] theorem writeStep_integ0 : (writeStep v s).integ0 = s.integ0 := rfl
@[simp] theorem writeStep_integ1 : (writeStep v s).integ1 = s.integ1 := rfl
@[simp] theorem writeStep_out : (writeStep v s).out = s.out := rfl
@[simp] theorem writeStep_tbl : (writeStep v s).tbl = s.tbl := rfl
@[simp] theorem writeStep_tblValid : (writeStep v s).tblValid = s.tblValid := rfl
@[simp] theorem writeStep_tblOffset : (writeStep v s).tblOffset = s.tblOffset := rfl
@[simp] theorem writeStep_rs : (writeStep v s).rs = s.rs := rfl
@[simp] theorem writeStep_dcount : (writeStep v s).dcount = s.dcount := rfl
@[simp] theorem writeStep_dlimit : (writeStep v s).dlimit = s.dlimit := rfl
@[simp] theorem writeStep_dbuf0 : (writeStep v s).dbuf0 = s.dbuf0 := rfl
@[simp] theorem writeStep_dbuf1 : (writeStep v s).dbuf1 = s.dbuf1 := rfl
@[simp] theorem writeStep_note : (writeStep v s).note = s.note := rfl
@[simp] theorem writeStep_vel : (writeStep v s).vel = s.vel := rfl
@[simp] theorem writeStep_gate : (writeStep v s).gate = s.gate := rfl
@[simp] theorem writeStep_prog : (writeStep v s).prog = s.prog := rfl
@[simp] theorem writeStep_bend : (writeStep v s).bend = s.bend := rfl
@[simp] theorem writeStep_ctrl : (writeStep v s).ctrl = s.ctrl := rfl
@[simp] theorem writeStep_resetFlag : (writeStep v s).resetFlag = s.resetFlag := rfl
@[simp] theorem writeStep_fault : (writeStep v s).fault = s.fault := rfl
end writeStepFields

section writeAudioFields
variable (ph i0 i1 : BitVec 16) (o : Byte) (s : State)
@[simp] theorem writeAudio_cfg : (writeAudio ph i0 i1 o s).cfg = s.cfg := rfl
@[simp] theorem writeAudio_port : (writeAudio ph i0 i1 o s).port = s.port := rfl
@[simp] theorem writeAudio_phase : (writeAudio ph i0 i1 o s).phase = ph := rfl
@[simp] theorem writeAudio_stepReg : (writeAudio ph i0 i1 o s).stepReg = s.stepReg := rfl
@[simp] theorem writeAudio_integ0 : (writeAudio ph i0 i1 o s).integ0 = i0 := rfl
@[simp] theorem writeAudio_integ1 : (writeAudio ph i0 i1 o s).integ1 = i1 := rfl
@[simp] theorem writeAudio_out : (writeAudio ph i0 i1 o s).out = some o := rfl
@[simp] theorem writeAudio_tbl : (writeAudio ph i0 i1 o s).tbl = s.tbl := rfl
@[simp] theorem writeAudio_tblValid : (writeAudio ph i0 i1 o s).tblValid = s.tblValid := rfl
@[simp] theorem writeAudio_tblOffset : (writeAudio ph i0 i1 o s).tblOffset = s.tblOffset := rfl
@[simp] theorem writeAudio_rs : (writeAudio ph i0 i1 o s).rs = s.rs := rfl
@[simp] theorem writeAudio_dcount : (writeAudio ph i0 i1 o s).dcount = s.dcount := rfl
@[simp] theorem writeAudio_dlimit : (writeAudio ph i0 i1 o s).dlimit = s.dlimit := rfl
@[simp] theorem writeAudio_dbuf0 : (writeAudio ph i0 i1 o s).dbuf0 = s.dbuf0 := rfl
@[simp] theorem writeAudio_dbuf1 : (writeAudio ph i0 i1 o s).dbuf1 = s.dbuf1 := rfl
@[simp] theorem writeAudio_note : (writeAudio ph i0 i1 o s).note = s.note := rfl
@[simp] theorem writeAudio_vel : (writeAudio ph i0 i1 o s).vel = s.vel := rfl
@[simp] theorem writeAudio_gate : (writeAudio ph i0 i1 o s).gate = s.gate := rfl
@[simp] theorem writeAudio_prog : (writeAudio ph i0 i1 o s).prog = s.prog := rfl
@[simp] theorem writeAudio_bend : (writeAudio ph i0 i1 o s).bend = s.bend := rfl
@[simp] theorem writeAudio_ctrl : (writeAudio ph i0 i1 o s).ctrl = s.ctrl := rfl
@[simp] theorem writeAudio_resetFlag : (writeAudio ph i0 i1 o s).resetFlag = s.resetFlag := rfl
@[simp] theorem writeAudio_fault : (writeAudio ph i0 i1 o s).fault = s.fault := rfl
end writeAudioFields

section installTableFields
variable (E : List Entry) (off : BitVec 16) (s : State)
@[simp] theorem installTable_cfg : (installTable E off s).cfg = s.cfg := rfl
@[simp] theorem installTable_port : (installTable E off s).port = s.port := rfl
@[simp] theorem installTable_phase : (installTable E off s).phase = s.phase := rfl
@[simp] theorem installTable_stepReg : (installTable E off s).stepReg = s.stepReg := rfl
@[simp] theorem installTable_integ0 : (installTable E off s).integ0 = s.integ0 := rfl
@[simp] theorem installTable_integ1 : (installTable E off s).integ1 = s.integ1 := rfl
@[simp] theorem installTable_out : (installTable E off s).out = s.out := rfl
@[simp] theorem installTable_tbl : (installTable E off s).tbl = E := rfl
@[simp] theorem installTable_tblValid : (installTable E off s).tblValid = true := rfl
@[simp] theorem installTable_tblOffset : (installTable E off s).tblOffset = off := rfl
@[simp] theorem installTable_rs : (installTable E off s).rs = s.rs := rfl
@[simp] theorem installTable_dcount : (installTable E off s).dcount = s.dcount := rfl
@[simp] theorem installTable_dlimit : (installTable E off s).dlimit = s.dlimit := rfl
@[simp] theorem installTable_dbuf0 : (installTable E off s).dbuf0 = s.dbuf0 := rfl
@[simp] theorem installTable_dbuf1 : (installTable E off s).dbuf1 = s.dbuf1 := rfl
@[simp] theorem installTable_note : (installTable E off s).note = s.note := rfl
@[simp] theorem installTable_vel : (installTable E off s).vel = s.vel := rfl
@[simp] theorem installTable_gate : (installTable E off s).gate = s.gate := rfl
@[simp] theorem installTable_prog : (installTable E off s).prog = s.prog := rfl
@[simp] theorem installTable_bend : (installTable E off s).bend = s.bend := rfl
@[simp] theorem installTable_ctrl : (installTable E off s).ctrl = s.ctrl := rfl
@[simp] theorem installTable_resetFlag : (installTable E off s).resetFlag = s.resetFlag := rfl
@[simp] theorem installTable_fault : (installTable E off s).fault = s.fault := rfl
end installTableFields

section writeParserFields
variable (b : Byte) (c l : BitVec 2) (s : State)
@[simp] theorem writeParser_cfg : (writeParser b c l s).cfg = s.cfg := rfl
@[simp] theorem writeParser_port : (writeParser b c l s).port = s.port := rfl
@[simp] theorem writeParser_phase : (writeParser b c l s).phase = s.phase := rfl
@[simp] theorem writeParser_stepReg : (writeParser b c l s).stepReg = s.stepReg := rfl
@[simp] theorem writeParser_integ0 : (writeParser b c l s).integ0 = s.integ0 := rfl
@[simp] theorem writeParser_integ1 : (writeParser b c l s).integ1 = s.integ1 := rfl
@[simp] theorem writeParser_out : (writeParser b c l s).out = s.out := rfl
@[simp] theorem writeParser_tbl : (writeParser b c l s).tbl = s.tbl := rfl
@[simp] theorem writeParser_tblValid : (writeParser b c l s).tblValid = s.tblValid := rfl
@[simp] theorem writeParser_tblOffset : (writeParser b c l s).tblOffset = s.tblOffset := rfl
@[simp] theorem writeParser_rs : (writeParser b c l s).rs = b := rfl
@[simp] theorem writeParser_dcount : (writeParser b c l s).dcount = c := rfl
@[simp] theorem writeParser_dlimit : (writeParser b c l s).dlimit = l := rfl
@[simp] theorem writeParser_dbuf0 : (writeParser b c l s).dbuf0 = s.dbuf0 := rfl
@[simp] theorem writeParser_dbuf1 : (writeParser b c l s).dbuf1 = s.dbuf1 := rfl
@[simp] theorem writeParser_note : (writeParser b c l s).note = s.note := rfl
@[simp] theorem writeParser_vel : (writeParser b c l s).vel = s.vel := rfl
@[simp] theorem writeParser_gate : (writeParser b c l s).gate = s.gate := rfl
@[simp] theorem writeParser_prog : (writeParser b c l s).prog = s.prog := rfl
@[simp] theorem writeParser_bend : (writeParser b c l s).bend = s.bend := rfl
@[simp] theorem writeParser_ctrl : (writeParser b c l s).ctrl = s.ctrl := rfl
@[simp] theorem writeParser_resetFlag : (writeParser b c l s).resetFlag = s.resetFlag := rfl
@[simp] theorem writeParser_fault : (writeParser b c l s).fault = s.fault := rfl
end writeParserFields

section writeDcountFields
variable (v : BitVec 2) (s : State)
@[simp] theorem writeDcount_cfg : (writeDcount v s).cfg = s.cfg := rfl
@[simp] theorem writeDcount_port : (writeDcount v s).port = s.port := rfl
@[simp] theorem writeDcount_phase : (writeDcount v s).phase = s.phase := rfl
@[simp] theorem writeDcount_stepReg : (writeDcount v s).stepReg = s.stepReg := rfl
@[simp] theorem writeDcount_integ0 : (writeDcount v s).integ0 = s.integ0 := rfl
@[simp] theorem writeDcount_integ1 : (writeDcount v s).integ1 = s.integ1 := rfl
@[simp] theorem writeDcount_out : (writeDcount v s).out = s.out := rfl
@[simp] theorem writeDcount_tbl : (writeDcount v s).tbl = s.tbl := rfl
@[simp] theorem writeDcount_tblValid : (writeDcount v s).tblValid = s.tblValid := rfl
@[simp] theorem writeDcount_tblOffset : (writeDcount v s).tblOffset = s.tblOffset := rfl
@[simp] theorem writeDcount_rs : (writeDcount v s).rs = s.rs := rfl
@[simp] theorem writeDcount_dcount : (writeDcount v s).dcount = v := rfl
@[simp] theorem writeDcount_dlimit : (writeDcount v s).dlimit = s.dlimit := rfl
@[simp] theorem writeDcount_dbuf0 : (writeDcount v s).dbuf0 = s.dbuf0 := rfl
@[simp] theorem writeDcount_dbuf1 : (writeDcount v s).dbuf1 = s.dbuf1 := rfl
@[simp] theorem writeDcount_note : (writeDcount v s).note = s.note := rfl
@[simp] theorem writeDcount_vel : (writeDcount v s).vel = s.vel := rfl
@[simp] theorem writeDcount_gate : (writeDcount v s).gate = s.gate := rfl
@[simp] theorem writeDcount_prog : (writeDcount v s).prog = s.prog := rfl
@[simp] theorem writeDcount_bend : (writeDcount v s).bend = s.bend := rfl
@[simp] theorem writeDcount_ctrl : (writeDcount v s).ctrl = s.ctrl := rfl
@[simp] theorem writeDcount_resetFlag : (writeDcount v s).resetFlag = s.resetFlag := rfl
@[simp] theorem writeDcount_fault : (writeDcount v s).fault = s.fault := rfl
end writeDcountFields

section bufferPayloadFields
variable (d : Payload) (s : State)
@[simp] theorem bufferPayload_cfg : (bufferPayload d s).cfg = s.cfg := rfl
@[simp] theorem bufferPayload_port : (bufferPayload d s).port = s.port := rfl
@[simp] theorem bufferPayload_phase : (bufferPayload d s).phase = s.phase := rfl
@[simp] theorem bufferPayload_stepReg : (bufferPayload d s).stepReg = s.stepReg := rfl
@[simp] theorem bufferPayload_integ0 : (bufferPayload d s).integ0 = s.integ0 := rfl
@[simp] theorem bufferPayload_integ1 : (bufferPayload d s).integ1 = s.integ1 := rfl
@[simp] theorem bufferPayload_out : (bufferPayload d s).out = s.out := rfl
@[simp] theorem bufferPayload_tbl : (bufferPayload d s).tbl = s.tbl := rfl
@[simp] theorem bufferPayload_tblValid : (bufferPayload d s).tblValid = s.tblValid := rfl
@[simp] theorem bufferPayload_tblOffset : (bufferPayload d s).tblOffset = s.tblOffset := rfl
@[simp] theorem bufferPayload_rs : (bufferPayload d s).rs = s.rs := rfl
@[simp] theorem bufferPayload_dcount : (bufferPayload d s).dcount = s.dcount := rfl
@[simp] theorem bufferPayload_dlimit : (bufferPayload d s).dlimit = s.dlimit := rfl
@[simp] theorem bufferPayload_dbuf0 : (bufferPayload d s).dbuf0 = if s.dcount = 0#2 then d else s.dbuf0 := rfl
@[simp] theorem bufferPayload_dbuf1 : (bufferPayload d s).dbuf1 = if s.dcount = 1#2 then d else s.dbuf1 := rfl
@[simp] theorem bufferPayload_note : (bufferPayload d s).note = s.note := rfl
@[simp] theorem bufferPayload_vel : (bufferPayload d s).vel = s.vel := rfl
@[simp] theorem bufferPayload_gate : (bufferPayload d s).gate = s.gate := rfl
@[simp] theorem bufferPayload_prog : (bufferPayload d s).prog = s.prog := rfl
@[simp] theorem bufferPayload_bend : (bufferPayload d s).bend = s.bend := rfl
@[simp] theorem bufferPayload_ctrl : (bufferPayload d s).ctrl = s.ctrl := rfl
@[simp] theorem bufferPayload_resetFlag : (bufferPayload d s).resetFlag = s.resetFlag := rfl
@[simp] theorem bufferPayload_fault : (bufferPayload d s).fault = s.fault := rfl
end bufferPayloadFields

section writeNoteFields
variable (n v : Payload) (s : State)
@[simp] theorem writeNote_cfg : (writeNote n v s).cfg = s.cfg := rfl
@[simp] theorem writeNote_port : (writeNote n v s).port = s.port := rfl
@[simp] theorem writeNote_phase : (writeNote n v s).phase = s.phase := rfl
@[simp] theorem writeNote_stepReg : (writeNote n v s).stepReg = s.stepReg := rfl
@[simp] theorem writeNote_integ0 : (writeNote n v s).integ0 = s.integ0 := rfl
@[simp] theorem writeNote_integ1 : (writeNote n v s).integ1 = s.integ1 := rfl
@[simp] theorem writeNote_out : (writeNote n v s).out = s.out := rfl
@[simp] theorem writeNote_tbl : (writeNote n v s).tbl = s.tbl := rfl
@[simp] theorem writeNote_tblValid : (writeNote n v s).tblValid = s.tblValid := rfl
@[simp] theorem writeNote_tblOffset : (writeNote n v s).tblOffset = s.tblOffset := rfl
@[simp] theorem writeNote_rs : (writeNote n v s).rs = s.rs := rfl
@[simp] theorem writeNote_dcount : (writeNote n v s).dcount = s.dcount := rfl
@[simp] theorem writeNote_dlimit : (writeNote n v s).dlimit = s.dlimit := rfl
@[simp] theorem writeNote_dbuf0 : (writeNote n v s).dbuf0 = s.dbuf0 := rfl
@[simp] theorem writeNote_dbuf1 : (writeNote n v s).dbuf1 = s.dbuf1 := rfl
@[simp] theorem writeNote_note : (writeNote n v s).note = n := rfl
@[simp] theorem writeNote_vel : (writeNote n v s).vel = v := rfl
@[simp] theorem writeNote_gate : (writeNote n v s).gate = s.gate := rfl
@[simp] theorem writeNote_prog : (writeNote n v s).prog = s.prog := rfl
@[simp] theorem writeNote_bend : (writeNote n v s).bend = s.bend := rfl
@[simp] theorem writeNote_ctrl : (writeNote n v s).ctrl = s.ctrl := rfl
@[simp] theorem writeNote_resetFlag : (writeNote n v s).resetFlag = s.resetFlag := rfl
@[simp] theorem writeNote_fault : (writeNote n v s).fault = s.fault := rfl
end writeNoteFields

section writeCtrlFields
variable (i v : Payload) (s : State)
@[simp] theorem writeCtrl_cfg : (writeCtrl i v s).cfg = s.cfg := rfl
@[simp] theorem writeCtrl_port : (writeCtrl i v s).port = s.port := rfl
@[simp] theorem writeCtrl_phase : (writeCtrl i v s).phase = s.phase := rfl
@[simp] theorem writeCtrl_stepReg : (writeCtrl i v s).stepReg = s.stepReg := rfl
@[simp] theorem writeCtrl_integ0 : (writeCtrl i v s).integ0 = s.integ0 := rfl
@[simp] theorem writeCtrl_integ1 : (writeCtrl i v s).integ1 = s.integ1 := rfl
@[simp] theorem writeCtrl_out : (writeCtrl i v s).out = s.out := rfl
@[simp] theorem writeCtrl_tbl : (writeCtrl i v s).tbl = s.tbl := rfl
@[simp] theorem writeCtrl_tblValid : (writeCtrl i v s).tblValid = s.tblValid := rfl
@[simp] theorem writeCtrl_tblOffset : (writeCtrl i v s).tblOffset = s.tblOffset := rfl
@[simp] theorem writeCtrl_rs : (writeCtrl i v s).rs = s.rs := rfl
@[simp] theorem writeCtrl_dcount : (writeCtrl i v s).dcount = s.dcount := rfl
@[simp] theorem writeCtrl_dlimit : (writeCtrl i v s).dlimit = s.dlimit := rfl
@[simp] theorem writeCtrl_dbuf0 : (writeCtrl i v s).dbuf0 = s.dbuf0 := rfl
@[simp] theorem writeCtrl_dbuf1 : (writeCtrl i v s).dbuf1 = s.dbuf1 := rfl
@[simp] theorem writeCtrl_note : (writeCtrl i v s).note = s.note := rfl
@[simp] theorem writeCtrl_vel : (writeCtrl i v s).vel = s.vel := rfl
@[simp] theorem writeCtrl_gate : (writeCtrl i v s).gate = s.gate := rfl
@[simp] theorem writeCtrl_prog : (writeCtrl i v s).prog = s.prog := rfl
@[simp] theorem writeCtrl_bend : (writeCtrl i v s).bend = s.bend := rfl
@[simp] theorem writeCtrl_ctrl : (writeCtrl i v s).ctrl = s.ctrl.set i.toNat v i.isLt := rfl
@[simp] theorem writeCtrl_resetFlag : (writeCtrl i v s).resetFlag = s.resetFlag := rfl
@[simp] theorem writeCtrl_fault : (writeCtrl i v s).fault = s.fault := rfl
end writeCtrlFields

section writeProgFields
variable (v : Payload) (s : State)
@[simp] theorem writeProg_cfg : (writeProg v s).cfg = s.cfg := rfl
@[simp] theorem writeProg_port : (writeProg v s).port = s.port := rfl
@[simp] theorem writeProg_phase : (writeProg v s).phase = s.phase := rfl
@[simp] theorem writeProg_stepReg : (writeProg v s).stepReg = s.stepReg := rfl
@[simp] theorem writeProg_integ0 : (writeProg v s).integ0 = s.integ0 := rfl
@[simp] theorem writeProg_integ1 : (writeProg v s).integ1 = s.integ1 := rfl
@[simp] theorem writeProg_out : (writeProg v s).out = s.out := rfl
@[simp] theorem writeProg_tbl : (writeProg v s).tbl = s.tbl := rfl
@[simp] theorem writeProg_tblValid : (writeProg v s).tblValid = s.tblValid := rfl
@[simp] theorem writeProg_tblOffset : (writeProg v s).tblOffset = s.tblOffset := rfl
@[simp] theorem writeProg_rs : (writeProg v s).rs = s.rs := rfl
@[simp] theorem writeProg_dcount : (writeProg v s).dcount = s.dcount := rfl
@[simp] theorem writeProg_dlimit : (writeProg v s).dlimit = s.dlimit := rfl
@[simp] theorem writeProg_dbuf0 : (writeProg v s).dbuf0 = s.dbuf0 := rfl
@[simp] theorem writeProg_dbuf1 : (writeProg v s).dbuf1 = s.dbuf1 := rfl
@[simp] theorem writeProg_note : (writeProg v s).note = s.note := rfl
@[simp] theorem writeProg_vel : (writeProg v s).vel = s.vel := rfl
@[simp] theorem writeProg_gate : (writeProg v s).gate = s.gate := rfl
@[simp] theorem writeProg_prog : (writeProg v s).prog = v := rfl
@[simp] theorem writeProg_bend : (writeProg v s).bend = s.bend := rfl
@[simp] theorem writeProg_ctrl : (writeProg v s).ctrl = s.ctrl := rfl
@[simp] theorem writeProg_resetFlag : (writeProg v s).resetFlag = s.resetFlag := rfl
@[simp] theorem writeProg_fault : (writeProg v s).fault = s.fault := rfl
end writeProgFields

section writeBendFields
variable (v : BitVec 14) (s : State)
@[simp] theorem writeBend_cfg : (writeBend v s).cfg = s.cfg := rfl
@[simp] theorem writeBend_port : (writeBend v s).port = s.port := rfl
@[simp] theorem writeBend_phase : (writeBend v s).phase = s.phase := rfl
@[simp] theorem writeBend_stepReg : (writeBend v s).stepReg = s.stepReg := rfl
@[simp] theorem writeBend_integ0 : (writeBend v s).integ0 = s.integ0 := rfl
@[simp] theorem writeBend_integ1 : (writeBend v s).integ1 = s.integ1 := rfl
@[simp] theorem writeBend_out : (writeBend v s).out = s.out := rfl
@[simp] theorem writeBend_tbl : (writeBend v s).tbl = s.tbl := rfl
@[simp] theorem writeBend_tblValid : (writeBend v s).tblValid = s.tblValid := rfl
@[simp] theorem writeBend_tblOffset : (writeBend v s).tblOffset = s.tblOffset := rfl
@[simp] theorem writeBend_rs : (writeBend v s).rs = s.rs := rfl
@[simp] theorem writeBend_dcount : (writeBend v s).dcount = s.dcount := rfl
@[simp] theorem writeBend_dlimit : (writeBend v s).dlimit = s.dlimit := rfl
@[simp] theorem writeBend_dbuf0 : (writeBend v s).dbuf0 = s.dbuf0 := rfl
@[simp] theorem writeBend_dbuf1 : (writeBend v s).dbuf1 = s.dbuf1 := rfl
@[simp] theorem writeBend_note : (writeBend v s).note = s.note := rfl
@[simp] theorem writeBend_vel : (writeBend v s).vel = s.vel := rfl
@[simp] theorem writeBend_gate : (writeBend v s).gate = s.gate := rfl
@[simp] theorem writeBend_prog : (writeBend v s).prog = s.prog := rfl
@[simp] theorem writeBend_bend : (writeBend v s).bend = v := rfl
@[simp] theorem writeBend_ctrl : (writeBend v s).ctrl = s.ctrl := rfl
@[simp] theorem writeBend_resetFlag : (writeBend v s).resetFlag = s.resetFlag := rfl
@[simp] theorem writeBend_fault : (writeBend v s).fault = s.fault := rfl
end writeBendFields

section setPortFields
variable (p : Port) (s : State)
@[simp] theorem setPort_cfg : (setPort p s).cfg = s.cfg := rfl
@[simp] theorem setPort_port : (setPort p s).port = p := rfl
@[simp] theorem setPort_phase : (setPort p s).phase = s.phase := rfl
@[simp] theorem setPort_stepReg : (setPort p s).stepReg = s.stepReg := rfl
@[simp] theorem setPort_integ0 : (setPort p s).integ0 = s.integ0 := rfl
@[simp] theorem setPort_integ1 : (setPort p s).integ1 = s.integ1 := rfl
@[simp] theorem setPort_out : (setPort p s).out = s.out := rfl
@[simp] theorem setPort_tbl : (setPort p s).tbl = s.tbl := rfl
@[simp] theorem setPort_tblValid : (setPort p s).tblValid = s.tblValid := rfl
@[simp] theorem setPort_tblOffset : (setPort p s).tblOffset = s.tblOffset := rfl
@[simp] theorem setPort_rs : (setPort p s).rs = s.rs := rfl
@[simp] theorem setPort_dcount : (setPort p s).dcount = s.dcount := rfl
@[simp] theorem setPort_dlimit : (setPort p s).dlimit = s.dlimit := rfl
@[simp] theorem setPort_dbuf0 : (setPort p s).dbuf0 = s.dbuf0 := rfl
@[simp] theorem setPort_dbuf1 : (setPort p s).dbuf1 = s.dbuf1 := rfl
@[simp] theorem setPort_note : (setPort p s).note = s.note := rfl
@[simp] theorem setPort_vel : (setPort p s).vel = s.vel := rfl
@[simp] theorem setPort_gate : (setPort p s).gate = s.gate := rfl
@[simp] theorem setPort_prog : (setPort p s).prog = s.prog := rfl
@[simp] theorem setPort_bend : (setPort p s).bend = s.bend := rfl
@[simp] theorem setPort_ctrl : (setPort p s).ctrl = s.ctrl := rfl
@[simp] theorem setPort_resetFlag : (setPort p s).resetFlag = s.resetFlag := rfl
@[simp] theorem setPort_fault : (setPort p s).fault = s.fault := rfl
end setPortFields

section recordFaultFields
variable (r : FaultRecord) (s : State)
@[simp] theorem recordFault_cfg : (recordFault r s).cfg = s.cfg := rfl
@[simp] theorem recordFault_port : (recordFault r s).port = s.port := rfl
@[simp] theorem recordFault_phase : (recordFault r s).phase = s.phase := rfl
@[simp] theorem recordFault_stepReg : (recordFault r s).stepReg = s.stepReg := rfl
@[simp] theorem recordFault_integ0 : (recordFault r s).integ0 = s.integ0 := rfl
@[simp] theorem recordFault_integ1 : (recordFault r s).integ1 = s.integ1 := rfl
@[simp] theorem recordFault_out : (recordFault r s).out = s.out := rfl
@[simp] theorem recordFault_tbl : (recordFault r s).tbl = s.tbl := rfl
@[simp] theorem recordFault_tblValid : (recordFault r s).tblValid = s.tblValid := rfl
@[simp] theorem recordFault_tblOffset : (recordFault r s).tblOffset = s.tblOffset := rfl
@[simp] theorem recordFault_rs : (recordFault r s).rs = s.rs := rfl
@[simp] theorem recordFault_dcount : (recordFault r s).dcount = s.dcount := rfl
@[simp] theorem recordFault_dlimit : (recordFault r s).dlimit = s.dlimit := rfl
@[simp] theorem recordFault_dbuf0 : (recordFault r s).dbuf0 = s.dbuf0 := rfl
@[simp] theorem recordFault_dbuf1 : (recordFault r s).dbuf1 = s.dbuf1 := rfl
@[simp] theorem recordFault_note : (recordFault r s).note = s.note := rfl
@[simp] theorem recordFault_vel : (recordFault r s).vel = s.vel := rfl
@[simp] theorem recordFault_gate : (recordFault r s).gate = s.gate := rfl
@[simp] theorem recordFault_prog : (recordFault r s).prog = s.prog := rfl
@[simp] theorem recordFault_bend : (recordFault r s).bend = s.bend := rfl
@[simp] theorem recordFault_ctrl : (recordFault r s).ctrl = s.ctrl := rfl
@[simp] theorem recordFault_resetFlag : (recordFault r s).resetFlag = s.resetFlag := rfl
@[simp] theorem recordFault_fault : (recordFault r s).fault = firstFault s.fault r := rfl
end recordFaultFields

section raiseFaultFields
variable (c : FaultCause) (w : Word) (s : State)
@[simp] theorem raiseFault_cfg : (raiseFault c w s).cfg = s.cfg := rfl
@[simp] theorem raiseFault_port : (raiseFault c w s).port = s.port := rfl
@[simp] theorem raiseFault_phase : (raiseFault c w s).phase = s.phase := rfl
@[simp] theorem raiseFault_stepReg : (raiseFault c w s).stepReg = s.stepReg := rfl
@[simp] theorem raiseFault_integ0 : (raiseFault c w s).integ0 = s.integ0 := rfl
@[simp] theorem raiseFault_integ1 : (raiseFault c w s).integ1 = s.integ1 := rfl
@[simp] theorem raiseFault_out : (raiseFault c w s).out = s.out := rfl
@[simp] theorem raiseFault_tbl : (raiseFault c w s).tbl = s.tbl := rfl
@[simp] theorem raiseFault_tblValid : (raiseFault c w s).tblValid = s.tblValid := rfl
@[simp] theorem raiseFault_tblOffset : (raiseFault c w s).tblOffset = s.tblOffset := rfl
@[simp] theorem raiseFault_rs : (raiseFault c w s).rs = s.rs := rfl
@[simp] theorem raiseFault_dcount : (raiseFault c w s).dcount = s.dcount := rfl
@[simp] theorem raiseFault_dlimit : (raiseFault c w s).dlimit = s.dlimit := rfl
@[simp] theorem raiseFault_dbuf0 : (raiseFault c w s).dbuf0 = s.dbuf0 := rfl
@[simp] theorem raiseFault_dbuf1 : (raiseFault c w s).dbuf1 = s.dbuf1 := rfl
@[simp] theorem raiseFault_note : (raiseFault c w s).note = s.note := rfl
@[simp] theorem raiseFault_vel : (raiseFault c w s).vel = s.vel := rfl
@[simp] theorem raiseFault_gate : (raiseFault c w s).gate = s.gate := rfl
@[simp] theorem raiseFault_prog : (raiseFault c w s).prog = s.prog := rfl
@[simp] theorem raiseFault_bend : (raiseFault c w s).bend = s.bend := rfl
@[simp] theorem raiseFault_ctrl : (raiseFault c w s).ctrl = s.ctrl := rfl
@[simp] theorem raiseFault_resetFlag : (raiseFault c w s).resetFlag = s.resetFlag := rfl
@[simp] theorem raiseFault_fault : (raiseFault c w s).fault = firstFault s.fault { cause := c, word := some w } := rfl
end raiseFaultFields

section setGateFields
variable  (s : State)
@[simp] theorem setGate_cfg : (setGate s).cfg = s.cfg := rfl
@[simp] theorem setGate_port : (setGate s).port = s.port := rfl
@[simp] theorem setGate_phase : (setGate s).phase = s.phase := rfl
@[simp] theorem setGate_stepReg : (setGate s).stepReg = s.stepReg := rfl
@[simp] theorem setGate_integ0 : (setGate s).integ0 = s.integ0 := rfl
@[simp] theorem setGate_integ1 : (setGate s).integ1 = s.integ1 := rfl
@[simp] theorem setGate_out : (setGate s).out = s.out := rfl
@[simp] theorem setGate_tbl : (setGate s).tbl = s.tbl := rfl
@[simp] theorem setGate_tblValid : (setGate s).tblValid = s.tblValid := rfl
@[simp] theorem setGate_tblOffset : (setGate s).tblOffset = s.tblOffset := rfl
@[simp] theorem setGate_rs : (setGate s).rs = s.rs := rfl
@[simp] theorem setGate_dcount : (setGate s).dcount = s.dcount := rfl
@[simp] theorem setGate_dlimit : (setGate s).dlimit = s.dlimit := rfl
@[simp] theorem setGate_dbuf0 : (setGate s).dbuf0 = s.dbuf0 := rfl
@[simp] theorem setGate_dbuf1 : (setGate s).dbuf1 = s.dbuf1 := rfl
@[simp] theorem setGate_note : (setGate s).note = s.note := rfl
@[simp] theorem setGate_vel : (setGate s).vel = s.vel := rfl
@[simp] theorem setGate_gate : (setGate s).gate = true := rfl
@[simp] theorem setGate_prog : (setGate s).prog = s.prog := rfl
@[simp] theorem setGate_bend : (setGate s).bend = s.bend := rfl
@[simp] theorem setGate_ctrl : (setGate s).ctrl = s.ctrl := rfl
@[simp] theorem setGate_resetFlag : (setGate s).resetFlag = s.resetFlag := rfl
@[simp] theorem setGate_fault : (setGate s).fault = s.fault := rfl
end setGateFields

section clearGateFields
variable  (s : State)
@[simp] theorem clearGate_cfg : (clearGate s).cfg = s.cfg := rfl
@[simp] theorem clearGate_port : (clearGate s).port = s.port := rfl
@[simp] theorem clearGate_phase : (clearGate s).phase = s.phase := rfl
@[simp] theorem clearGate_stepReg : (clearGate s).stepReg = s.stepReg := rfl
@[simp] theorem clearGate_integ0 : (clearGate s).integ0 = s.integ0 := rfl
@[simp] theorem clearGate_integ1 : (clearGate s).integ1 = s.integ1 := rfl
@[simp] theorem clearGate_out : (clearGate s).out = s.out := rfl
@[simp] theorem clearGate_tbl : (clearGate s).tbl = s.tbl := rfl
@[simp] theorem clearGate_tblValid : (clearGate s).tblValid = s.tblValid := rfl
@[simp] theorem clearGate_tblOffset : (clearGate s).tblOffset = s.tblOffset := rfl
@[simp] theorem clearGate_rs : (clearGate s).rs = s.rs := rfl
@[simp] theorem clearGate_dcount : (clearGate s).dcount = s.dcount := rfl
@[simp] theorem clearGate_dlimit : (clearGate s).dlimit = s.dlimit := rfl
@[simp] theorem clearGate_dbuf0 : (clearGate s).dbuf0 = s.dbuf0 := rfl
@[simp] theorem clearGate_dbuf1 : (clearGate s).dbuf1 = s.dbuf1 := rfl
@[simp] theorem clearGate_note : (clearGate s).note = s.note := rfl
@[simp] theorem clearGate_vel : (clearGate s).vel = s.vel := rfl
@[simp] theorem clearGate_gate : (clearGate s).gate = false := rfl
@[simp] theorem clearGate_prog : (clearGate s).prog = s.prog := rfl
@[simp] theorem clearGate_bend : (clearGate s).bend = s.bend := rfl
@[simp] theorem clearGate_ctrl : (clearGate s).ctrl = s.ctrl := rfl
@[simp] theorem clearGate_resetFlag : (clearGate s).resetFlag = s.resetFlag := rfl
@[simp] theorem clearGate_fault : (clearGate s).fault = s.fault := rfl
end clearGateFields

section setResetFlagFields
variable  (s : State)
@[simp] theorem setResetFlag_cfg : (setResetFlag s).cfg = s.cfg := rfl
@[simp] theorem setResetFlag_port : (setResetFlag s).port = s.port := rfl
@[simp] theorem setResetFlag_phase : (setResetFlag s).phase = s.phase := rfl
@[simp] theorem setResetFlag_stepReg : (setResetFlag s).stepReg = s.stepReg := rfl
@[simp] theorem setResetFlag_integ0 : (setResetFlag s).integ0 = s.integ0 := rfl
@[simp] theorem setResetFlag_integ1 : (setResetFlag s).integ1 = s.integ1 := rfl
@[simp] theorem setResetFlag_out : (setResetFlag s).out = s.out := rfl
@[simp] theorem setResetFlag_tbl : (setResetFlag s).tbl = s.tbl := rfl
@[simp] theorem setResetFlag_tblValid : (setResetFlag s).tblValid = s.tblValid := rfl
@[simp] theorem setResetFlag_tblOffset : (setResetFlag s).tblOffset = s.tblOffset := rfl
@[simp] theorem setResetFlag_rs : (setResetFlag s).rs = s.rs := rfl
@[simp] theorem setResetFlag_dcount : (setResetFlag s).dcount = s.dcount := rfl
@[simp] theorem setResetFlag_dlimit : (setResetFlag s).dlimit = s.dlimit := rfl
@[simp] theorem setResetFlag_dbuf0 : (setResetFlag s).dbuf0 = s.dbuf0 := rfl
@[simp] theorem setResetFlag_dbuf1 : (setResetFlag s).dbuf1 = s.dbuf1 := rfl
@[simp] theorem setResetFlag_note : (setResetFlag s).note = s.note := rfl
@[simp] theorem setResetFlag_vel : (setResetFlag s).vel = s.vel := rfl
@[simp] theorem setResetFlag_gate : (setResetFlag s).gate = s.gate := rfl
@[simp] theorem setResetFlag_prog : (setResetFlag s).prog = s.prog := rfl
@[simp] theorem setResetFlag_bend : (setResetFlag s).bend = s.bend := rfl
@[simp] theorem setResetFlag_ctrl : (setResetFlag s).ctrl = s.ctrl := rfl
@[simp] theorem setResetFlag_resetFlag : (setResetFlag s).resetFlag = true := rfl
@[simp] theorem setResetFlag_fault : (setResetFlag s).fault = s.fault := rfl
end setResetFlagFields

section resetBlockFields
variable  (s : State)
@[simp] theorem resetBlock_cfg : (resetBlock s).cfg = s.cfg := rfl
@[simp] theorem resetBlock_port : (resetBlock s).port = s.port := rfl
@[simp] theorem resetBlock_phase : (resetBlock s).phase = 0 := rfl
@[simp] theorem resetBlock_stepReg : (resetBlock s).stepReg = 0 := rfl
@[simp] theorem resetBlock_integ0 : (resetBlock s).integ0 = 0 := rfl
@[simp] theorem resetBlock_integ1 : (resetBlock s).integ1 = 0 := rfl
@[simp] theorem resetBlock_out : (resetBlock s).out = none := rfl
@[simp] theorem resetBlock_tbl : (resetBlock s).tbl = List.replicate s.cfg.tableSize Entry.cleared := rfl
@[simp] theorem resetBlock_tblValid : (resetBlock s).tblValid = false := rfl
@[simp] theorem resetBlock_tblOffset : (resetBlock s).tblOffset = 0 := rfl
@[simp] theorem resetBlock_rs : (resetBlock s).rs = 0 := rfl
@[simp] theorem resetBlock_dcount : (resetBlock s).dcount = 0 := rfl
@[simp] theorem resetBlock_dlimit : (resetBlock s).dlimit = 0 := rfl
@[simp] theorem resetBlock_dbuf0 : (resetBlock s).dbuf0 = 0 := rfl
@[simp] theorem resetBlock_dbuf1 : (resetBlock s).dbuf1 = 0 := rfl
@[simp] theorem resetBlock_note : (resetBlock s).note = 0 := rfl
@[simp] theorem resetBlock_vel : (resetBlock s).vel = 0 := rfl
@[simp] theorem resetBlock_gate : (resetBlock s).gate = false := rfl
@[simp] theorem resetBlock_prog : (resetBlock s).prog = 0 := rfl
@[simp] theorem resetBlock_bend : (resetBlock s).bend = 0 := rfl
@[simp] theorem resetBlock_ctrl : (resetBlock s).ctrl = Vector.replicate 128 0 := rfl
@[simp] theorem resetBlock_resetFlag : (resetBlock s).resetFlag = false := rfl
@[simp] theorem resetBlock_fault : (resetBlock s).fault = none := rfl
end resetBlockFields

/-- The reset state is a fixed point of `RESET`. -/
theorem resetBlock_reset : resetBlock State.reset = State.reset := rfl

/-- A faulted block keeps its first fault (R114). -/
@[simp] theorem firstFault_some (q r : FaultRecord) : firstFault (some q) r = some q := rfl

/-- The first fault is kept (R114). -/
@[simp] theorem firstFault_none (r : FaultRecord) : firstFault none r = some r := rfl

/-- A controller reads back what was written (R39). -/
theorem readCtrl_writeCtrl_self (i v : Payload) (s : State) : readCtrl i (writeCtrl i v s) = v := by
  simp [readCtrl]

/-- Writing one controller leaves every other alone (R103). -/
theorem readCtrl_writeCtrl_ne {i j : Payload} (h : i ≠ j) (v : Payload) (s : State) :
    readCtrl j (writeCtrl i v s) = readCtrl j s := by
  have : i.toNat ≠ j.toNat := fun e => h (BitVec.eq_of_toNat_eq e)
  simp [readCtrl, this]

end Sys2Proof.Machine
end

