-- ==== Sys2Proof/Laws/LoadTable.lean ====
section
/-! SUPPORT. What `load_one`, `load_nth` and LOAD_TABLE can answer (R77–R80). -/

namespace Sys2Proof.Machine

theorem Descriptor.bytes_eq (d : Descriptor) : d.bytes = d.ignored :: pairBytes d.pairs := rfl

theorem Descriptor.length_pairs (d : Descriptor) : d.pairs.length = d.inner.length + 1 := by simp [Descriptor.pairs]

/-- `consumed = 1 + 2 × pairs` (R78). -/
theorem Descriptor.length_bytes (d : Descriptor) : d.bytes.length = 1 + 2 * d.pairs.length := by
  rw [d.bytes_eq, List.length_cons, length_pairBytes]; omega

/-- Every descriptor takes at least 3 bytes (R79). -/
theorem Descriptor.three_le (d : Descriptor) : 3 ≤ d.bytes.length := by
  rw [d.length_bytes, d.length_pairs]; omega

/-- The marked table of a descriptor (R73, R74). -/
def markedTable (cfg : Params) (d : Descriptor) : List Entry := markAll (clearedTable cfg) d.pairs

@[simp] theorem length_markedTable (cfg : Params) (d : Descriptor) : (markedTable cfg d).length = cfg.tableSize := by
  simp [markedTable, clearedTable]

/-- The key frames of a descriptor are the slots its pairs name (R74). -/
theorem keyAt_markedTable (cfg : Params) (d : Descriptor) (i : Nat) :
    keyAt (markedTable cfg d) i = (decide (i < cfg.tableSize) && d.pairs.any fun p => decide (p.2.toNat = i)) := by
  simp [markedTable, clearedTable, keyAt_markAll]

/-- Their waveforms (R74, 92 D14). -/
theorem leftAt_markedTable (cfg : Params) (d : Descriptor) {i : Nat} (hi : i < cfg.tableSize) :
    leftAt (markedTable cfg d) i = namedWave d.pairs i := by
  rw [markedTable, leftAt_markAll _ _ (by simpa [clearedTable] using hi)]
  simp [clearedTable]

/-- Slot 0 of an accepted descriptor is a key frame (R77 (d)). -/
theorem keyAt_zero_of_accepted {cfg : Params} {d : Descriptor} (h : d.Accepted cfg) :
    keyAt (markedTable cfg d) 0 = true := by
  obtain ⟨_, hl, p, hp, h0⟩ := h
  rw [keyAt_markedTable]
  have : 0 < cfg.tableSize := by have := hl.2; omega
  simp only [this, decide_true, Bool.true_and, List.any_eq_true]
  exact ⟨p, hp, by simp [h0]⟩

/-- The final slot is a key frame (R74). -/
theorem keyAt_last_of_lastPair {cfg : Params} {d : Descriptor} (hl : LastPair cfg d.last) :
    keyAt (markedTable cfg d) (cfg.tableSize - 1) = true := by
  rw [keyAt_markedTable]
  have : cfg.tableSize - 1 < cfg.tableSize := by have := hl.2; omega
  simp only [this, decide_true, Bool.true_and, List.any_eq_true]
  exact ⟨d.last, by simp [Descriptor.pairs], by have := hl.2; simp; omega⟩

/-- A key frame's waveform is one the descriptor names, so it is in the ROM (R77 (c)). -/
theorem refOk_key {cfg : Params} {d : Descriptor} (h : d.Accepted cfg) {i : Nat}
    (hk : keyAt (markedTable cfg d) i = true) : refOk cfg.nwaves (leftAt (markedTable cfg d) i) = true := by
  rw [keyAt_markedTable] at hk
  simp only [Bool.and_eq_true, decide_eq_true_eq, List.any_eq_true] at hk
  obtain ⟨hi, p, hp, hpi⟩ := hk
  rw [leftAt_markedTable cfg d hi]
  unfold namedWave
  cases hf : d.pairs.reverse.find? fun p => decide (p.2.toNat = i) with
  | none =>
    have := List.find?_eq_none.1 hf p (by simpa using hp)
    simp [hpi] at this
  | some q =>
    have hq : q ∈ d.pairs := by simpa using List.mem_of_find?_eq_some hf
    have : q.1.toNat < cfg.nwaves := by
      rcases List.mem_append.1 hq with hq | hq
      · exact (h.1 q hq).1
      · rw [List.mem_singleton.1 hq]; exact h.2.1.1
    simpa [refOk] using this

/-- The table of an accepted descriptor is a loaded table (R25, R80). -/
theorem loadedTable_of_accepted {cfg : Params} {d : Descriptor} (h : d.Accepted cfg) :
    LoadedTable cfg (interpolate cfg.tableSize (markedTable cfg d)) := by
  have hn := length_markedTable cfg d
  have h0 := keyAt_zero_of_accepted h
  have hlen := length_interpolate hn h0
  have hts : 0 < cfg.tableSize := by have := h.2.1.2; omega
  refine ⟨hlen, fun e he => ?_, by rw [keyAt_interpolate hn h0]; exact h0,
    by rw [keyAt_interpolate hn h0]; exact keyAt_last_of_lastPair h.2.1, ?_⟩
  · obtain ⟨i, hi, rfl⟩ := List.getElem_of_mem he
    have hi' : i < cfg.tableSize := by omega
    have hs := interpolate_getElem? hn h0 hi'
    rw [List.getElem?_eq_getElem hi] at hs
    injection hs with hs
    rw [hs]
    have hlk := keyAt_lastKey h0 i
    refine ⟨refOk_key h hlk, ?_, fun hk => ?_⟩
    · refine refOk_key h ?_
      rcases nextKey_cases cfg.tableSize (markedTable cfg d) (lastKey (markedTable cfg d) i) with ⟨_, _, h3, _⟩ | ⟨h1, _⟩
      · exact h3
      · rw [h1]; exact hlk
    · have : lastKey (markedTable cfg d) i = i := by
        have hk' : keyAt (markedTable cfg d) i = true := hk
        cases i with
        | zero => rfl
        | succ i => simp [lastKey, hk']
      simp only [slotEntry, this, blendFactor_self]; rfl
  · rw [interpolate_getElem? hn h0 (by omega)]
    simp only [Option.map_some, slotEntry, blendFactor_last]; rfl

/-! ## `load_one` -/

/-- A well-formed descriptor at `base` loads (R74–R78). -/
theorem loadOne_descriptor {cfg : Params} {base : Nat} {d : Descriptor} {rest : List Byte}
    (hb : cfg.blob.drop base = d.bytes ++ rest) (h : d.Accepted cfg) :
    loadOne cfg base = .ok (interpolate cfg.tableSize (markedTable cfg d), d.bytes.length) := by
  have hlen : ¬ base ≥ cfg.blobLen := by
    intro hge
    rw [List.drop_eq_nil_of_le (by simpa [Params.blobLen] using hge)] at hb
    simp [d.bytes_eq] at hb
  have hdrop : cfg.blob.drop (base + 1) = pairBytes d.pairs ++ rest := by
    rw [← List.drop_drop, hb, d.bytes_eq]; rfl
  unfold loadOne
  rw [if_neg hlen, hdrop, Descriptor.pairs, markKeys_descriptor h.1 h.2.1]
  have h0 : keyAt (markAll (clearedTable cfg) (d.inner ++ [d.last])) 0 = true := keyAt_zero_of_accepted h
  simp only [h0, if_true]
  rw [d.length_bytes, d.length_pairs]
  congr 2
  omega

/-- Everything a successful `load_one` says about the blob and its answer (R74–R78). -/
theorem loadOne_ok {cfg : Params} {base c : Nat} {E : List Entry} (h : loadOne cfg base = .ok (E, c)) :
    ∃ d rest, cfg.blob.drop base = Descriptor.bytes d ++ rest ∧ d.Accepted cfg ∧
      E = interpolate cfg.tableSize (markedTable cfg d) ∧ c = d.bytes.length := by
  unfold loadOne at h
  split_ifs at h with hb
  cases hm : markKeys cfg (cfg.blob.drop (base + 1)) (base + 1) (clearedTable cfg) with
  | error a => simp [hm] at h
  | ok r =>
    obtain ⟨F, a⟩ := r
    rw [hm] at h
    simp only at h
    split_ifs at h with h0
    injection h with h; injection h with hE hc
    obtain ⟨ps, l, rest, hbytes, hi, hl, hF, ha⟩ := markKeys_ok hm
    have hlt : base < cfg.blob.length := by simpa [Params.blobLen] using hb
    refine ⟨⟨cfg.blob[base], ps, l⟩, rest, ?_, ⟨hi, hl, ?_⟩, ?_, ?_⟩
    · rw [List.drop_eq_getElem_cons hlt, hbytes]; rfl
    · rw [hF, keyAt_markAll] at h0
      simp only [clearedTable, keyAt_replicate_cleared, Bool.false_or, Bool.and_eq_true, List.any_eq_true,
        decide_eq_true_eq] at h0
      obtain ⟨_, p, hp, hp0⟩ := h0
      exact ⟨p, hp, BitVec.eq_of_toNat_eq (by simpa using hp0)⟩
    · rw [← hE, hF]; rfl
    · rw [Descriptor.length_bytes, Descriptor.length_pairs]
      simp only; omega

/-- An accepted descriptor lies inside the blob. -/
theorem loadOne_bounds {cfg : Params} {base c : Nat} {E : List Entry} (h : loadOne cfg base = .ok (E, c)) :
    3 ≤ c ∧ base + c ≤ cfg.blobLen := by
  obtain ⟨d, rest, hb, _, _, rfl⟩ := loadOne_ok h
  have h3 := d.three_le
  have := congrArg List.length hb
  simp at this
  refine ⟨h3, ?_⟩
  unfold Params.blobLen; omega

/-- The table a successful `load_one` answers is a loaded table (R25, R80). -/
theorem loadOne_loaded {cfg : Params} {base c : Nat} {E : List Entry} (h : loadOne cfg base = .ok (E, c)) :
    LoadedTable cfg E := by
  obtain ⟨d, _, _, ha, rfl, _⟩ := loadOne_ok h
  exact loadedTable_of_accepted ha

/-- A failed check is at an offset of the blob, or at its end, if `base` is (R77). -/
theorem loadOne_error {cfg : Params} {base e : Nat} (hb : base ≤ cfg.blobLen) (h : loadOne cfg base = .error e) :
    base ≤ e ∧ e ≤ cfg.blobLen := by
  unfold loadOne at h
  split_ifs at h with hge
  · injection h with h; omega
  · cases hm : markKeys cfg (cfg.blob.drop (base + 1)) (base + 1) (clearedTable cfg) with
    | error a =>
      rw [hm] at h; injection h with h; subst h
      have := markKeys_error hm
      simp [Params.blobLen] at *; omega
    | ok r =>
      obtain ⟨F, a⟩ := r
      rw [hm] at h; simp only at h
      split_ifs at h with h0
      injection h with h; omega

/-! ## `load_nth` -/

/-- What a successful `load_nth` answers: a loaded table, and an offset past at least 3 bytes for each table read. -/
theorem loadNth_ok {cfg : Params} {n base off : Nat} {E : List Entry} (h : loadNth cfg n base = .ok (E, off)) :
    LoadedTable cfg E ∧ base + 3 * (n + 1) ≤ off ∧ off ≤ cfg.blobLen := by
  induction n generalizing base with
  | zero =>
    unfold loadNth at h
    cases h1 : loadOne cfg base with
    | error a => simp [h1] at h
    | ok r =>
      obtain ⟨F, c⟩ := r
      rw [h1] at h; injection h with h; injection h with hE hc
      have := loadOne_bounds h1
      exact ⟨hE ▸ loadOne_loaded h1, by omega, by omega⟩
  | succ n ih =>
    unfold loadNth at h
    cases h1 : loadOne cfg base with
    | error a => simp [h1] at h
    | ok r =>
      obtain ⟨F, c⟩ := r
      rw [h1] at h; simp only at h
      have hb := loadOne_bounds h1
      obtain ⟨hl, h2, h3⟩ := ih h
      exact ⟨hl, by omega, h3⟩

/-- A failed `load_nth` names an offset of the blob, or its end (R77). -/
theorem loadNth_error {cfg : Params} {n base e : Nat} (hb : base ≤ cfg.blobLen) (h : loadNth cfg n base = .error e) :
    e ≤ cfg.blobLen := by
  induction n generalizing base with
  | zero =>
    unfold loadNth at h
    cases h1 : loadOne cfg base with
    | error a => rw [h1] at h; injection h with h; subst h; exact (loadOne_error hb h1).2
    | ok r => obtain ⟨F, c⟩ := r; simp [h1] at h
  | succ n ih =>
    unfold loadNth at h
    cases h1 : loadOne cfg base with
    | error a => rw [h1] at h; injection h with h; subst h; exact (loadOne_error hb h1).2
    | ok r =>
      obtain ⟨F, c⟩ := r
      rw [h1] at h; simp only at h
      exact ih (loadOne_bounds h1).2 h

/-- A table that loads is passed over (R79). -/
theorem loadNth_pass {cfg : Params} {n base c : Nat} {F : List Entry} (h : loadOne cfg base = .ok (F, c)) :
    loadNth cfg (n + 1) base = loadNth cfg n (base + c) := by
  conv_lhs => unfold loadNth
  rw [h]

/-- The last table is kept (R79). -/
theorem loadNth_keep {cfg : Params} {base c : Nat} {F : List Entry} (h : loadOne cfg base = .ok (F, c)) :
    loadNth cfg 0 base = .ok (F, base + c) := by
  unfold loadNth
  rw [h]

/-- Loading one table further is loading that table from where this one ended (R79). -/
theorem loadNth_succ {cfg : Params} {n base : Nat} {off : Nat} {E : List Entry}
    (h : loadNth cfg n base = .ok (E, off)) :
    loadNth cfg (n + 1) base = loadNth cfg 0 off := by
  induction n generalizing base with
  | zero =>
    cases h1 : loadOne cfg base with
    | error a => unfold loadNth at h; simp [h1] at h
    | ok r =>
      obtain ⟨F, c⟩ := r
      rw [loadNth_keep h1] at h; injection h with h; injection h with hE hc
      rw [loadNth_pass h1, hc]
  | succ n ih =>
    cases h1 : loadOne cfg base with
    | error a => unfold loadNth at h; simp [h1] at h
    | ok r =>
      obtain ⟨F, c⟩ := r
      rw [loadNth_pass h1] at h ⊢
      exact ih h

/-- A first table that fails fails every `load_nth` (R79). -/
theorem loadNth_fail {cfg : Params} {n base a : Nat} (h : loadOne cfg base = .error a) :
    loadNth cfg n base = .error a := by
  cases n <;> simp [loadNth, h]

/-- Accepted descriptors are passed over, one ordinal each (R68, R79). -/
theorem loadNth_skip {cfg : Params} {before : List Descriptor} {suffix : List Byte}
    (hb : ∀ b ∈ before, b.Accepted cfg) {n base : Nat}
    (h : cfg.blob.drop base = before.flatMap Descriptor.bytes ++ suffix) (hn : before.length ≤ n) :
    loadNth cfg n base = loadNth cfg (n - before.length) (base + (before.flatMap Descriptor.bytes).length) ∧
      cfg.blob.drop (base + (before.flatMap Descriptor.bytes).length) = suffix := by
  induction before generalizing n base with
  | nil => simpa using h
  | cons d ds ih =>
    obtain ⟨m, rfl⟩ : ∃ m, n = m + 1 := ⟨n - 1, by simp at hn; omega⟩
    have h' : cfg.blob.drop base = d.bytes ++ (ds.flatMap Descriptor.bytes ++ suffix) := by simpa using h
    have hd : cfg.blob.drop (base + d.bytes.length) = ds.flatMap Descriptor.bytes ++ suffix := by
      rw [← List.drop_drop, h']; simp
    have := ih (fun b hb' => hb b (by simp [hb'])) (n := m) hd (by simp at hn; omega)
    rw [loadNth_pass (loadOne_descriptor h' (hb d (by simp))), this.1]
    simp only [List.flatMap_cons, List.length_cons, List.length_append]
    exact ⟨by congr 1 <;> omega, by rw [← Nat.add_assoc]; exact this.2⟩

/-! ## LOAD_TABLE -/

/-- Everything LOAD_TABLE can do (R79): install the table, or record `BlobInvalid`. -/
theorem execLoadTable_cases (index : BitVec 16) (s : State) :
    (∃ E off, loadNth s.cfg index.toNat 0 = .ok (E, off) ∧
      execLoadTable index s = .next (installTable E (BitVec.ofNat 16 off) s)) ∨
    (∃ a, loadNth s.cfg index.toNat 0 = .error a ∧
      execLoadTable index s = .next (raiseFault (.blobInvalid a) (loadTableWord index) s)) := by
  unfold execLoadTable takeTable tableOrdinal
  cases h : loadNth s.cfg index.toNat 0 with
  | ok r => exact .inl ⟨r.1, r.2, rfl, rfl⟩
  | error a => exact .inr ⟨a, rfl, rfl⟩

end Sys2Proof.Machine
end

