-- ==== Sys2Proof/Laws/Midi.lean ====
section
/-! SUPPORT. Everything the MIDI decoder can do (R95–R109). -/

namespace Sys2Proof.Machine

/-- The data length of a class is 0, 1 or 2, and 0 for the unknown classes only (R64). -/
theorem classLen_cases (c : BitVec 3) :
    (classLen c = 0#2 ∧ (c = 2#3 ∨ c = 5#3 ∨ c = 7#3)) ∨ (classLen c = 1#2 ∧ c = 4#3) ∨
      (classLen c = 2#2 ∧ (c = 0#3 ∨ c = 1#3 ∨ c = 3#3 ∨ c = 6#3)) := by
  revert c; decide

/-- `t` differs from `s` in MIDI registers only: the parser's, the channel state and the reset flag (R28–R31). -/
abbrev MidiFrame (s t : State) : Prop :=
  t = { s with
    rs := t.rs, dcount := t.dcount, dlimit := t.dlimit, dbuf0 := t.dbuf0, dbuf1 := t.dbuf1, note := t.note,
    vel := t.vel, gate := t.gate, prog := t.prog, bend := t.bend, ctrl := t.ctrl, resetFlag := t.resetFlag }

/-- A dispatch writes channel state only (R100). -/
theorem dispatch_frame (c : BitVec 3) (s : State) :
    dispatch c s = { s with
      note := (dispatch c s).note, vel := (dispatch c s).vel, gate := (dispatch c s).gate,
      prog := (dispatch c s).prog, bend := (dispatch c s).bend, ctrl := (dispatch c s).ctrl } := by
  unfold dispatch dispatchNoteOff dispatchNoteOn dispatchControlChange dispatchProgramChange dispatchPitchBend
  split_ifs <;> rfl

/-- A data byte writes `DCOUNT`, `DBUF` and channel state only (R98, R99). -/
theorem takeData_frame (chan : Channel) (d : Payload) (s : State) :
    takeData chan d s = { s with
      dcount := (takeData chan d s).dcount, dbuf0 := (takeData chan d s).dbuf0, dbuf1 := (takeData chan d s).dbuf1,
      note := (takeData chan d s).note, vel := (takeData chan d s).vel, gate := (takeData chan d s).gate,
      prog := (takeData chan d s).prog, bend := (takeData chan d s).bend, ctrl := (takeData chan d s).ctrl } := by
  unfold takeData acceptPayload
  split_ifs with h1 h2 h3
  · rfl
  · rfl
  · rw [dispatch_frame]; rfl
  · rfl

/-- The sentinel (R96). -/
theorem execMidiReset_frame (chan : Channel) (s : State) :
    ∃ t, execMidiReset chan s = .next t ∧ MidiFrame s t ∧ t.resetFlag = true := by
  refine ⟨_, rfl, ?_, ?_⟩ <;> split_ifs <;> rfl

/-- A data byte (R98, R99). -/
theorem execMidiData_frame (chan : Channel) (d : Payload) (s : State) :
    ∃ t, execMidiData chan d s = .next t ∧ MidiFrame s t ∧ t.resetFlag = s.resetFlag := by
  refine ⟨_, rfl, ?_, ?_⟩ <;> rw [takeData_frame]

/-- A status byte (R97). -/
theorem acceptStatus_eq (b : Byte) (s : State) :
    acceptStatus b s = { s with rs := b, dcount := 0, dlimit := classLen (classField b) } := rfl

/-- The instructions of the MIDI decoder. -/
def isMidi : Instr → Bool
  | .tick _ _ => false
  | .setStep _ => false
  | .loadTable _ => false
  | .midiByte _ _ => true
  | .midiReset _ => true
  | .midiData _ _ => true
  | .midiNoteOff _ _ => true
  | .midiNoteOn _ _ => true
  | .midiStatusClass2 _ _ => true
  | .midiControlChange _ _ => true
  | .midiProgramChange _ _ => true
  | .midiStatusClass5 _ _ => true
  | .midiPitchBend _ _ => true
  | .midiStatusClass7 _ _ => true

/-- A MIDI byte runs the row it decodes to (R62, R95). -/
theorem execMidiByte_eq (chan : Channel) (b : Byte) (s : State) :
    execMidiByte chan b s = exec (decodeMidi chan b) s := by
  unfold execMidiByte decodeMidi
  split_ifs <;> rfl

/-- A MIDI byte decodes to an instruction of the MIDI decoder (R62). -/
theorem isMidi_decodeMidi (chan : Channel) (b : Byte) : isMidi (decodeMidi chan b) = true := by
  unfold decodeMidi; split_ifs <;> rfl

/-- A MIDI byte decodes to one of the ten rows, never to the command that carries it (R62). -/
theorem decodeMidi_ne_midiByte (chan : Channel) (b : Byte) (c : Channel) (v : Byte) :
    decodeMidi chan b ≠ .midiByte c v := by
  unfold decodeMidi; split_ifs <;> exact fun h => Instr.noConfusion h

/-- Every MIDI instruction completes, writes MIDI registers only, and never clears the reset flag (R96, R108). -/
theorem exec_midi_frame {i : Instr} (hi : isMidi i = true) (s : State) :
    ∃ t, exec i s = .next t ∧ MidiFrame s t ∧ (s.resetFlag = true → t.resetFlag = true) := by
  have row : ∀ j, isMidi j = true → (∀ chan b, j ≠ .midiByte chan b) →
      ∃ t, exec j s = .next t ∧ MidiFrame s t ∧ (s.resetFlag = true → t.resetFlag = true) := by
    intro j hj hne
    cases j with
    | tick => cases hj
    | setStep => cases hj
    | loadTable => cases hj
    | midiByte chan b => exact absurd rfl (hne chan b)
    | midiReset chan =>
      obtain ⟨t, h1, h2, h3⟩ := execMidiReset_frame chan s
      exact ⟨t, h1, h2, fun _ => h3⟩
    | midiData chan d =>
      obtain ⟨t, h1, h2, h3⟩ := execMidiData_frame chan d s
      exact ⟨t, h1, h2, fun h => h3.trans h⟩
    | midiNoteOff => exact ⟨_, rfl, rfl, id⟩
    | midiNoteOn => exact ⟨_, rfl, rfl, id⟩
    | midiStatusClass2 => exact ⟨_, rfl, rfl, id⟩
    | midiControlChange => exact ⟨_, rfl, rfl, id⟩
    | midiProgramChange => exact ⟨_, rfl, rfl, id⟩
    | midiStatusClass5 => exact ⟨_, rfl, rfl, id⟩
    | midiPitchBend => exact ⟨_, rfl, rfl, id⟩
    | midiStatusClass7 => exact ⟨_, rfl, rfl, id⟩
  by_cases hm : ∃ chan b, i = .midiByte chan b
  · obtain ⟨chan, b, rfl⟩ := hm
    have : exec (.midiByte chan b) s = exec (decodeMidi chan b) s := execMidiByte_eq chan b s
    rw [this]
    refine row _ ?_ ?_ <;> unfold decodeMidi
    · split_ifs <;> rfl
    · intro c x; split_ifs <;> simp
  · exact row i hi fun chan b h => hm ⟨chan, b, h⟩

/-- `s` with the port and the audio registers of `g`: what a MIDI instruction neither reads nor writes (R108). -/
def withAudioOf (g s : State) : State :=
  { s with port := g.port, phase := g.phase, integ0 := g.integ0, integ1 := g.integ1, out := g.out }

/-- A dispatch reads MIDI registers only (R100). -/
theorem dispatch_withAudioOf (c : BitVec 3) (g s : State) :
    dispatch c (withAudioOf g s) = withAudioOf g (dispatch c s) := by
  cases s
  unfold withAudioOf dispatch dispatchNoteOff dispatchNoteOn dispatchControlChange dispatchProgramChange
    dispatchPitchBend
  dsimp only [setGate, writeNote, clearGate, writeCtrl, writeProg, writeBend]
  split_ifs <;> rfl

/-- A data byte reads MIDI registers only (R98, R99). -/
theorem takeData_withAudioOf (chan : Channel) (d : Payload) (g s : State) :
    takeData chan d (withAudioOf g s) = withAudioOf g (takeData chan d s) := by
  have hb : bufferPayload d (withAudioOf g s) = withAudioOf g (bufferPayload d s) := by
    cases s; rfl
  simp only [takeData, acceptPayload, hb]
  simp only [show (withAudioOf g s).dlimit = s.dlimit from rfl, show (withAudioOf g s).dcount = s.dcount from rfl,
    show (withAudioOf g s).rs = s.rs from rfl]
  split_ifs
  · rfl
  · rfl
  · exact congrArg (writeDcount 0) (dispatch_withAudioOf _ g (writeDcount _ (bufferPayload d s)))
  · rfl

/-- A MIDI instruction does the same whatever the audio registers and the port hold (R108). -/
theorem exec_midi_withAudioOf {i : Instr} (hi : isMidi i = true) {g s t : State} (h : exec i s = .next t) :
    exec i (withAudioOf g s) = .next (withAudioOf g t) := by
  have row : ∀ j, isMidi j = true → (∀ chan b, j ≠ .midiByte chan b) → exec j s = .next t →
      exec j (withAudioOf g s) = .next (withAudioOf g t) := by
    intro j hj hne h
    cases j with
    | tick => cases hj
    | setStep => cases hj
    | loadTable => cases hj
    | midiByte chan b => exact absurd rfl (hne chan b)
    | midiReset =>
      injection h with h; subst h
      show Host.Outcome.next (if s.cfg.ffAlsoStatus = true then _ else _) = _
      split_ifs <;> rfl
    | midiData =>
      injection h with h; subst h
      exact congrArg Host.Outcome.next (takeData_withAudioOf _ _ _ _)
    | _ => injection h with h; subst h; rfl
  by_cases hm : ∃ chan b, i = .midiByte chan b
  · obtain ⟨chan, b, rfl⟩ := hm
    have e : ∀ u, exec (.midiByte chan b) u = exec (decodeMidi chan b) u := execMidiByte_eq chan b
    rw [e] at h ⊢
    exact row _ (isMidi_decodeMidi chan b) (decodeMidi_ne_midiByte chan b) h
  · exact row i hi (fun chan b e => hm ⟨chan, b, e⟩) h

end Sys2Proof.Machine
end

