-- ==== Sys2Proof/Laws/PerInstr.lean ====
section
/-! SUPPORT. Statements about every instruction, one lemma per constructor. -/

namespace Sys2Proof.Laws.RoundTrip

/-- Decoding the code of a well-formed instruction gives it back, every operand at every value. -/
def Statement (i : Instr) : Prop := i.wellFormed = true → decode (encode i) = .ok i

theorem tick (slot k : Byte) : Statement (.tick slot k) := fun _ => by simp [decode, encode]

theorem setStep (step : BitVec 16) : Statement (.setStep step) := fun _ => by simp [decode, encode]

theorem midiByte (chan : Channel) (byte : Byte) : Statement (.midiByte chan byte) := fun _ => by simp [decode, encode]

theorem loadTable (index : BitVec 16) : Statement (.loadTable index) := fun _ => by simp [decode, encode]

theorem midiReset (chan : Channel) : Statement (.midiReset chan) := fun _ => by simp [decode, encode, decodeMidi]

theorem midiData (chan : Channel) (data : Payload) : Statement (.midiData chan data) := fun _ => by
  simp [decode, encode, decodeMidi]

theorem midiNoteOff (chan channel : Channel) : Statement (.midiNoteOff chan channel) := fun _ => by
  simp [decode, encode, decodeMidi, statusOf_eq_sentinel]

theorem midiNoteOn (chan channel : Channel) : Statement (.midiNoteOn chan channel) := fun _ => by
  simp [decode, encode, decodeMidi, statusOf_eq_sentinel]

theorem midiStatusClass2 (chan channel : Channel) : Statement (.midiStatusClass2 chan channel) := fun _ => by
  simp [decode, encode, decodeMidi, statusOf_eq_sentinel]

theorem midiControlChange (chan channel : Channel) : Statement (.midiControlChange chan channel) := fun _ => by
  simp [decode, encode, decodeMidi, statusOf_eq_sentinel]

theorem midiProgramChange (chan channel : Channel) : Statement (.midiProgramChange chan channel) := fun _ => by
  simp [decode, encode, decodeMidi, statusOf_eq_sentinel]

theorem midiStatusClass5 (chan channel : Channel) : Statement (.midiStatusClass5 chan channel) := fun _ => by
  simp [decode, encode, decodeMidi, statusOf_eq_sentinel]

theorem midiPitchBend (chan channel : Channel) : Statement (.midiPitchBend chan channel) := fun _ => by
  simp [decode, encode, decodeMidi, statusOf_eq_sentinel]

theorem midiStatusClass7 (chan low : Channel) : Statement (.midiStatusClass7 chan low) := fun h => by
  have hl : low ≠ 0xF#4 := by simpa [Instr.wellFormed] using h
  simp [decode, encode, decodeMidi, statusOf_eq_sentinel, hl]

end Sys2Proof.Laws.RoundTrip
end

