-- ==== Sys2Proof/Laws/Tick.lean ====
section
/-! SUPPORT. Everything TICK can do (R110). -/

namespace Sys2Proof.Machine

/-- The four ends of a TICK, with the conditions of each (R110, R119). -/
theorem execTick_cases (slot k : Byte) (s : State) :
    (s.tblValid = false ∧ execTick slot k s = .next (raiseFault .tableNotLoaded (tickWord slot k) s)) ∨
    (s.tblValid = true ∧ s.cfg.tableSize ≤ slot.toNat ∧
      execTick slot k s = .next (raiseFault (.slotRange slot) (tickWord slot k) s)) ∨
    (s.tblValid = true ∧ slot.toNat < s.cfg.tableSize ∧
      ∃ smp, sample s.cfg s.tbl slot.toNat (advance s.phase s.stepReg) = some smp ∧
        execTick slot k s = .next (tickWith k smp s)) ∨
    (s.tblValid = true ∧ slot.toNat < s.cfg.tableSize ∧
      sample s.cfg s.tbl slot.toNat (advance s.phase s.stepReg) = none ∧
      execTick slot k s = .fault (.noSample slot)) := by
  unfold execTick slotIndex
  by_cases hv : s.tblValid = false
  · exact .inl ⟨hv, by simp [hv]⟩
  · have hv' : s.tblValid = true := by simpa using hv
    by_cases hs : s.cfg.tableSize ≤ slot.toNat
    · exact .inr (.inl ⟨hv', hs, by simp [hv', hs]⟩)
    · have hs' : slot.toNat < s.cfg.tableSize := by omega
      cases sample s.cfg s.tbl slot.toNat (advance s.phase s.stepReg) with
      | some smp => exact .inr (.inr (.inl ⟨hv', hs', smp, rfl, by simp [hv', hs]⟩))
      | none => exact .inr (.inr (.inr ⟨hv', hs', rfl, by simp [hv', hs]⟩))

/-- The sample of an entry whose references are good (R83, R84). -/
theorem sample_of_refs {cfg : Params} {tbl : List Entry} {i : Nat} {e : Entry} {wl wr : Byte} {a b : Waveform}
    (he : tbl[i]? = some e) (hl : e.left = some wl) (hr : e.right = some wr) (ha : cfg.waves[wl.toNat]? = some a)
    (hb : cfg.waves[wr.toNat]? = some b) (phase : BitVec 16) :
    sample cfg tbl i phase = some (crossfade e.factor (sfp a phase) (sfp b phase)) := by
  simp [sample, mix, waveform, he, hl, hr, ha, hb]

/-- `idx = phase[14:9]` (R81). -/
theorem toNat_sampleIndex (phase : BitVec 16) : (sampleIndex phase).toNat = phase.toNat / 512 % 64 := by
  have := phase.isLt
  simp only [sampleIndex, subPhase, BitVec.extractLsb'_toNat, Nat.shiftRight_eq_div_pow]; omega

/-- The half is bit 15 of the phase (R81). -/
theorem secondHalf_eq (phase : BitVec 16) : secondHalf phase = decide (32768 ≤ phase.toNat) := by
  have := phase.isLt
  unfold secondHalf
  rw [BitVec.getLsbD, Nat.testBit_eq_decide_div_mod_eq]
  simp only [subPhase, BitVec.extractLsb'_toNat, Nat.shiftRight_eq_div_pow]
  congr 1; rw [eq_iff_iff]; omega

/-- The crossfade's exact sum, before the shift, fits 16 bits (R83). -/
theorem crossfade_sum_le (f l r : Byte) : (256 - f.toNat) * l.toNat + f.toNat * r.toNat ≤ 65280 := by
  have hf := f.isLt
  have h1 : (256 - f.toNat) * l.toNat ≤ (256 - f.toNat) * 255 := Nat.mul_le_mul_left _ (by have := l.isLt; omega)
  have h2 : f.toNat * r.toNat ≤ f.toNat * 255 := Nat.mul_le_mul_left _ (by have := r.isLt; omega)
  omega

/-- The crossfade as a number: nothing is lost (R83). -/
theorem toNat_crossfade (f l r : Byte) :
    (crossfade f l r).toNat = ((256 - f.toNat) * l.toNat + f.toNat * r.toNat) / 256 := by
  have := crossfade_sum_le f l r
  unfold crossfade
  rw [BitVec.toNat_ofNat]
  exact Nat.mod_eq_of_lt (by omega)

/-- The filter's input is a signed 8-bit value (R92, R110). -/
theorem filterInput_range (b : Byte) : -128 ≤ filterInput b ∧ filterInput b ≤ 127 := by
  have := b.isLt
  unfold filterInput; omega

/-- The output register undoes the bias (R110). -/
theorem outputSample_filterInput (b : Byte) : outputSample (filterInput b) = b := by
  unfold outputSample filterInput
  simp

/-- The coefficient is 0..255 (R92). -/
theorem coefficient_range (k : Byte) : 0 ≤ coefficient k ∧ coefficient k ≤ 255 := by
  have := k.isLt
  unfold coefficient; omega

/-- A TICK that passes its checks ends in the same way in every state with the same parameters, table and oscillator
(R110). -/
theorem execTick_past_checks (slot k : Byte) {s : State} (hv : s.tblValid = true)
    (hs : slot.toNat < s.cfg.tableSize) :
    (∃ smp, ∀ t : State, t.cfg = s.cfg → t.tbl = s.tbl → t.tblValid = s.tblValid → t.phase = s.phase →
      t.stepReg = s.stepReg → execTick slot k t = .next (tickWith k smp t)) ∨
    (∀ t : State, t.cfg = s.cfg → t.tbl = s.tbl → t.tblValid = s.tblValid → t.phase = s.phase →
      t.stepReg = s.stepReg → execTick slot k t = .fault (.noSample slot)) := by
  cases h : sample s.cfg s.tbl slot.toNat (advance s.phase s.stepReg) with
  | some smp =>
    refine .inl ⟨smp, fun t h1 h2 h3 h4 h5 => ?_⟩
    simp [execTick, slotIndex, h1, h2, h3, h4, h5, hv, h, hs]
  | none =>
    refine .inr fun t h1 h2 h3 h4 h5 => ?_
    simp [execTick, slotIndex, h1, h2, h3, h4, h5, hv, h, hs]

/-- A good reference names a waveform of the ROM (R25, R36). -/
theorem refOk_some {n : Nat} {r : Option Byte} (h : refOk n r = true) : ∃ w, r = some w ∧ w.toNat < n := by
  cases r with
  | none => cases h
  | some w => exact ⟨w, rfl, by simpa [refOk] using h⟩

/-- On a loaded table a TICK of a slot of the table runs the pipeline (R25, R110). -/
theorem execTick_loaded (k : Byte) {slot : Byte} {s : State} (hv : s.tblValid = true)
    (hl : LoadedTable s.cfg s.tbl) (hs : slot.toNat < s.cfg.tableSize) :
    ∃ smp, execTick slot k s = .next (tickWith k smp s) := by
  have hlen : slot.toNat < s.tbl.length := by rw [hl.1]; exact hs
  obtain ⟨hleft, hright, _⟩ := hl.2.1 _ (List.getElem_mem hlen)
  obtain ⟨wl, h1, h2⟩ := refOk_some hleft
  obtain ⟨wr, h3, h4⟩ := refOk_some hright
  have hsmp := sample_of_refs (List.getElem?_eq_getElem hlen) h1 h3 (List.getElem?_eq_getElem h2)
    (List.getElem?_eq_getElem h4) (advance s.phase s.stepReg)
  rcases execTick_cases slot k s with ⟨h, _⟩ | ⟨_, h, _⟩ | ⟨_, _, smp, _, h⟩ | ⟨_, _, h, _⟩
  · rw [hv] at h; cases h
  · omega
  · exact ⟨smp, h⟩
  · rw [hsmp] at h; cases h

end Sys2Proof.Machine
end

