-- ==== Sys2Proof/Laws/Step.lean ====
section
/-! SUPPORT. Everything an instruction, an event and a step can do (R48, R110, R114, R115). -/

namespace Sys2Proof.Machine

/-- The one port that can be unwritten is `OUT` (R22). -/
theorem readPort_unwritten {p : OutputPort} {s : State} (h : readPort p s = .unwritten) :
    p = .out ∧ s.out = none := by
  cases p with
  | out =>
    cases ho : s.out with
    | none => exact ⟨rfl, rfl⟩
    | some v => simp [readPort, ho] at h
  | integ j => simp only [readPort] at h; split_ifs at h; split at h <;> simp at h
  | tbl slot field => simp only [readPort] at h; split at h <;> simp at h
  | _ => simp [readPort] at h

/-- A host read keeps the state, records an unwritten `OUT`, or finds no port (R34, R113). -/
theorem hostRead_cases (p : OutputPort) (s : State) :
    ((∃ v, readPort p s = .value v) ∧ hostRead p s = .next s) ∨
    (p = .out ∧ s.out = none ∧ hostRead p s = .next (recordFault { cause := .outUnwritten, word := none } s)) ∨
    (readPort p s = .absent ∧ hostRead p s = .refused (.noSuchPort p)) := by
  unfold hostRead
  cases h : readPort p s with
  | value v => exact .inl ⟨⟨v, rfl⟩, rfl⟩
  | absent => exact .inr (.inr ⟨rfl, rfl⟩)
  | unwritten => exact .inr (.inl ⟨(readPort_unwritten h).1, (readPort_unwritten h).2, rfl⟩)

/-- The port after one offer of the host's was put first and taken (log 2). -/
@[simp] theorem take_offerFirst (w : Word) (p : Port) : (p.offerFirst w).take = some (.command w, p) := rfl

/-- What a command presented to the block can do (R60, R115). -/
theorem presentCommand_cases (run : Instr → State → Host.Outcome State Fault Refusal) (w : Word) (s : State) :
    (∃ r, s.fault = some r ∧ presentCommand run w s = .next s) ∨
    (s.fault = none ∧ ∃ i, decodeCommand w = .ok i ∧ presentCommand run w s = run i s) ∨
    (s.fault = none ∧ (∃ e, decodeCommand w = .error e) ∧
      presentCommand run w s = .next (raiseFault (.illegalCommand w) w s)) := by
  unfold presentCommand isFaulted
  cases hf : s.fault with
  | some r => exact .inl ⟨r, rfl, rfl⟩
  | none =>
    cases hd : decodeCommand w with
    | ok i => exact .inr (.inl ⟨rfl, i, rfl, rfl⟩)
    | error e => exact .inr (.inr ⟨rfl, ⟨e, rfl⟩, rfl⟩)

/-- What a step can do: idle, or handle the next event (R48, R127). -/
theorem step_cases (s : State) :
    (s.port.take = none ∧ step s = .next s) ∨
    (∃ e p, s.port.take = some (e, p) ∧ step s = handleEvent exec e (setPort p s)) := by
  unfold step stepWith
  cases h : s.port.take with
  | none => exact .inl ⟨rfl, rfl⟩
  | some r => exact .inr ⟨r.1, r.2, rfl, rfl⟩

/-- A run of two parts, the first of which completes (R48). -/
theorem runInstrs_append {is js : List Instr} {s t : State} (h : runInstrs is s = .next t) :
    runInstrs (is ++ js) s = runInstrs js t := by
  induction is generalizing s with
  | nil => injection h with h; subst h; rfl
  | cons i is ih =>
    simp only [runInstrs, List.cons_append] at h ⊢
    cases he : exec i s with
    | next u => rw [he] at h; exact ih h
    | fault f => rw [he] at h; cases h
    | refused r => rw [he] at h; cases h

end Sys2Proof.Machine
end

