-- ==== Sys2Proof/Tests/Slice0.lean ====
section
/-! SUPPORT. Tests, each on one step or one function, with expected values from spec/95_test_vectors.md or worked by hand
from the rule named; and for each statement with hypotheses a witness that they can be met together. -/

namespace Sys2Proof.Tests

open Sys2Proof Sys2Proof.Machine

set_option Elab.async false

/-! ## The test configuration of spec/95_test_vectors.md section 1 -/

/-- W0, `128 + 2i`. -/
def wave0 : Waveform := Vector.ofFn fun i => BitVec.ofNat 8 (128 + 2 * i.val)

/-- W1, 255 everywhere. -/
def wave1 : Waveform := Vector.replicate 64 255#8

/-- W2, `4i`. -/
def wave2 : Waveform := Vector.ofFn fun i => BitVec.ofNat 8 (4 * i.val)

/-- The test ROMs, with the default parameters. -/
def cfg0 : Params where
  waves := [wave0, wave1, wave2]
  blob := [0x00, 0x00, 0x00, 0x01, 0x3C, 0x00, 0x01, 0x00, 0x00, 0x1E, 0x01, 0x3C]
  sampleRate := 16000

/-- The block right after reset with the test configuration. -/
def start : State := { State.reset with cfg := cfg0 }

/-- After `LOAD 0`, with a step. -/
def loaded (step : BitVec 16) : State := writeStep step (takeTable 0#16 start)

/-- A parser state in the middle of a run: status `rs`, `count` of `limit` data bytes taken, note 0x40 held. -/
def parsing (rs : Byte) (count limit : BitVec 2) : State :=
  { start with rs := rs, dcount := count, dlimit := limit, dbuf0 := 0x40#7, note := 0x40#7, vel := 0x60#7, gate := true }

/-- A state with something offered on its port. -/
def offered (e : HostAction) (s : State) : State := { s with port := { clock := [], host := [e], schedule := [.host] } }

/-- `RESET` offered. -/
def resetting (s : State) : State := { s with port := { clock := [], host := [], schedule := [.driver] } }

/-- A faulted state. -/
def faulted : State :=
  { start with fault := some { cause := .tableNotLoaded, word := some 0x10000000#32 } }

/-- A question about the next state, `none` if there is no next state. -/
def ask {α : Type} (o : Host.Outcome State Fault Refusal) (q : State → α) : Option α :=
  match o with
  | .next t => some (q t)
  | .fault _ => none
  | .refused _ => none

/-! ## WellFormed -/

theorem test_wellFormed_class7_takes_0xE : (Instr.midiStatusClass7 3#4 0xE#4).wellFormed = true := by decide

/-- The ill-formed term: 0xFF is MIDI_RESET (R62). -/
theorem test_wellFormed_class7_refuses_0xF : (Instr.midiStatusClass7 3#4 0xF#4).wellFormed = false := by decide

/-! ## Decode: words written out from the patterns of R55–R58, bytes from R62–R64 -/

theorem test_decode_tick : decodeCommand 0b00010000000000000011110011111111#32 = .ok (.tick 60#8 255#8) := by decide

theorem test_decode_setStep : decodeCommand 0b00100000000000000000010000000000#32 = .ok (.setStep 0x0400#16) := by decide

theorem test_decode_midiByte : decodeCommand 0b00110000000000000000111110010000#32 = .ok (.midiByte 15#4 0x90#8) := by
  decide

theorem test_decode_loadTable : decodeCommand 0b01000000000000001000000000000001#32 = .ok (.loadTable 0x8001#16) := by
  decide

theorem test_decode_midi_rows :
    decodeMidi 1#4 0b11111111#8 = .midiReset 1#4 ∧ decodeMidi 1#4 0b01111111#8 = .midiData 1#4 127#7 ∧
    decodeMidi 1#4 0b10000101#8 = .midiNoteOff 1#4 5#4 ∧ decodeMidi 1#4 0b10010101#8 = .midiNoteOn 1#4 5#4 ∧
    decodeMidi 1#4 0b10100101#8 = .midiStatusClass2 1#4 5#4 ∧ decodeMidi 1#4 0b10110101#8 = .midiControlChange 1#4 5#4 ∧
    decodeMidi 1#4 0b11000101#8 = .midiProgramChange 1#4 5#4 ∧
    decodeMidi 1#4 0b11010101#8 = .midiStatusClass5 1#4 5#4 ∧ decodeMidi 1#4 0b11100101#8 = .midiPitchBend 1#4 5#4 ∧
    decodeMidi 1#4 0b11111110#8 = .midiStatusClass7 1#4 14#4 := by decide

/-- The illegal words of spec/95 section 3.1. -/
theorem test_decode_illegal :
    ([0x00000000#32, 0x50000000#32, 0xF0000000#32, 0x10010000#32, 0x28000000#32, 0x30001090#32, 0x30008000#32].all
      fun w => (decodeCommand w).toOption.isNone) = true := by decide

/-- `0x10003CFF` travels as `FF 3C 00 10` (spec/95 section 3.1). -/
theorem test_decode_bytes :
    decodeBytes [0xFF#8, 0x3C#8, 0x00#8, 0x10#8, 0x77#8] = .ok (.tick 60#8 255#8, [0x77#8]) := by decide

theorem test_encode_words :
    encode (.tick 60#8 255#8) = .command 0x10003CFF#32 ∧ encode (.setStep 0x0400#16) = .command 0x20000400#32 ∧
    encode (.midiByte 15#4 0xFF#8) = .command 0x30000FFF#32 ∧ encode (.loadTable 0xFFFF#16) = .command 0x4000FFFF#32 ∧
    encode (.midiPitchBend 1#4 5#4) = .midi 1#4 0xE5#8 ∧ encode (.midiData 1#4 0x41#7) = .midi 1#4 0x41#8 := by decide

/-! ## One step of each instruction -/

/-- spec/95 section 3.7, last row: slot 30 at phase 0x8000 with `k = 255`. -/
theorem test_tick : ask (exec (.tick 30#8 255#8) (loaded 0x8000#16)) (fun t =>
      (t.phase, t.integ0.toInt, t.integ1.toInt, t.out)) = some (0x8000#16, 16065, 15810, some 189#8) := by
  decide +kernel

/-- spec/95 section 3.8: `TICK 61, 5` after `LOAD 0`. -/
theorem test_tick_slotRange : ask (exec (.tick 61#8 5#8) (loaded 0x8000#16)) (fun t => (t.phase, t.out, t.fault)) =
      some (0#16, none, some { cause := .slotRange 61#8, word := some 0x10003D05#32 }) := by decide +kernel

/-- spec/95 section 3.4, last row. -/
theorem test_setStep :
    ask (exec (.setStep 0x0400#16) (loaded 0#16)) (fun t => (t.stepReg, t.phase)) = some (0x0400#16, 0#16) := by
  decide +kernel

/-- spec/95 section 3.2: `LOAD 1`, slots 15 and 60. -/
theorem test_loadTable : ask (exec (.loadTable 1#16) start) (fun t => (t.tbl[15]?, t.tbl[60]?, t.tblOffset, t.tblValid)) =
      some (some ⟨some 1#8, some 0#8, 127#8, false⟩, some ⟨some 1#8, some 1#8, 0#8, true⟩, 12#16, true) := by
  decide +kernel

/-- spec/95 section 3.8: `LOAD 2` after `LOAD 0` keeps table 0. -/
theorem test_loadTable_blobInvalid : ask (exec (.loadTable 2#16) (loaded 0#16)) (fun t => (t.tblOffset, t.tblValid, t.fault)) =
      some (5#16, true, some { cause := .blobInvalid 12, word := some 0x40000002#32 }) := by decide +kernel

/-- `MIDI 0xC5, 9` (R97). -/
theorem test_midiByte : ask (exec (.midiByte 9#4 0xC5#8) (parsing 0x90#8 1#2 2#2)) (fun t => (t.rs, t.dcount, t.dlimit)) =
      some (0xC5#8, 0#2, 1#2) := by decide +kernel

/-- `MIDI 0xFF, 3` in the middle of a message (R96). -/
theorem test_midiReset : ask (exec (.midiReset 3#4) (parsing 0x90#8 1#2 2#2)) (fun t => (t.resetFlag, t.rs, t.dcount, t.dlimit)) =
      some (true, 0x90#8, 1#2, 2#2) := by decide +kernel

/-- The last byte of a note-on with velocity 0 (spec/95 section 3.6, second row). -/
theorem test_midiData_note_on : ask (exec (.midiData 0#4 0#7) (parsing 0x90#8 1#2 2#2)) (fun t =>
      (t.note, t.vel, t.gate, t.dcount)) = some (0x40#7, 0#7, true, 0#2) := by decide +kernel

/-- The byte of another channel (spec/95 section 3.6, sixth row). -/
theorem test_midiData_filtered : ask (exec (.midiData 0#4 0x11#7) (parsing 0x93#8 1#2 2#2)) (fun t =>
      (t.vel, t.dbuf1, t.dcount)) = some (0x60#7, 0#7, 1#2) := by decide +kernel

theorem test_midiNoteOff : ask (exec (.midiNoteOff 0#4 5#4) (parsing 0x90#8 1#2 2#2)) (fun t => (t.rs, t.dcount, t.dlimit)) =
      some (0x85#8, 0#2, 2#2) := by decide +kernel

theorem test_midiNoteOn : ask (exec (.midiNoteOn 0#4 5#4) (parsing 0x80#8 1#2 2#2)) (fun t => (t.rs, t.dcount, t.dlimit)) =
      some (0x95#8, 0#2, 2#2) := by decide +kernel

theorem test_midiStatusClass2 : ask (exec (.midiStatusClass2 0#4 5#4) (parsing 0x80#8 1#2 2#2)) (fun t =>
      (t.rs, t.dcount, t.dlimit)) = some (0xA5#8, 0#2, 0#2) := by decide +kernel

theorem test_midiControlChange : ask (exec (.midiControlChange 0#4 5#4) (parsing 0x80#8 1#2 2#2)) (fun t =>
      (t.rs, t.dcount, t.dlimit)) = some (0xB5#8, 0#2, 2#2) := by decide +kernel

theorem test_midiProgramChange : ask (exec (.midiProgramChange 0#4 5#4) (parsing 0x80#8 1#2 2#2)) (fun t =>
      (t.rs, t.dcount, t.dlimit)) = some (0xC5#8, 0#2, 1#2) := by decide +kernel

theorem test_midiStatusClass5 : ask (exec (.midiStatusClass5 0#4 5#4) (parsing 0x80#8 1#2 2#2)) (fun t =>
      (t.rs, t.dcount, t.dlimit)) = some (0xD5#8, 0#2, 0#2) := by decide +kernel

theorem test_midiPitchBend : ask (exec (.midiPitchBend 0#4 5#4) (parsing 0x80#8 1#2 2#2)) (fun t =>
      (t.rs, t.dcount, t.dlimit)) = some (0xE5#8, 0#2, 2#2) := by decide +kernel

theorem test_midiStatusClass7 : ask (exec (.midiStatusClass7 0#4 8#4) (parsing 0x80#8 1#2 2#2)) (fun t =>
      (t.rs, t.dcount, t.dlimit)) = some (0xF8#8, 0#2, 0#2) := by decide +kernel

/-- The dispatches at a second data byte: note-off (held and other), controller change, pitch bend, program change (R102–R105). -/
theorem test_dispatch :
    ask (exec (.midiData 1#4 0x7F#7) (parsing 0x81#8 1#2 2#2)) (fun t => (t.gate, t.note, t.vel)) =
      some (false, 0x40#7, 0x60#7) ∧
    ask (exec (.midiData 1#4 0x64#7) (parsing 0xB1#8 1#2 2#2)) (fun t => (readCtrl 0x40#7 t, readCtrl 0x41#7 t)) =
      some (0x64#7, 0#7) ∧
    ask (exec (.midiData 1#4 0x01#7) (parsing 0xE1#8 1#2 2#2)) (fun t => t.bend) = some 0xC0#14 ∧
    ask (exec (.midiData 1#4 0x05#7) (parsing 0xC1#8 0#2 1#2)) (fun t => (t.prog, t.dcount)) = some (5#7, 0#2) := by
  decide +kernel

/-! ## Functions (spec/95 sections 3.2 to 3.5) -/

theorem test_blendFactor :
    [blendFactor 61 59 0 60, blendFactor 61 31 0 60, blendFactor 61 6 0 7, blendFactor 61 60 60 60] =
      [251, 132, 219, 0] := by decide +kernel

theorem test_sfp : [sfp wave0 0x01FF#16, sfp wave0 0x7FFF#16, sfp wave0 0x8000#16, sfp wave2 0xC000#16] =
    [1#8, 127#8, 128#8, 128#8] := by decide +kernel

theorem test_crossfade : [crossfade 128#8 100#8 200#8, crossfade 255#8 0#8 255#8, crossfade 1#8 0#8 255#8] =
    [150#8, 254#8, 0#8] := by decide

theorem test_filterFeed :
    filterFeed cfg0 32767 255 (-128) = (-32258, -127) ∧
    filterFeed { cfg0 with q8Div := .trunc } (-257) 1 0 = (-256, -1) ∧
    filterFeed { cfg0 with deltaMode := .wrap16 } (-32768) 255 127 = (-32768, -128) := by decide +kernel

theorem test_freqToStep : freqToStep 440 16000 = some 1802#16 ∧ freqToStep (159999 / 10) 16000 = none ∧
    freqToStep (3 * 16000 / 131072) 16000 = some 2#16 := by decide +kernel

/-- The lines of R70 and R71. -/
theorem test_assemble :
    assembleProgram 16000 ['T', 'I', 'C', 'K', ' ', '6', '0', ',', ' ', '0', 'x', 'F', 'F', ' ', ';', 'a', '\n', 'R', 'E',
      'S', 'E', 'T', 'R', 'E', 'Q'] = some [0x10003CFF#32, 0x300000FF#32] := by decide +kernel

theorem test_withFetchWord : ask (step (State.reset.withFetchWord 8 0x90)) (fun t => (t.rs, t.dlimit)) =
    some (0x90#8, 2#2) := by decide +kernel

/-! ## Witnesses: for each statement with hypotheses, values that meet them, each clause at a boundary -/

theorem witness_DecodeOfEncode :
    (Instr.midiStatusClass7 15#4 0xE#4).wellFormed = true ∧ (Instr.tick 255#8 255#8).wellFormed = true := by decide

theorem witness_EncodeOfDecode : decode (.command 0x30000FFF#32) = .ok (.midiByte 15#4 0xFF#8) ∧
    decode (.midi 15#4 0xFE#8) = .ok (.midiStatusClass7 15#4 0xE#4) := by decide

theorem witness_DecoderFollowsTheOpcodeTable :
    (0x1000FFFF#32 &&& 0xFFFF0000 = 0x10000000 ∧ 0x2000FFFF#32 &&& 0xFFFF0000 = 0x20000000 ∧
      0x30000FFF#32 &&& 0xFFFFF000 = 0x30000000 ∧ 0x4000FFFF#32 &&& 0xFFFF0000 = 0x40000000) ∧
    (0xFF#8 &&& 0xFF = 0xFF ∧ 0x7F#8 &&& 0x80 = 0x00 ∧ 0x8F#8 &&& 0xF0 = 0x80 ∧ 0x9F#8 &&& 0xF0 = 0x90 ∧
      0xAF#8 &&& 0xF0 = 0xA0 ∧ 0xBF#8 &&& 0xF0 = 0xB0 ∧ 0xCF#8 &&& 0xF0 = 0xC0 ∧ 0xDF#8 &&& 0xF0 = 0xD0 ∧
      0xEF#8 &&& 0xF0 = 0xE0 ∧ 0xFE#8 &&& 0xF0 = 0xF0 ∧ (0xFE#8 : Byte) ≠ 0xFF) := by decide

/-- The illegal condition at each of its boundaries, and the legal words beside them. -/
def illegalCond (w : Word) : Bool :=
  decide (w.toNat / 2 ^ 28 = 0 ∨ 5 ≤ w.toNat / 2 ^ 28 ∨ w.toNat / 2 ^ 16 % 2 ^ 12 ≠ 0 ∨
    (w.toNat / 2 ^ 28 = 3 ∧ w.toNat / 2 ^ 12 % 2 ^ 4 ≠ 0))

theorem witness_IllegalWords :
    (start.fault = none ∧ (offered (.command 0x30001000#32) start).port.take = some (.command 0x30001000#32, Port.empty)) ∧
    ([0x0FFFFFFF#32, 0x50000000#32, 0xF0000000#32, 0x10010000#32, 0x48000000#32, 0x30001000#32, 0x30008000#32].all
      illegalCond) = true ∧
    ([0x10000000#32, 0x1000FFFF#32, 0x2000FFFF#32, 0x30000FFF#32, 0x4000FFFF#32].all fun w => !illegalCond w) = true := by
  decide +kernel

theorem witness_StepRunsTheDecodedCommand :
    start.fault = none ∧ (offered (.command 0x20000400#32) start).port.take = some (.command 0x20000400#32, Port.empty) ∧
    decodeCommand 0x20000400#32 = .ok (.setStep 0x0400#16) := by decide +kernel

theorem witness_FetchWordRunsTheTableWord :
    start.fault = none ∧ decodeTableWord 32 0x4000FFFF = some (.loadTable 0xFFFF#16) ∧
    decodeTableWord 8 0xFF = some (.midiReset 0#4) := by decide +kernel

theorem witness_CommandBytesAreLittleEndian :
    decodeCommand 0x4000FFFF#32 = .ok (.loadTable 0xFFFF#16) ∧
    decodeCommand 0x50000000#32 = .error (.unknownOpcode 5#4) := by decide

theorem witness_AssembledCommandsDecode :
    ((255 ≤ 255 ∧ 255 ≤ 255) ∧ ¬ (256 ≤ 255 ∧ 0 ≤ 255) ∧ ¬ (0 ≤ 255 ∧ 256 ≤ 255)) ∧ (65535 ≤ 65535 ∧ ¬ 65536 ≤ 65535) ∧
    ((255 ≤ 255 ∧ 15 ≤ 15) ∧ ¬ (256 ≤ 255 ∧ 0 ≤ 15) ∧ ¬ (0 ≤ 255 ∧ 16 ≤ 15)) := by decide

theorem witness_PseudoInstructionsExpand :
    freqToStep (131069 / 131072 * 16000) 16000 = some 65535#16 ∧ freqToStep (131071 / 131072 * 16000) 16000 = none := by
  decide +kernel

theorem witness_IdleBlockKeepsItsState : start.port.take = none := by decide +kernel

theorem witness_EveryInterleavingIsAdmitted :
    ([.inl 0x10000000#32, .inr (.inr ()), .inr (.inl (.read .out))] : List (Word ⊕ HostAction ⊕ Unit)).filterMap
      (fun x => match x with | .inl w => some w | _ => none) = [0x10000000#32] ∧
    ([.inl 0x10000000#32, .inr (.inr ()), .inr (.inl (.read .out))] : List (Word ⊕ HostAction ⊕ Unit)).filterMap
      (fun x => match x with | .inr (.inl a) => some a | _ => none) = [HostAction.read .out] := by decide

theorem witness_FaultedBlockAcceptsNoCommand :
    faulted.fault = some { cause := .tableNotLoaded, word := some 0x10000000#32 } ∧
    (offered (.command 0x20000001#32) faulted).port.take = some (.command 0x20000001#32, Port.empty) ∧
    (resetting faulted).port.take = some (.reset, Port.empty) ∧
    ask (step (resetting faulted)) (fun t => t.fault) = some none := by decide +kernel

/-- A fault kept, a fault cleared, a command's fault and a read's fault. -/
theorem witness_FaultsArePreciseAndTheFirstIsKept :
    ask (step (offered (.read .out) faulted)) (fun t => t.fault) = some faulted.fault ∧
    ask (step (resetting faulted)) (fun t => t.fault) = some none ∧
    ask (step (offered (.command 0x10003D05#32) start)) (fun t => t.fault) =
      some (some { cause := .tableNotLoaded, word := some 0x10003D05#32 }) ∧
    ask (step (offered (.read .out) start)) (fun t => t.fault) =
      some (some { cause := .outUnwritten, word := none }) := by decide +kernel

/-- A second integrator that is there, the last slot, an unwritten OUT. -/
theorem witness_HostReadsEveryRegister :
    (offered (.read (.integ 1)) start).port.take = some (.read (.integ 1), Port.empty) ∧ start.cfg.nfilt = .two ∧
    (offered (.read (.tbl 60 .left)) start).port.take = some (.read (.tbl 60 .left), Port.empty) ∧ 60 < start.tbl.length ∧
    (start.tbl[60]?).isSome = true ∧
    (offered (.read .out) start).port.take = some (.read .out, Port.empty) ∧ start.out = none ∧ start.fault = none ∧
    { start with out := some 255#8 }.out = some 255#8 := by decide +kernel

theorem witness_AbsentPortsAreRefused :
    ({ cfg0 with nfilt := .one } : Params).nfilt = .one ∧
    (offered (.read (.integ 1)) start).port.take = some (.read (.integ 1), Port.empty) ∧
    start.tbl.length ≤ 61 ∧ (offered (.read (.tbl 61 .key)) start).port.take = some (.read (.tbl 61 .key), Port.empty) := by
  decide +kernel

theorem witness_ResetSetsEveryRegister : (resetting faulted).port.take = some (.reset, Port.empty) := by decide +kernel

/-- The last defined step and the first undefined frequency at 16000 Hz. -/
theorem witness_FreqToStepRoundsHalfUp :
    ((0 : ℚ) ≤ 0 ∧ 0 < 16000 ∧ (0 : ℚ) < (16000 : ℚ) * (131071 / 131072)) ∧
    ((15999 : ℚ) < (16000 : ℚ) * (131071 / 131072)) ∧
    ((16000 : ℚ) * (131071 / 131072) ≤ (16000 : ℚ) * (131071 / 131072)) := by norm_num

theorem witness_SampleMirrorsTheFirstHalf : (0x7FFF#16).toNat < 32768 ∧ 32768 ≤ (0x8000#16).toNat := by decide

/-- Entries of factor 0 and 255, and equal samples. -/
theorem witness_MixIsTheExactCrossfade :
    cfg0.waves[(2#8).toNat]? = some wave2 ∧ cfg0.waves[(0#8).toNat]? = some wave0 ∧
    (⟨some 0#8, some 2#8, 0#8, true⟩ : Entry).factor = 0 ∧ (⟨some 0#8, some 2#8, 255#8, false⟩ : Entry).factor = 255 ∧
    sfp wave0 0#16 = sfp wave0 0#16 := by decide +kernel

theorem witness_SaturatingAddClamps :
    (32767 : Int) < 32767 + 1 ∧ (-32768 : Int) + -1 < -32768 ∧ (-32768 : Int) ≤ -32768 + 0 ∧ (32767 : Int) + 0 ≤ 32767 := by
  decide

theorem witness_QuotientRoundsByItsMode :
    (-32768 : Int) ≤ -32768 ∧ (32767 : Int) ≤ 32767 ∧ ((0 : Int) ≤ 0 ∨ (0 : Int) % 256 = 0) ∧ (-256 : Int) % 256 = 0 ∧
    (-1 : Int) < 0 ∧ (-1 : Int) % 256 ≠ 0 := by decide

/-- `DELTA_MODE = WRAP16` with the delta of spec/95 section 3.5, row 6: 65025 wraps to -511. -/
theorem witness_FilterStepIsTheLeakyIntegrator :
    (-32768 : Int) ≤ -32768 ∧ (0 : Int) ≤ 255 ∧ (255 : Int) ≤ 255 ∧ (127 : Int) ≤ 127 ∧ cfg0.deltaMode = .exact ∧
    ({ cfg0 with deltaMode := .wrap16 } : Params).deltaMode = .wrap16 ∧ (-32768 : Int) ≤ -511 ∧ (-511 : Int) ≤ 32767 ∧
    (-511 - (127 - q8 .floor (-32768)) * 255) % 65536 = 0 ∧ (-1 : Int) = q8 .floor (-256) := by decide +kernel

theorem witness_FilterConvergesToItsInput :
    cfg0.q8Div = .floor ∧ cfg0.deltaMode = .exact ∧ (-32768 : Int) ≤ -32768 ∧ (1 : Int) ≤ 1 ∧ (1 : Int) ≤ 255 ∧
    (127 : Int) ≤ 127 ∧ q8 .floor (-32768) ≤ 127 ∧ (-128 : Int) ≤ q8 .floor 32767 := by decide +kernel

/-- The last slot of table 0 and a middle one. -/
theorem witness_TicksConvergeToTheSample :
    (loaded 0#16).cfg.q8Div = .floor ∧ (loaded 0#16).cfg.deltaMode = .exact ∧ (loaded 0#16).stepReg = 0 ∧ (1#8 : Byte) ≠ 0 ∧
    (loaded 0#16).tblValid = true ∧ (60#8).toNat < (loaded 0#16).cfg.tableSize ∧
    (loaded 0#16).tbl[60]? = some ⟨some 1#8, some 1#8, 0#8, true⟩ ∧ (loaded 0#16).cfg.waves[1]? = some wave1 ∧
    (loaded 0#16).tbl[30]? = some ⟨some 0#8, some 1#8, 127#8, false⟩ ∧ (loaded 0#16).cfg.waves[0]? = some wave0 := by
  decide +kernel

theorem witness_TickRunsThePipeline :
    ((0x10010000#32).toNat / 2 ^ 28 = 1 ∧ (0x10010000#32).toNat / 2 ^ 16 % 2 ^ 12 ≠ 0) ∧
    (start.fault = none ∧ start.tblValid = false) ∧
    ((loaded 0#16).fault = none ∧ (loaded 0#16).tblValid = true ∧ (loaded 0#16).cfg.tableSize ≤ (61#8).toNat) ∧
    ((60#8).toNat < (loaded 0#16).cfg.tableSize ∧ (loaded 0#16).tbl[60]? = some ⟨some 1#8, some 1#8, 0#8, true⟩ ∧
      (loaded 0#16).cfg.waves[1]? = some wave1 ∧ (loaded 0#16).cfg.nfilt = .two) ∧
    ({ cfg0 with nfilt := .one } : Params).nfilt = .one := by decide +kernel

/-- A valid table with a `null` reference, with a reference past the ROM, and too short: states no run reaches. -/
theorem witness_TickStopsWithoutASample :
    ([] : List Entry)[(60#8).toNat]? = none ∧ (60#8).toNat < cfg0.tableSize ∧
    (List.replicate 61 Entry.cleared)[(60#8).toNat]? = some Entry.cleared ∧ Entry.cleared.left = none ∧
    Entry.cleared.right = none ∧ cfg0.waves.length ≤ (3#8).toNat := by decide +kernel

/-- A loaded table, with the first and the last slot ticked. -/
theorem witness_PhaseReturnsAfterItsPeriod :
    (loaded 0x8000#16).fault = none ∧ (loaded 0x8000#16).tblValid = true ∧
    LoadedTable (loaded 0x8000#16).cfg (loaded 0x8000#16).tbl ∧ (0#8).toNat < (loaded 0x8000#16).cfg.tableSize ∧
    (60#8).toNat < (loaded 0x8000#16).cfg.tableSize := by decide +kernel

/-- The last slot of a loaded table, and the two orders of the two offers, worked by hand: `OUT` from spec/95 section 3.7,
row 4, and the status byte of R97. -/
theorem witness_TickAndMidiByteCommute :
    ((loaded 0x4000#16).fault = none ∧ (loaded 0x4000#16).tblValid = true ∧ (60#8).toNat < (loaded 0x4000#16).cfg.tableSize) ∧
    ([[.sampleClock, .host], [.host, .sampleClock]] : List (List Agent)).map (fun order =>
      ask (runSteps 2 { loaded 0x4000#16 with
        port := { clock := [0x10003CFF#32], host := [.command 0x30000390#32], schedule := order } })
        (fun t => (t.out, t.rs))) = [some (some 0#8, 0x90#8), some (some 0#8, 0x90#8)] := by decide +kernel

/-- One instruction of each of the four writers completes. -/
theorem witness_EachRegisterHasOneWriter :
    (∃ t, exec (.tick 0#8 0#8) start = .next t) ∧ (∃ t, exec (.setStep 1#16) start = .next t) ∧
    (∃ t, exec (.loadTable 0#16) start = .next t) ∧ (∃ t, exec (.midiByte 0#4 0#8) start = .next t) :=
  ⟨⟨_, rfl⟩, ⟨_, rfl⟩, ⟨_, rfl⟩, ⟨_, rfl⟩⟩

theorem witness_RomsAndParametersNeverChange :
    (ask (step (offered (.command 0x40000001#32) start)) fun t => t.tblOffset) = some 12#16 := by decide +kernel

/-- The flag set and the flag cleared. -/
theorem witness_ResetFlagIsSticky :
    ask (step (offered (.command 0x300003FF#32) start)) (fun t => (start.resetFlag, t.resetFlag)) = some (false, true) ∧
    ask (step (resetting { start with resetFlag := true })) (fun t => t.resetFlag) = some false := by decide +kernel

/-- Table 0 of the test blob. -/
def desc0 : Descriptor := { ignored := 0#8, inner := [(0#8, 0#8)], last := (1#8, 0x3C#8) }

/-- Table 1 of the test blob. -/
def desc1 : Descriptor := { ignored := 0#8, inner := [(1#8, 0#8), (0#8, 0x1E#8)], last := (1#8, 0x3C#8) }

/-- Both descriptors of the test blob pass the checks of R77. -/
theorem test_descriptors_accepted : desc0.Accepted cfg0 ∧ desc1.Accepted cfg0 := by
  simp [desc0, desc1, Descriptor.Accepted, InnerPair, LastPair, Descriptor.pairs, cfg0, Params.nwaves]

theorem witness_LoadTableInterpolatesTheKeyFrames :
    cfg0.wf = true ∧ [desc0].length = (1#16).toNat ∧ cfg0.blob = [desc0].flatMap Descriptor.bytes ++ desc1.bytes ++ [] ∧
    (∀ b ∈ [desc0], b.Accepted cfg0) ∧ desc1.Accepted cfg0 ∧ (∃ p ∈ desc1.pairs, p.2.toNat = 30) ∧
    (∃ p ∈ desc1.pairs, p.2.toNat = 60) ∧ (∀ p ∈ desc1.pairs, ¬ (30 < p.2.toNat ∧ p.2.toNat < 60)) ∧ 30 ≤ 59 ∧ 59 < 60 :=
  ⟨by decide +kernel, rfl, by decide +kernel, by simpa using test_descriptors_accepted.1, test_descriptors_accepted.2,
    by simp [desc1, Descriptor.pairs], by simp [desc1, Descriptor.pairs], by simp [desc1, Descriptor.pairs], by simp, by simp⟩

/-- A blob that ends after table 0; one that ends inside a pair; slot 61; waveform 3; no key frame at slot 0. -/
theorem witness_IllFormedTablesRaiseBlobInvalid :
    (start.fault = none ∧ [desc0].length ≤ (1#16).toNat ∧ (∀ b ∈ [desc0], b.Accepted cfg0)) ∧
    (∀ p ∈ [((0#8 : Byte), (59#8 : Byte))], InnerPair cfg0 p) ∧ ([0#8] : List Byte).length ≤ 1 ∧
    (cfg0.tableSize ≤ (61#8).toNat ∧ cfg0.nwaves ≤ (3#8).toNat) ∧ LastPair cfg0 (2#8, 60#8) ∧
    (∀ q ∈ [((0#8 : Byte), (1#8 : Byte))] ++ [(2#8, 60#8)], q.2 ≠ 0) :=
  ⟨⟨rfl, by simp, by simpa using test_descriptors_accepted.1⟩, by simp [InnerPair, cfg0, Params.nwaves], by simp,
    by decide +kernel, by decide +kernel, by simp⟩

theorem witness_LaterTablesEndLater :
    cfg0.wf = true ∧ start.fault = none ∧ (0#16).toNat + 1 < 65536 ∧
    ask (exec (.loadTable 0#16) start) (fun t => t.fault) = some none ∧
    ask (exec (.loadTable (0#16 + 1)) start) (fun t => t.fault) = some none := by decide +kernel

theorem witness_KeyFramesSampleTheirWaveform :
    LoadedTable cfg0 (loaded 0#16).tbl ∧ (loaded 0#16).tbl[60]? = some ⟨some 1#8, some 1#8, 0#8, true⟩ ∧
    cfg0.waves[(1#8).toNat]? = some wave1 := by decide +kernel

theorem witness_BlendFactorTruncatesTwice : (0 ≤ 59 ∧ 59 < 60 ∧ 60 < 61) ∧ (0 = 0) ∧ (58 + 1 < 60) := by decide

theorem witness_LoadTableLeavesALoadedTable :
    start.fault = none ∧ ask (exec (.loadTable 1#16) start) (fun t => t.fault) = some none := by decide +kernel

/-- The first and the last status byte. -/
theorem witness_StatusBytesStartAMessage :
    (0x80 ≤ (0x80#8).toNat ∧ (0x80#8 : Byte) ≠ 0xFF) ∧ (0x80 ≤ (0xFE#8).toNat ∧ (0xFE#8 : Byte) ≠ 0xFF) := by decide

/-- `SET_STEP` words with reserved bit 16 and with reserved bit 27 set. -/
theorem witness_SetStepWritesOnlyStep :
    ((0x20010000#32).toNat / 2 ^ 28 = 2 ∧ (0x20010000#32).toNat / 2 ^ 16 % 2 ^ 12 ≠ 0) ∧
    ((0x28000000#32).toNat / 2 ^ 28 = 2 ∧ (0x28000000#32).toNat / 2 ^ 16 % 2 ^ 12 ≠ 0) := by decide

/-- The flag set, and a step that keeps it. -/
theorem witness_SentinelSetsTheResetFlag :
    ask (step (offered (.command 0x20000001#32) { start with resetFlag := true })) (fun t => (t.resetFlag, t.stepReg)) =
      some (true, 1#16) := by decide +kernel

theorem witness_FF_ALSO_STATUS :
    cfg0.ffAlsoStatus = false ∧ ({ cfg0 with ffAlsoStatus := true } : Params).ffAlsoStatus = true := by decide

/-- Awaiting status; another channel; and the three ways an accepted byte is taken. -/
theorem witness_DataBytesBufferAndDispatch :
    (parsing 0xF8#8 0#2 0#2).dlimit = 0 ∧ (parsing 0x93#8 0#2 2#2).rs.extractLsb' 0 4 ≠ 2#4 ∧
    ((parsing 0x93#8 0#2 2#2).rs.extractLsb' 0 4 = 3#4 ∧ (parsing 0x93#8 0#2 2#2).dlimit = 2 ∧
      (parsing 0x93#8 0#2 2#2).dcount = 0 ∧ (parsing 0x93#8 1#2 2#2).dcount = 1) ∧
    ((parsing 0xC3#8 0#2 1#2).dlimit = 1 ∧ (parsing 0xC3#8 0#2 1#2).dcount = 0) := by decide +kernel

/-- Between messages of a class of two data bytes, and of one. -/
theorem witness_RunningStatusRepeatsTheMessage :
    ((parsing 0x90#8 0#2 2#2).dcount = 0 ∧ (parsing 0x90#8 0#2 2#2).dlimit = 2) ∧
    ((parsing 0xC0#8 0#2 1#2).dcount = 0 ∧ (parsing 0xC0#8 0#2 1#2).dlimit = 1) := by decide +kernel

theorem witness_FilteredMessageLeavesTheChannelState : (1#4 : Channel) ≠ 0#4 := by decide

/-- A state with a loaded table, in the middle of a message, with a sample written, and a step it takes. -/
theorem witness_Inv :
    (let s := { loaded 0x4000#16 with rs := 0x93#8, dlimit := 2#2, dcount := 1#2, out := some 65#8 }
     s.cfg.wf = true ∧ TableOk s ∧ ParserOk s ∧ AudioOk s ∧ s.fault = none) ∧
    ask (step (offered (.command 0x10003CFF#32) (loaded 0x4000#16))) (fun t => (t.phase, t.out)) =
      some (0x4000#16, some 0#8) := by decide +kernel

theorem witness_InstancesAreIndependent :
    (∃ sys, stepInstance 1 [start, offered (.command 0x20000001#32) start] = .next sys) ∧ sharesRoms [start, start] = true :=
  ⟨⟨_, rfl⟩, by decide +kernel⟩

end Sys2Proof.Tests
end

section
/-! SUPPORT. What `RESET` and the reset state establish: the invariant, group by group, and the controllers and port
(R8, R128, spec/10_state.md section 1). -/

namespace Sys2Proof.Machine

/-- The OPEN parameters are cut to the ranges of R8 by `Config.params`, whatever values stand in for them. -/
theorem wf_configParams : Config.params.wf = true := by
  have hwaves : Config.params.nwaves ≤ 256 := by
    simp only [Params.nwaves, Config.params, List.length_cons, List.length_take]
    omega
  have hblob : Config.params.blobLen ≤ 65535 := List.length_take_le ..
  have hsome : 1 ≤ Config.params.nwaves := Nat.succ_pos _
  have hrate : 0 < Config.params.sampleRate := Nat.succ_pos _
  have hsize : 1 ≤ Config.params.tableSize := Nat.succ_pos _
  simp [Params.wf, *]

section AfterReset
variable (s : State)

/-- `RESET` leaves no table loaded (R26, R128). -/
theorem tableOk_resetBlock : TableOk (resetBlock s) := by
  refine ⟨?_, fun _ => ⟨rfl, rfl⟩⟩
  intro hvalid
  cases hvalid

/-- `RESET` leaves the parser waiting for its first status byte (R29, R128). -/
theorem parserOk_resetBlock : ParserOk (resetBlock s) := by
  have hdata : isStatus (resetBlock s).rs = false := by
    rw [resetBlock_rs]
    decide
  refine ⟨?_, fun _ => ⟨rfl, rfl⟩, fun hlimit => absurd rfl hlimit, fun _ => rfl⟩
  intro hstatus
  exact absurd hstatus (Bool.eq_false_iff.mp hdata)

/-- `RESET` leaves `OUT` unwritten and the audio registers 0 (R22, R128). -/
theorem audioOk_resetBlock : AudioOk (resetBlock s) :=
  ⟨fun hout => absurd rfl hout, fun _ => ⟨rfl, rfl, rfl⟩, fun _ => rfl⟩

/-- `RESET` leaves no fault recorded (R115, R128). -/
theorem faultOk_resetBlock : FaultOk (resetBlock s) := by
  intro r hr
  cases hr

/-- `RESET` clears every controller (R39, R128). -/
@[simp] theorem readCtrl_resetBlock (i : Payload) : readCtrl i (resetBlock s) = 0 := by
  simp only [readCtrl, resetBlock_ctrl, Vector.getElem_replicate]

variable {s}

/-- `RESET` establishes the invariant from any state whose parameters are in range (R8, R128). -/
theorem inv_resetBlock (hwf : s.cfg.wf = true) : Inv (resetBlock s) :=
  ⟨hwf, tableOk_resetBlock s, parserOk_resetBlock s, audioOk_resetBlock s, faultOk_resetBlock s⟩

end AfterReset

/-- The reset state, a fixed point of `RESET`, has every controller 0. -/
@[simp] theorem readCtrl_reset (i : Payload) : readCtrl i State.reset = 0 := by
  rw [← resetBlock_reset, readCtrl_resetBlock]

/-- An empty port offers nothing. -/
@[simp] theorem take_empty : Port.empty.take = none := rfl

end Sys2Proof.Machine
end

section
/-! PROOFS. The obligations about the reset state. -/

namespace Sys2Proof.Proofs

open Sys2Proof.Machine

/-- Settles O19: the four groups of the statement are the audio and table registers, the MIDI registers and the fault, the
parameters, and the port. Each value is a field of `State.reset`; the controllers and the port are read through lemmas. -/
theorem resetStateHasTheSpecsValues : Obligations.ResetStateHasTheSpecsValues := by
  refine ⟨?audioAndTable, ?midiAndFault, ?parameters, take_empty⟩
  case audioAndTable => exact ⟨rfl, rfl, rfl, rfl, rfl, rfl, rfl, rfl⟩
  case midiAndFault =>
    exact ⟨rfl, rfl, rfl, rfl, rfl, rfl, rfl, rfl, rfl, rfl, readCtrl_reset, rfl, rfl⟩
  case parameters => exact ⟨rfl, rfl, rfl, rfl, rfl⟩

/-- Settles O55: the reset state is its own image under `RESET`, which establishes the invariant over the parameters of
`Config.params`. -/
theorem resetStateMeetsTheInvariant : Obligations.ResetStateMeetsTheInvariant := by
  have hinv : Inv (resetBlock State.reset) := inv_resetBlock wf_configParams
  rwa [resetBlock_reset] at hinv

end Sys2Proof.Proofs
end

section
/-! SUPPORT. What an instruction and a step that complete have done, one constructor for each way to complete (R48, R79,
R110, R114, R115), and the rule of the port's next offer. -/

namespace Sys2Proof.Machine

/-- A step handles the port's next offer, on the state with the offer taken (R48). -/
theorem step_of_take {s : State} {e : Event} {p : Port} (htake : s.port.take = some (e, p)) :
    step s = handleEvent exec e (setPort p s) := by
  simp only [step, stepWith, htake]

/-- A block that is not faulted runs a word that decodes (R61, R119). -/
theorem presentCommand_of_decode (run : Instr → State → Host.Outcome State Fault Refusal) {w : Word} {i : Instr}
    {s : State} (hfault : s.fault = none) (hdecode : decodeCommand w = .ok i) : presentCommand run w s = run i s := by
  simp only [presentCommand, isFaulted, hfault, hdecode, Option.isSome_none, Bool.false_eq_true, if_false]

/-! ## The MIDI decoder -/

/-- Only the sentinel decodes to the row of the reset flag (R62). -/
theorem eq_sentinel_of_decodeMidi {chan c : Channel} {b : Byte} (h : decodeMidi chan b = .midiReset c) : b = 0xFF#8 := by
  unfold decodeMidi at h
  split_ifs at h with hb
  exact hb

/-- What a MIDI instruction that completes has done (R96–R99). -/
inductive MidiDone (s : State) : Instr → State → Prop
  /-- The sentinel, under its own row or in the command that carries it. -/
  | sentinel {i : Instr} (chan : Channel) (hi : i = .midiReset chan ∨ i = .midiByte chan 0xFF#8) :
      MidiDone s i (if s.cfg.ffAlsoStatus then acceptStatus 0xFF#8 (setResetFlag s) else setResetFlag s)
  /-- A status byte. -/
  | status {i : Instr} (b : Byte) (hb : isStatus b = true) : MidiDone s i (acceptStatus b s)
  /-- A data byte. -/
  | data {i : Instr} (chan : Channel) (d : Payload) : MidiDone s i (takeData chan d s)

/-- Every MIDI instruction takes the sentinel, a status byte or a data byte (R62, R95). -/
theorem midiDone_of_exec {i : Instr} (hi : isMidi i = true) {s t : State} (h : exec i s = .next t) :
    MidiDone s i t := by
  have row : ∀ j, isMidi j = true → (∀ c v, j ≠ .midiByte c v) → exec j s = .next t →
      (∀ c, j = .midiReset c → ∃ c', i = .midiReset c' ∨ i = .midiByte c' 0xFF#8) → MidiDone s i t := by
    intro j hj hne hexec hsentinel
    cases j with
    | tick => cases hj
    | setStep => cases hj
    | loadTable => cases hj
    | midiByte c v => exact absurd rfl (hne c v)
    | midiReset c =>
      cases hexec
      obtain ⟨c', hc'⟩ := hsentinel c rfl
      exact .sentinel c' hc'
    | midiData c d =>
      cases hexec
      exact .data c d
    | _ =>
      cases hexec
      exact .status _ (isStatus_statusOf ..)
  by_cases hcarried : ∃ chan b, i = .midiByte chan b
  · obtain ⟨chan, b, rfl⟩ := hcarried
    refine row (decodeMidi chan b) (isMidi_decodeMidi chan b) (decodeMidi_ne_midiByte chan b) ?_ ?_
    · rw [← execMidiByte_eq]
      exact h
    · intro c hc
      exact ⟨chan, .inr (by rw [eq_sentinel_of_decodeMidi hc])⟩
  · exact row i hi (fun c v hcv => hcarried ⟨c, v, hcv⟩) h fun c hc => ⟨c, .inl hc⟩

/-! ## Instructions -/

/-- What an instruction that completes has done. A fault is recorded with the command word of the instruction. -/
inductive Executed (s : State) : Instr → State → Prop
  | tick (slot k smp : Byte) (hvalid : s.tblValid = true) : Executed s (.tick slot k) (tickWith k smp s)
  | setStep (v : BitVec 16) : Executed s (.setStep v) (writeStep v s)
  | loadTable (index : BitVec 16) {E : List Entry} {off : Nat} (hload : loadNth s.cfg index.toNat 0 = .ok (E, off)) :
      Executed s (.loadTable index) (installTable E (BitVec.ofNat 16 off) s)
  | midi {i : Instr} {t : State} (hi : isMidi i = true) (hdone : MidiDone s i t) (hframe : MidiFrame s t) :
      Executed s i t
  | faulted {i : Instr} (cause : FaultCause) (word : Word) (hword : encode i = .command word)
      (hrecord : recordOk s.cfg { cause := cause, word := some word } = true) :
      Executed s i (raiseFault cause word s)

/-- An instruction that completes has done one of these (R110, R79, R85, R95, R114). -/
theorem executed_of_exec {i : Instr} {s t : State} (h : exec i s = .next t) : Executed s i t := by
  by_cases hmidi : isMidi i = true
  · obtain ⟨u, hu, hframe, -⟩ := exec_midi_frame hmidi s
    obtain rfl : u = t := by
      rw [hu] at h
      injection h
    exact .midi hmidi (midiDone_of_exec hmidi hu) hframe
  · cases i with
    | tick slot k =>
      change execTick slot k s = .next t at h
      rcases execTick_cases slot k s with ⟨-, he⟩ | ⟨-, hrange, he⟩ | ⟨hvalid, -, smp, -, he⟩ | ⟨-, -, -, he⟩ <;>
        rw [he] at h <;> cases h
      · exact .faulted .tableNotLoaded _ rfl (by simp [recordOk])
      · exact .faulted (.slotRange slot) _ rfl (by simp [recordOk, hrange])
      · exact .tick slot k smp hvalid
    | setStep v =>
      cases h
      exact .setStep v
    | loadTable index =>
      change execLoadTable index s = .next t at h
      rcases execLoadTable_cases index s with ⟨E, off, hload, he⟩ | ⟨a, hfail, he⟩ <;>
        rw [he] at h <;> cases h
      · exact .loadTable index hload
      · have hoffset : a ≤ s.cfg.blobLen := loadNth_error (Nat.zero_le _) hfail
        exact .faulted (.blobInvalid a) _ rfl (by simp [recordOk, hoffset])
    | _ => exact absurd rfl hmidi

/-! ## Steps -/

/-- What a step that completes has done (R34, R48, R60, R115, R127, R128). -/
inductive Stepped (s : State) : State → Prop
  | idle (htake : s.port.take = none) : Stepped s s
  | reset {p : Port} (htake : s.port.take = some (.reset, p)) : Stepped s (resetBlock (setPort p s))
  | ran {w : Word} {p : Port} {i : Instr} {t : State} (htake : s.port.take = some (.command w, p))
      (hfault : s.fault = none) (hdecode : decodeCommand w = .ok i) (hexec : Executed (setPort p s) i t) : Stepped s t
  | dropped {w : Word} {p : Port} {r : FaultRecord} (htake : s.port.take = some (.command w, p))
      (hfault : s.fault = some r) : Stepped s (setPort p s)
  | illegal {w : Word} {p : Port} {err : DecodeError} (htake : s.port.take = some (.command w, p))
      (hfault : s.fault = none) (hdecode : decodeCommand w = .error err) :
      Stepped s (raiseFault (.illegalCommand w) w (setPort p s))
  | answered {q : OutputPort} {p : Port} (htake : s.port.take = some (.read q, p)) : Stepped s (setPort p s)
  | unwritten {p : Port} (htake : s.port.take = some (.read .out, p)) (hout : s.out = none) :
      Stepped s (recordFault { cause := .outUnwritten, word := none } (setPort p s))

/-- A step that completes has done one of these. -/
theorem stepped_of_step {s t : State} (h : step s = .next t) : Stepped s t := by
  rcases step_cases s with ⟨htake, he⟩ | ⟨e, p, htake, he⟩
  · rw [he] at h
    cases h
    exact .idle htake
  rw [he] at h
  cases e with
  | reset =>
    cases h
    exact .reset htake
  | command w =>
    change presentCommand exec w (setPort p s) = .next t at h
    rcases presentCommand_cases exec w (setPort p s) with ⟨r, hfault, hc⟩ | ⟨hfault, i, hdecode, hc⟩ |
      ⟨hfault, ⟨err, hdecode⟩, hc⟩ <;> rw [hc] at h
    · cases h
      exact .dropped htake hfault
    · exact .ran htake hfault hdecode (executed_of_exec h)
    · cases h
      exact .illegal htake hfault hdecode
  | read q =>
    change hostRead q (setPort p s) = .next t at h
    rcases hostRead_cases q (setPort p s) with ⟨-, hr⟩ | ⟨rfl, hout, hr⟩ | ⟨-, hr⟩ <;> rw [hr] at h <;>
      cases h
    · exact .answered htake
    · exact .unwritten htake hout

end Sys2Proof.Machine
end

section
/-! SUPPORT. How each update of the state keeps the invariant (spec/10_state.md R22, R25, R26, R29, R113, R114). -/

namespace Sys2Proof.Machine

/-! ## Faults and tables -/

/-- Recording a fault that can be recorded keeps `FAULT` good: the first fault is kept (R114). -/
theorem faultOk_recordFault {r : FaultRecord} {s : State} (hfault : FaultOk s) (hr : recordOk s.cfg r = true) :
    FaultOk (recordFault r s) := by
  intro q hq
  rw [recordFault_fault, Option.mem_def] at hq
  rw [recordFault_cfg]
  cases hs : s.fault with
  | none =>
    rw [hs, firstFault_none, Option.some.injEq] at hq
    rwa [← hq]
  | some r' =>
    rw [hs, firstFault_some] at hq
    exact hfault q (hs.trans hq)

/-- Faults are precise, so a recorded fault keeps the other groups (R114). -/
theorem inv_recordFault {r : FaultRecord} {s : State} (h : Inv s) (hr : recordOk s.cfg r = true) :
    Inv (recordFault r s) := by
  obtain ⟨hwf, htable, hparser, haudio, hfault⟩ := h
  exact ⟨hwf, htable, hparser, haudio, faultOk_recordFault hfault hr⟩

/-- Installing what `load_nth` answers loads a table: the offset fits its register (R25, R27, R79). -/
theorem tableOk_installTable {s : State} {n off : Nat} {E : List Entry} (hwf : s.cfg.wf = true)
    (hload : loadNth s.cfg n 0 = .ok (E, off)) : TableOk (installTable E (BitVec.ofNat 16 off) s) := by
  obtain ⟨-, -, hblob, -, -⟩ := params_wf hwf
  obtain ⟨hloaded, -, hoff⟩ := loadNth_ok hload
  refine ⟨fun _ => ⟨hloaded, ?_⟩, fun hinvalid => ?_⟩
  · rw [installTable_tblOffset, installTable_cfg, BitVec.toNat_ofNat]
    exact (Nat.mod_le ..).trans hoff
  · cases hinvalid

/-! ## The parser -/

/-- A status byte starts a message with no data byte counted (R97). -/
theorem parserOk_acceptStatus {b : Byte} (hb : isStatus b = true) (s : State) : ParserOk (acceptStatus b s) := by
  refine ⟨fun _ => rfl, fun hdata => ?_, fun hlimit => ?_, fun _ => rfl⟩
  · exact absurd hb (Bool.eq_false_iff.mp hdata)
  · exact (BitVec.pos_iff_ne_zero _).2 hlimit

/-- A data byte keeps the status and the limit, and counts up to the limit, which it replaces by 0 (R98, R99). -/
theorem takeData_parser (chan : Channel) (d : Payload) (s : State) :
    (takeData chan d s).rs = s.rs ∧ (takeData chan d s).dlimit = s.dlimit ∧
      ((takeData chan d s).dcount = s.dcount ∨ (takeData chan d s).dcount = 0 ∨
        (s.dlimit ≠ 0 ∧ s.dcount + 1 ≠ s.dlimit ∧ (takeData chan d s).dcount = s.dcount + 1)) := by
  refine ⟨by rw [takeData_frame], by rw [takeData_frame], ?_⟩
  unfold takeData acceptPayload
  split_ifs with hawait hother hlast
  · exact .inl rfl
  · exact .inl rfl
  · exact .inr (.inl rfl)
  · exact .inr (.inr ⟨hawait, hlast, rfl⟩)

/-- A count below the limit that does not reach it when it goes up stays below it: it does not wrap. -/
theorem succ_lt_of_ne {c l : BitVec 2} (hlt : c < l) (hne : c + 1 ≠ l) : c + 1 < l := by
  revert c l
  decide

/-- A data byte keeps the parser's counters in range (R29, R99). -/
theorem parserOk_takeData (chan : Channel) (d : Payload) {s : State} (h : ParserOk s) :
    ParserOk (takeData chan d s) := by
  obtain ⟨hstatus, hdata, hcount, hzero⟩ := h
  obtain ⟨hrs, hlimit, hdcount⟩ := takeData_parser chan d s
  refine ⟨?_, ?_, ?_, ?_⟩ <;> rw [hlimit]
  · rwa [hrs]
  · rwa [hrs]
  · intro hne
    rcases hdcount with hc | hc | ⟨-, hlast, hc⟩ <;> rw [hc]
    · exact hcount hne
    · exact (BitVec.pos_iff_ne_zero _).2 hne
    · exact succ_lt_of_ne (hcount hne) hlast
  · intro heq
    rcases hdcount with hc | hc | ⟨hne, -, -⟩
    · rw [hc, hzero heq]
    · exact hc
    · exact absurd heq hne

/-- Whatever a MIDI instruction does keeps the parser's registers good (R28, R29). -/
theorem parserOk_of_midiDone {i : Instr} {s t : State} (h : ParserOk s) (hdone : MidiDone s i t) : ParserOk t := by
  cases hdone with
  | sentinel =>
    split_ifs
    · exact parserOk_acceptStatus (by decide) (setResetFlag s)
    · exact h
  | status b hb => exact parserOk_acceptStatus hb s
  | data chan d => exact parserOk_takeData chan d h

/-! ## Instructions -/

/-- A completed TICK on a valid table writes a sample, and nothing into an absent integrator (R22, R93, R110). -/
theorem audioOk_tickWith {s : State} (k smp : Byte) (hvalid : s.tblValid = true) (h : AudioOk s) :
    AudioOk (tickWith k smp s) := by
  obtain ⟨-, -, hsingle⟩ := h
  refine ⟨fun _ => hvalid, fun hout => ?_, fun hone => ?_⟩
  · cases hout
  · have hone : s.cfg.nfilt = .one := hone
    simp only [tickWith, writeAudio_integ1, cascade, hone]
    exact hsingle hone

/-- An update of MIDI registers only keeps the invariant if it keeps the parser's part (R108). -/
theorem inv_of_midiFrame {s t : State} (hframe : MidiFrame s t) (h : Inv s) (hparser : ParserOk t) : Inv t := by
  obtain ⟨hwf, htable, -, haudio, hfault⟩ := h
  rw [MidiFrame] at hframe
  rw [hframe] at hparser ⊢
  exact ⟨hwf, htable, hparser, haudio, hfault⟩

/-- Every instruction that completes keeps the invariant. -/
theorem inv_of_executed {i : Instr} {s t : State} (h : Inv s) (hexec : Executed s i t) : Inv t := by
  have ⟨hwf, htable, hparser, haudio, hfault⟩ := h
  cases hexec with
  | tick slot k smp hvalid => exact ⟨hwf, htable, hparser, audioOk_tickWith k smp hvalid haudio, hfault⟩
  | setStep => exact h
  | loadTable index hload =>
    exact ⟨hwf, tableOk_installTable hwf hload, hparser, ⟨fun _ => rfl, haudio.2⟩, hfault⟩
  | midi _ hdone hframe => exact inv_of_midiFrame hframe h (parserOk_of_midiDone hparser hdone)
  | faulted _ _ _ hrecord => exact inv_recordFault h hrecord

end Sys2Proof.Machine
end

section
/-! SUPPORT. Which ports a block has, when an entry has no sample, the word that carries a code, and what writes the
reset flag (R34, R57, R83, R96). -/

namespace Sys2Proof.Machine

/-! ## Output ports -/

/-- Taking an offer changes no register a port shows (R34). -/
@[simp] theorem readPort_setPort (q : OutputPort) (p : Port) (s : State) : readPort q (setPort p s) = readPort q s := by
  cases q <;> rfl

/-- The ports a block does not have: the second of one filter, and a slot past the table (R21, R34, log 6). -/
theorem readPort_eq_absent_iff {q : OutputPort} {s : State} :
    readPort q s = .absent ↔
      (q = .integ 1 ∧ s.cfg.nfilt = .one) ∨ ∃ i f, q = .tbl i f ∧ s.tbl.length ≤ i := by
  cases q with
  | integ j =>
    fin_cases j
    · simp [readPort]
    · cases hn : s.cfg.nfilt <;> simp [readPort, hn]
  | tbl i f =>
    cases he : s.tbl[i]? with
    | none => simp [readPort, List.getElem?_eq_none_iff.1 he]
    | some e =>
      obtain ⟨hi, -⟩ := List.getElem?_eq_some_iff.1 he
      simp [readPort, hi]
  | out => cases ho : s.out <;> simp [readPort, ho]
  | _ => simp [readPort]

/-- A port the block has, and that is written, shows a value and a read of it changes nothing (R34). -/
theorem hostRead_of_present {q : OutputPort} {s : State} (habsent : readPort q s ≠ .absent)
    (hwritten : q = .out → s.out ≠ none) : (∃ v, readPort q s = .value v) ∧ hostRead q s = .next s := by
  rcases hostRead_cases q s with hvalue | ⟨hq, hout, -⟩ | ⟨h, -⟩
  · exact hvalue
  · exact absurd hout (hwritten hq)
  · exact absurd h habsent

/-- A read of an unwritten `OUT` records the fault (R22, R113). -/
theorem hostRead_unwritten {s : State} (hout : s.out = none) :
    hostRead .out s = .next (recordFault { cause := .outUnwritten, word := none } s) := by
  simp only [hostRead, readPort, hout]

/-- A read of an absent port is refused (log 6). -/
theorem hostRead_absent {q : OutputPort} {s : State} (h : readPort q s = .absent) :
    hostRead q s = .refused (.noSuchPort q) := by
  simp only [hostRead, h]

/-- The controllers in their order (R39). -/
theorem readCtrl_eq_getD (i : Payload) (s : State) : readCtrl i s = s.ctrl.toList.getD i.toNat 0 := by
  have hi : i.toNat < s.ctrl.toList.length := by
    rw [Vector.length_toList]
    exact i.isLt
  rw [List.getD_eq_getElem _ _ hi, Vector.getElem_toList]
  rfl

/-! ## Entries without a sample -/

/-- A mix reads a waveform through each of the two references (R83). -/
theorem refs_of_mix_eq_some {cfg : Params} {e : Entry} {phase : BitVec 16} {smp : Byte} (h : mix cfg e phase = some smp) :
    ∃ wl wr, e.left = some wl ∧ e.right = some wr ∧ wl.toNat < cfg.waves.length ∧ wr.toNat < cfg.waves.length := by
  unfold mix at h
  split at h
  case h_2 => cases h
  case h_1 wl wr hl hr =>
    split at h
    case h_2 => cases h
    case h_1 a b ha hb =>
      exact ⟨wl, wr, hl, hr, (List.getElem?_eq_some_iff.1 ha).1, (List.getElem?_eq_some_iff.1 hb).1⟩

/-- A TICK past its checks that finds no sample stops (log 4). -/
theorem execTick_of_no_sample {slot : Byte} (k : Byte) {s : State} (hvalid : s.tblValid = true)
    (hslot : slot.toNat < s.cfg.tableSize)
    (hsample : ∀ smp, sample s.cfg s.tbl slot.toNat (advance s.phase s.stepReg) ≠ some smp) :
    execTick slot k s = .fault (.noSample slot) := by
  rcases execTick_cases slot k s with ⟨h, -⟩ | ⟨-, h, -⟩ | ⟨-, -, smp, h, -⟩ | ⟨-, -, -, h⟩
  · rw [hvalid] at h
    cases h
  · omega
  · exact absurd h (hsample smp)
  · exact h

/-! ## The word that carries a code -/

/-- The word that brings a code to the block decodes to an instruction of the same effect (R57, R95). -/
theorem decodeCommand_commandOfCode {c : Code} {i : Instr} (h : decode c = .ok i) :
    ∃ j, decodeCommand (commandOfCode c) = .ok j ∧ ∀ s, exec j s = exec i s := by
  cases c with
  | command w => exact ⟨i, h, fun _ => rfl⟩
  | midi chan b =>
    injection h with h
    subst h
    exact ⟨.midiByte chan b, decodeCommand_midiByteWord chan b, execMidiByte_eq chan b⟩

/-- A table word that decodes has a code, which decodes to the same instruction. -/
theorem decodeTableWord_eq_some {nbits w : Nat} {i : Instr} (h : decodeTableWord nbits w = some i) :
    ∃ c, codeOfTableWord nbits w = some c ∧ decode c = .ok i := by
  unfold decodeTableWord at h
  split at h
  case h_2 => cases h
  case h_1 c hc =>
    split at h
    case h_2 => cases h
    case h_1 j hj =>
      injection h with h
      exact ⟨c, hc, h ▸ hj⟩

/-! ## The reset flag -/

/-- A MIDI instruction sets the reset flag if it takes the sentinel, and leaves it otherwise (R96). -/
theorem resetFlag_of_midiDone {i : Instr} {s t : State} (hdone : MidiDone s i t) :
    t.resetFlag = s.resetFlag ∨
      (t.resetFlag = true ∧ ∃ chan, i = .midiReset chan ∨ i = .midiByte chan 0xFF#8) := by
  cases hdone with
  | sentinel chan hi => exact .inr ⟨by split_ifs <;> rfl, chan, hi⟩
  | status => exact .inl rfl
  | data chan d => exact .inl (by rw [takeData_frame])

/-- So does every instruction: no other one writes the flag (R31, R96). -/
theorem resetFlag_of_executed {i : Instr} {s t : State} (hexec : Executed s i t) :
    t.resetFlag = s.resetFlag ∨
      (t.resetFlag = true ∧ ∃ chan, i = .midiReset chan ∨ i = .midiByte chan 0xFF#8) := by
  cases hexec with
  | midi _ hdone => exact resetFlag_of_midiDone hdone
  | _ => exact .inl rfl

/-- The word of an instruction that takes the sentinel: the block runs command words only (R57, R96). -/
theorem sentinel_word {w : Word} {i : Instr} (hdecode : decodeCommand w = .ok i) {chan : Channel}
    (hi : i = .midiReset chan ∨ i = .midiByte chan 0xFF#8) : w = midiByteWord chan 0xFF#8 := by
  rcases decodeCommand_ok hdecode with ⟨slot, k, rfl, -⟩ | ⟨v, rfl, -⟩ | ⟨c, b, rfl, rfl⟩ | ⟨v, rfl, -⟩ <;>
    simp at hi
  rw [hi.1, hi.2]

/-- A step leaves the reset flag, sets it by the byte 0xFF, or clears it by `RESET` (R31, R96, R128). -/
theorem resetFlag_of_step {s t : State} (h : step s = .next t) :
    t.resetFlag = s.resetFlag ∨
      (t.resetFlag = true ∧ ∃ chan p, s.port.take = some (.command (midiByteWord chan 0xFF#8), p)) ∨
      (t.resetFlag = false ∧ ∃ p, s.port.take = some (.reset, p)) := by
  cases stepped_of_step h with
  | reset htake => exact .inr (.inr ⟨rfl, _, htake⟩)
  | ran htake _ hdecode hexec =>
    rcases resetFlag_of_executed hexec with hkept | ⟨hset, chan, hi⟩
    · exact .inl hkept
    · rw [sentinel_word hdecode hi] at htake
      exact .inr (.inl ⟨hset, chan, _, htake⟩)
  | _ => exact .inl rfl

end Sys2Proof.Machine
end

section
/-! PROOFS. The obligations about the whole state (spec/10_state.md): the invariant, the ports, the writers of the
registers, the reset flag, the loaded table, and the words and entries at the edges. -/

namespace Sys2Proof.Proofs

open Sys2Proof.Machine

/-- Settles O56, by what a step can have done: it runs an instruction, which keeps the invariant, records a fault that can
be recorded, resets the block, or only takes an offer, which is no register of the block. -/
theorem everyStepKeepsTheInvariant : Obligations.EveryStepKeepsTheInvariant := by
  intro s t hinv hstep
  have htaken : ∀ p, Inv (setPort p s) := fun _ => hinv
  cases stepped_of_step hstep with
  | idle => exact hinv
  | reset => exact inv_resetBlock hinv.1
  | ran _ _ _ hexec => exact inv_of_executed (htaken _) hexec
  | dropped => exact htaken _
  | illegal _ _ hdecode => exact inv_recordFault (htaken _) (by simp [recordOk, hdecode, Except.toOption])
  | answered => exact htaken _
  | unwritten => exact inv_recordFault (htaken _) rfl

/-- Settles O16: under the three conditions the port is present and written, so that the read answers it; an unwritten
`OUT` is the one fault; and each port shows its register. -/
theorem hostReadsEveryRegister : Obligations.HostReadsEveryRegister := by
  refine ⟨fun s q p htake => ⟨fun hinteg htbl hout => ?answered, fun hq hout hfault => ?unwritten⟩,
    fun s => ?registers⟩
  case answered =>
    have habsent : readPort q s ≠ .absent := by
      intro h
      rcases readPort_eq_absent_iff.1 h with ⟨hq, hone⟩ | ⟨i, f, hq, hi⟩
      · rw [hinteg hq] at hone
        cases hone
      · exact absurd (htbl i f hq) (Nat.not_lt.2 hi)
    obtain ⟨hvalue, hread⟩ := hostRead_of_present (s := setPort p s) (by rwa [readPort_setPort]) hout
    rw [readPort_setPort] at hvalue
    exact ⟨hvalue, (step_of_take htake).trans hread⟩
  case unwritten =>
    subst hq
    have hstep := (step_of_take htake).trans (hostRead_unwritten (s := setPort p s) hout)
    rw [hstep, recordFault, setPort_fault, hfault]
    rfl
  case registers =>
    refine ⟨rfl, rfl, rfl, fun htwo => ?_, fun v hv => ?_, fun i e he => ?_, rfl, rfl, rfl, rfl, rfl, rfl, rfl, rfl, rfl,
      rfl, rfl, rfl, fun i => ?_, rfl, rfl⟩
    · simp [readPort, htwo]
    · simp [readPort, hv]
    · simp [readPort, he, entryField]
    · rw [← readCtrl_eq_getD]
      rfl

/-- Settles O34, by what the instruction has done: in each case the registers it may not write are those of `s`. -/
theorem eachRegisterHasOneWriter : Obligations.EachRegisterHasOneWriter := by
  intro i s t h
  cases executed_of_exec h with
  | tick slot k =>
    exact ⟨fun hne => absurd rfl (hne slot k), fun _ => rfl, fun _ => ⟨rfl, rfl, rfl⟩,
      fun _ => ⟨rfl, rfl, rfl, rfl, rfl, rfl, rfl, rfl, rfl, rfl, rfl, rfl⟩, rfl, rfl⟩
  | setStep v =>
    exact ⟨fun _ => ⟨rfl, rfl, rfl, rfl⟩, fun hne => absurd rfl (hne v), fun _ => ⟨rfl, rfl, rfl⟩,
      fun _ => ⟨rfl, rfl, rfl, rfl, rfl, rfl, rfl, rfl, rfl, rfl, rfl, rfl⟩, rfl, rfl⟩
  | loadTable index =>
    exact ⟨fun _ => ⟨rfl, rfl, rfl, rfl⟩, fun _ => rfl, fun hne => absurd rfl (hne index),
      fun _ => ⟨rfl, rfl, rfl, rfl, rfl, rfl, rfl, rfl, rfl, rfl, rfl, rfl⟩, rfl, rfl⟩
  | midi hmidi _ hframe =>
    rw [MidiFrame] at hframe
    rw [hframe]
    refine ⟨fun _ => ⟨rfl, rfl, rfl, rfl⟩, fun _ => rfl, fun _ => ⟨rfl, rfl, rfl⟩, ?_, rfl, rfl⟩
    rintro (⟨slot, k, rfl⟩ | ⟨v, rfl⟩ | ⟨n, rfl⟩) <;> cases hmidi
  | faulted =>
    exact ⟨fun _ => ⟨rfl, rfl, rfl, rfl⟩, fun _ => rfl, fun _ => ⟨rfl, rfl, rfl⟩,
      fun _ => ⟨rfl, rfl, rfl, rfl, rfl, rfl, rfl, rfl, rfl, rfl, rfl, rfl⟩, rfl, rfl⟩

/-- Settles O36: of the three things a step can do with the flag, one clears it and one sets it. -/
theorem resetFlagIsSticky : Obligations.ResetFlagIsSticky := by
  intro s t h
  refine ⟨fun hs ht => ?cleared, fun hs ht => ?set, rfl⟩
  case cleared =>
    rcases resetFlag_of_step h with hkept | ⟨hset, -⟩ | ⟨-, hreset⟩
    · simp [hs, ht] at hkept
    · simp [ht] at hset
    · exact hreset
  case set =>
    rcases resetFlag_of_step h with hkept | ⟨-, hsentinel⟩ | ⟨hclear, -⟩
    · simp [hs, ht] at hkept
    · exact hsentinel
    · simp [ht] at hclear

/-- Settles O42: a LOAD_TABLE without a fault has installed what `load_nth` answered, which is a loaded table. -/
theorem loadTableLeavesALoadedTable : Obligations.LoadTableLeavesALoadedTable := by
  intro s t index hfault h hdone
  cases executed_of_exec h with
  | loadTable _ hload => exact ⟨rfl, (loadNth_ok hload).1⟩
  | midi hmidi => cases hmidi
  | faulted => simp [raiseFault, hfault] at hdone

/-- Settles O8: the placed word is the next offer, and the state after it is taken is `s`. -/
theorem fetchWordRunsTheTableWord : Obligations.FetchWordRunsTheTableWord := by
  intro s nbits w i hfault h
  obtain ⟨c, hcode, hc⟩ := decodeTableWord_eq_some h
  obtain ⟨j, hdecode, hexec⟩ := decodeCommand_commandOfCode hc
  have hplaced : s.withFetchWord nbits w = setPort (s.port.offerFirst (commandOfCode c)) s := by
    simp only [State.withFetchWord, offerTableWord, hcode]
  calc step (s.withFetchWord nbits w)
      = presentCommand exec (commandOfCode c) s := by
        rw [hplaced]
        exact step_of_take (s := setPort (s.port.offerFirst (commandOfCode c)) s) (take_offerFirst ..)
    _ = exec j s := presentCommand_of_decode exec hfault hdecode
    _ = exec i s := hexec s

/-- Settles O17: both ports are absent, before and after the offer is taken. -/
theorem absentPortsAreRefused : Obligations.AbsentPortsAreRefused := by
  intro s p
  have hrefused : ∀ q, readPort q s = .absent → s.port.take = some (.read q, p) →
      step s = .refused (.noSuchPort q) := fun q h htake =>
    (step_of_take htake).trans (hostRead_absent (by rwa [readPort_setPort]))
  exact ⟨fun hone => hrefused _ (readPort_eq_absent_iff.2 (.inl ⟨rfl, hone⟩)),
    fun i f hi => hrefused _ (readPort_eq_absent_iff.2 (.inr ⟨i, f, rfl, hi⟩))⟩

/-- Settles O32: with a sample there would be an entry, with both references in the ROM. -/
theorem tickStopsWithoutASample : Obligations.TickStopsWithoutASample := by
  intro s slot k hvalid hslot
  refine ⟨fun hentry => ?noEntry, fun e hentry hbad => ?badReference⟩
  case noEntry => exact execTick_of_no_sample k hvalid hslot fun smp h => by simp [sample, hentry] at h
  case badReference =>
    refine execTick_of_no_sample k hvalid hslot fun smp h => ?_
    rw [sample, hentry] at h
    obtain ⟨wl, wr, hl, hr, hwl, hwr⟩ := refs_of_mix_eq_some h
    rcases hbad with hnone | hnone | ⟨w, hw, hpast⟩ | ⟨w, hw, hpast⟩
    · simp [hl] at hnone
    · simp [hr] at hnone
    · obtain rfl : wl = w := by simpa [hl] using hw
      omega
    · obtain rfl : wr = w := by simpa [hr] using hw
      omega

end Sys2Proof.Proofs
end

section
/-! SUPPORT. The byte transport of a command word, the order of the agents' offers, what a step keeps of the parameters,
and that an instruction or an event answers a next state (spec/20_memory.md R36, R37, R43, R48; R115, R120). -/

namespace Sys2Proof

/-! ## The byte transport -/

/-- The transport bytes as numbers, least significant first (R43). -/
theorem map_toNat_bytesOfWord (w : Word) :
    (bytesOfWord w).map BitVec.toNat =
      [w.toNat % 256, w.toNat / 256 % 256, w.toNat / 65536 % 256, w.toNat / 16777216] := by
  have htop : w.toNat / 16777216 % 256 = w.toNat / 16777216 := Nat.mod_eq_of_lt (by have := w.isLt; omega)
  simp [bytesOfWord, Nat.shiftRight_eq_div_pow, htop]

/-- The transport of a word decodes as the word, and leaves the bytes after it (R43). -/
theorem decodeBytes_bytesOfWord_append (w : Word) (rest : List Byte) :
    decodeBytes (bytesOfWord w ++ rest) = (decodeCommand w).map fun i => (i, rest) := by
  simp only [bytesOfWord, List.cons_append, List.nil_append, decodeBytes, wordOfBytes_bytes]
  cases decodeCommand w <;> rfl

end Sys2Proof

namespace Sys2Proof.Machine

/-! ## Interleavings -/

/-- One place of an interleaving: a command of the sample clock, an action of the host, or the driver's `RESET`. -/
abbrev Arrival := Word ⊕ HostAction ⊕ Unit

/-- The sample clock's command at this place, if it is one. -/
def Arrival.clockWord? : Arrival → Option Word
  | .inl w => some w
  | _ => none

/-- The host's action at this place, if it is one. -/
def Arrival.hostAction? : Arrival → Option HostAction
  | .inr (.inl a) => some a
  | _ => none

/-- The agent whose turn this place takes. -/
def Arrival.agent : Arrival → Agent
  | .inl _ => .sampleClock
  | .inr (.inl _) => .host
  | .inr (.inr _) => .driver

/-- What reaches the block at this place. -/
def Arrival.event : Arrival → Event
  | .inl w => .command w
  | .inr (.inl a) => a.event
  | .inr (.inr _) => .reset

/-- The port on which an interleaving is offered: each agent's own offers in their order, and each place's agent as the
schedule (R48). -/
def portOfMerge (merge : List Arrival) : Port where
  clock := merge.filterMap Arrival.clockWord?
  host := merge.filterMap Arrival.hostAction?
  schedule := merge.map Arrival.agent

/-- The next offer of that port is the first place of the interleaving, and the port of the others is left. -/
@[simp] theorem take_portOfMerge_cons (x : Arrival) (merge : List Arrival) :
    (portOfMerge (x :: merge)).take = some (x.event, portOfMerge merge) := by
  match x with
  | .inl _ => rfl
  | .inr (.inl _) => rfl
  | .inr (.inr _) => rfl

/-- The offers arrive in the order of the interleaving (R48). -/
theorem arrivals_portOfMerge (merge : List Arrival) :
    arrivals merge.length (portOfMerge merge) = merge.map Arrival.event := by
  induction merge with
  | nil => rfl
  | cons x merge ih => simp only [List.length_cons, arrivals, take_portOfMerge_cons, ih, List.map_cons]

/-! ## The parameters -/

/-- No instruction writes the parameters or the ROMs (R36, R37). -/
theorem cfg_of_executed {i : Instr} {s t : State} (hexec : Executed s i t) : t.cfg = s.cfg := by
  cases hexec with
  | midi _ _ hframe =>
    rw [MidiFrame] at hframe
    rw [hframe]
  | _ => rfl

/-! ## Progress -/

/-- Under the invariant a TICK completes: it fails a check and records the fault, or its slot has a sample (R25, R110). -/
theorem execTick_of_inv (slot k : Byte) {s : State} (h : Inv s) : ∃ t, execTick slot k s = .next t := by
  obtain ⟨-, ⟨hloaded, -⟩, -⟩ := h
  rcases execTick_cases slot k s with ⟨-, he⟩ | ⟨-, -, he⟩ | ⟨-, -, _, -, he⟩ | ⟨hvalid, hslot, -⟩
  · exact ⟨_, he⟩
  · exact ⟨_, he⟩
  · exact ⟨_, he⟩
  · obtain ⟨smp, he⟩ := execTick_loaded k hvalid (hloaded hvalid).1 hslot
    exact ⟨_, he⟩

/-- Under the invariant every instruction completes. -/
theorem exec_of_inv (i : Instr) {s : State} (h : Inv s) : ∃ t, exec i s = .next t := by
  by_cases hmidi : isMidi i = true
  · obtain ⟨t, he, -⟩ := exec_midi_frame hmidi s
    exact ⟨t, he⟩
  · cases i with
    | tick slot k => exact execTick_of_inv slot k h
    | setStep v => exact ⟨_, rfl⟩
    | loadTable index => exact ⟨_, rfl⟩
    | _ => exact absurd rfl hmidi

/-- Under the invariant every presented word has a next state: it is dropped, runs, or is recorded as illegal (R60,
R115). -/
theorem presentCommand_of_inv (w : Word) {s : State} (h : Inv s) : ∃ t, presentCommand exec w s = .next t := by
  rcases presentCommand_cases exec w s with ⟨_, -, hc⟩ | ⟨-, i, -, hc⟩ | ⟨-, -, hc⟩
  · exact ⟨_, hc⟩
  · rw [hc]
    exact exec_of_inv i h
  · exact ⟨_, hc⟩

/-- A host read has a next state, or is refused for an absent port (R34, log 6). -/
theorem hostRead_next_or_absent (q : OutputPort) (s : State) :
    (∃ t, hostRead q s = .next t) ∨ (readPort q s = .absent ∧ hostRead q s = .refused (.noSuchPort q)) := by
  rcases hostRead_cases q s with ⟨-, hr⟩ | ⟨-, -, hr⟩ | habsent
  · exact .inl ⟨_, hr⟩
  · exact .inl ⟨_, hr⟩
  · exact .inr habsent

end Sys2Proof.Machine
end

section
/-! PROOFS. The obligations about the command port and the stores (spec/20_memory.md). -/

namespace Sys2Proof.Proofs

open Sys2Proof.Machine

/-- Settles O9: the bytes are the word's digits to base 256, and decoding them is decoding the word. -/
theorem commandBytesAreLittleEndian : Obligations.CommandBytesAreLittleEndian := by
  intro w rest
  refine ⟨map_toNat_bytesOfWord w, fun i hdecode => ?word, fun e hdecode => ?illegal⟩
  all_goals
    rw [decodeBytes_bytesOfWord_append, hdecode]
    rfl

/-- Settles O13: the schedule is the interleaving's own agents, place by place. -/
theorem everyInterleavingIsAdmitted : Obligations.EveryInterleavingIsAdmitted := by
  rintro _ _ merge rfl rfl
  refine ⟨merge.map Arrival.agent, ?_⟩
  rw [List.length_map]
  exact arrivals_portOfMerge merge

/-- Settles O35, by what the step has done: an instruction keeps the parameters, and taking an offer, a recorded fault and
`RESET` write other fields only. -/
theorem romsAndParametersNeverChange : Obligations.RomsAndParametersNeverChange := by
  intro s t h
  cases stepped_of_step h with
  | ran _ _ _ hexec => exact (cfg_of_executed hexec).trans (setPort_cfg ..)
  | _ => rfl

/-- Settles O57: taking the offer keeps the invariant, under which every event but the read of an absent port has a next
state. -/
theorem invariantStatesNeverStop : Obligations.InvariantStatesNeverStop := by
  intro s hinv
  rcases step_cases s with ⟨-, hstep⟩ | ⟨e, p, htake, hstep⟩
  · exact .inl ⟨s, hstep⟩
  have htaken : Inv (setPort p s) := hinv
  rw [hstep]
  cases e with
  | reset => exact .inl ⟨_, rfl⟩
  | command w => exact .inl (presentCommand_of_inv w htaken)
  | read q =>
    rcases hostRead_next_or_absent q (setPort p s) with hnext | ⟨habsent, hrefused⟩
    · exact .inl hnext
    · rw [readPort_setPort] at habsent
      exact .inr ⟨q, p, htake, habsent, hrefused⟩

/-- Settles O7: the step presents the word that is taken, and a block that is not faulted runs what it decodes to. -/
theorem stepRunsTheDecodedCommand : Obligations.StepRunsTheDecodedCommand := by
  intro s w p i hfault htake hdecode
  calc step s = presentCommand exec w (setPort p s) := step_of_take htake
    _ = exec i (setPort p s) := presentCommand_of_decode exec hfault hdecode

end Sys2Proof.Proofs
end

section
/-! SUPPORT. The encoding in both directions: every code that decodes is the code of a well-formed instruction, the fields
a row's mask keeps, and which command words are illegal (spec/30_encoding.md R55–R66). -/

namespace Sys2Proof

/-! ## From instructions to codes and back -/

/-- Decoding undoes encoding, row by row of the opcode table (R61, R62). -/
theorem decode_encode {i : Instr} (hi : i.wellFormed = true) : decode (encode i) = .ok i := by
  cases i with
  | tick slot k => exact Laws.RoundTrip.tick slot k hi
  | setStep v => exact Laws.RoundTrip.setStep v hi
  | midiByte chan b => exact Laws.RoundTrip.midiByte chan b hi
  | loadTable index => exact Laws.RoundTrip.loadTable index hi
  | midiReset chan => exact Laws.RoundTrip.midiReset chan hi
  | midiData chan d => exact Laws.RoundTrip.midiData chan d hi
  | midiNoteOff chan channel => exact Laws.RoundTrip.midiNoteOff chan channel hi
  | midiNoteOn chan channel => exact Laws.RoundTrip.midiNoteOn chan channel hi
  | midiStatusClass2 chan channel => exact Laws.RoundTrip.midiStatusClass2 chan channel hi
  | midiControlChange chan channel => exact Laws.RoundTrip.midiControlChange chan channel hi
  | midiProgramChange chan channel => exact Laws.RoundTrip.midiProgramChange chan channel hi
  | midiStatusClass5 chan channel => exact Laws.RoundTrip.midiStatusClass5 chan channel hi
  | midiPitchBend chan channel => exact Laws.RoundTrip.midiPitchBend chan channel hi
  | midiStatusClass7 chan low => exact Laws.RoundTrip.midiStatusClass7 chan low hi

/-- A MIDI byte decodes to the row whose code it is. -/
theorem decodeMidi_of_encode {i : Instr} (hi : i.wellFormed = true) {chan : Channel} {b : Byte}
    (hcode : encode i = .midi chan b) : decodeMidi chan b = i := by
  have hdecode := decode_encode hi
  rw [hcode] at hdecode
  injection hdecode

/-- Every status byte but the sentinel is the code of its class's row (R63, R64). -/
theorem exists_encode_eq_status (chan channel : Channel) (cls : BitVec 3) (h : statusOf cls channel ≠ 0xFF#8) :
    ∃ i : Instr, i.wellFormed = true ∧ encode i = .midi chan (statusOf cls channel) := by
  have hclass : ∀ c : BitVec 3,
      c = 0#3 ∨ c = 1#3 ∨ c = 2#3 ∨ c = 3#3 ∨ c = 4#3 ∨ c = 5#3 ∨ c = 6#3 ∨ c = 7#3 := by decide
  rcases hclass cls with rfl | rfl | rfl | rfl | rfl | rfl | rfl | rfl
  · exact ⟨.midiNoteOff chan channel, rfl, rfl⟩
  · exact ⟨.midiNoteOn chan channel, rfl, rfl⟩
  · exact ⟨.midiStatusClass2 chan channel, rfl, rfl⟩
  · exact ⟨.midiControlChange chan channel, rfl, rfl⟩
  · exact ⟨.midiProgramChange chan channel, rfl, rfl⟩
  · exact ⟨.midiStatusClass5 chan channel, rfl, rfl⟩
  · exact ⟨.midiPitchBend chan channel, rfl, rfl⟩
  · have hlow : channel ≠ 0xF#4 := fun hlow => h (statusOf_eq_sentinel _ _ |>.2 ⟨rfl, hlow⟩)
    exact ⟨.midiStatusClass7 chan channel, decide_eq_true hlow, rfl⟩

/-- Every MIDI byte is the code of a well-formed instruction: no byte is illegal (R66). -/
theorem exists_encode_eq_midi (chan : Channel) (b : Byte) :
    ∃ i : Instr, i.wellFormed = true ∧ encode i = .midi chan b := by
  by_cases hsentinel : b = 0xFF#8
  · exact ⟨.midiReset chan, rfl, by rw [hsentinel]; rfl⟩
  cases hstatus : isStatus b with
  | false => exact ⟨.midiData chan (payloadField b), rfl, congrArg (Code.midi chan) (data_payloadField b hstatus)⟩
  | true =>
    rw [← statusOf_fields b hstatus] at hsentinel ⊢
    exact exists_encode_eq_status chan (channelField b) (classField b) hsentinel

/-- Every code that decodes is the code of a well-formed instruction (R61, R62). -/
theorem exists_encode_eq_of_decode {c : Code} {i : Instr} (h : decode c = .ok i) :
    ∃ j : Instr, j.wellFormed = true ∧ encode j = c := by
  cases c with
  | midi chan b => exact exists_encode_eq_midi chan b
  | command w =>
    rcases decodeCommand_ok h with ⟨slot, k, -, rfl⟩ | ⟨v, -, rfl⟩ | ⟨chan, b, -, rfl⟩ | ⟨v, -, rfl⟩
    · exact ⟨.tick slot k, rfl, rfl⟩
    · exact ⟨.setStep v, rfl, rfl⟩
    · exact ⟨.midiByte chan b, rfl, rfl⟩
    · exact ⟨.loadTable v, rfl, rfl⟩

/-! ## The fields a row's mask keeps (spec/opcode_table.json) -/

/-- A mask that is all ones on a field keeps the field. -/
theorem extractLsb'_and_mask {n start len : Nat} (w : BitVec n) {mask : BitVec n}
    (hones : mask.extractLsb' start len = BitVec.allOnes len) :
    (w &&& mask).extractLsb' start len = w.extractLsb' start len := by
  rw [BitVec.extractLsb'_and, hones, BitVec.and_allOnes]

section Masks
variable (w : Word) (b : Byte)

@[simp] theorem opField_and_mask16 : opField (w &&& 0xFFFF0000#32) = opField w := extractLsb'_and_mask w (by decide)

@[simp] theorem rsvField_and_mask16 : rsvField (w &&& 0xFFFF0000#32) = rsvField w := extractLsb'_and_mask w (by decide)

@[simp] theorem opField_and_mask20 : opField (w &&& 0xFFFFF000#32) = opField w := extractLsb'_and_mask w (by decide)

@[simp] theorem rsvField_and_mask20 : rsvField (w &&& 0xFFFFF000#32) = rsvField w := extractLsb'_and_mask w (by decide)

@[simp] theorem midiRsvField_and_mask20 : midiRsvField (w &&& 0xFFFFF000#32) = midiRsvField w :=
  extractLsb'_and_mask w (by decide)

@[simp] theorem isStatus_and_0x80 : isStatus (b &&& 0x80#8) = isStatus b := by
  simp [isStatus]

@[simp] theorem isStatus_and_0xF0 : isStatus (b &&& 0xF0#8) = isStatus b := by
  simp [isStatus]

@[simp] theorem classField_and_0xF0 : classField (b &&& 0xF0#8) = classField b := extractLsb'_and_mask b (by decide)

variable {w b}

/-- The match of the TICK, SET_STEP and LOAD_TABLE rows fixes the opcode and clears the reserved bits (R54). -/
theorem fields_of_mask16 {m : Word} (h : w &&& 0xFFFF0000#32 = m) : opField w = opField m ∧ rsvField w = rsvField m :=
  ⟨by rw [← h, opField_and_mask16], by rw [← h, rsvField_and_mask16]⟩

/-- The match of the MIDI_BYTE row also clears its own reserved bits (R57). -/
theorem fields_of_mask20 {m : Word} (h : w &&& 0xFFFFF000#32 = m) :
    opField w = opField m ∧ rsvField w = rsvField m ∧ midiRsvField w = midiRsvField m :=
  ⟨by rw [← h, opField_and_mask20], by rw [← h, rsvField_and_mask20], by rw [← h, midiRsvField_and_mask20]⟩

/-- A byte that meets the match of a class's row is that class's status byte, with the channel free (R63, R64). -/
theorem eq_statusOf_of_mask {cls : BitVec 3} (h : b &&& 0xF0#8 = statusOf cls 0#4) :
    b = statusOf cls (channelField b) := by
  have hstatus : isStatus b = true := by rw [← isStatus_and_0xF0, h, isStatus_statusOf]
  have hclass : classField b = cls := by rw [← classField_and_0xF0, h, classField_statusOf]
  rw [← hclass, statusOf_fields b hstatus]

end Masks

/-! ## Illegal words -/

/-- The illegal words as R60 names them: opcode 0 or 5 to 15, a reserved bit set, or in MIDI_BYTE one of bits 15:12. -/
abbrev IllegalWord (w : Word) : Prop :=
  w.toNat / 2 ^ 28 = 0 ∨ 5 ≤ w.toNat / 2 ^ 28 ∨ w.toNat / 2 ^ 16 % 2 ^ 12 ≠ 0 ∨
    (w.toNat / 2 ^ 28 = 3 ∧ w.toNat / 2 ^ 12 % 2 ^ 4 ≠ 0)

/-- A word the decoder refuses is illegal: it fails a reserved field's test, or has none of the four opcodes (R60, R61). -/
theorem illegalWord_of_decode {w : Word} {e : DecodeError} (h : decodeCommand w = .error e) : IllegalWord w := by
  have hop := toNat_opField w
  have hrsv := toNat_rsvField w
  have hmidi := toNat_midiRsvField w
  unfold decodeCommand at h
  split_ifs at h with hreserved htick hstep hbyte hreservedMidi hload
  all_goals
    simp only [ne_eq, BitVec.toNat_eq, BitVec.ofNat_eq_ofNat, BitVec.toNat_ofNat] at *
    unfold IllegalWord
    omega

/-- A word that decodes is the word of a command, and none of those is illegal (R55–R58). -/
theorem not_illegalWord_of_decode {w : Word} {i : Instr} (h : decodeCommand w = .ok i) : ¬ IllegalWord w := by
  rcases decodeCommand_ok h with ⟨slot, k, -, rfl⟩ | ⟨v, -, rfl⟩ | ⟨chan, b, -, rfl⟩ | ⟨v, -, rfl⟩
  · have := toNat_tickWord slot k
    omega
  · have := toNat_setStepWord v
    omega
  · have := toNat_midiByteWord b chan
    omega
  · have := toNat_loadTableWord v
    omega

end Sys2Proof
end


section
/-! SUPPORT. What an illegal word does, and the words of the assembler's lines (R60, R70, R71, R114). -/

namespace Sys2Proof.Machine

/-! ## Faults -/

/-- The first fault of a block is recorded, and nothing else is written (R114). -/
theorem raiseFault_of_no_fault (cause : FaultCause) (word : Word) {s : State} (h : s.fault = none) :
    raiseFault cause word s = { s with fault := some { cause := cause, word := some word } } := by
  rw [raiseFault, recordFault, h, firstFault_none]

/-- A block that is not faulted records a word that does not decode (R60). -/
theorem presentCommand_of_error (run : Instr → State → Host.Outcome State Fault Refusal) {w : Word} {e : DecodeError}
    {s : State} (hfault : s.fault = none) (hdecode : decodeCommand w = .error e) :
    presentCommand run w s = .next (raiseFault (.illegalCommand w) w s) := by
  simp only [presentCommand, isFaulted, hfault, hdecode, Option.isSome_none, Bool.false_eq_true, if_false]

/-! ## The assembler's commands (R70) -/

/-- A command is refused exactly when an operand is out of range. -/
theorem assembleCore_eq_none_iff (c : CoreLine) : assembleCore c = none ↔ c.inRange = false := by
  cases h : c.inRange <;> simp [assembleCore, h]

/-- The word of a command whose operands are in range is the sum of R70. -/
theorem assembleCore_of_toNat {c : CoreLine} {w : Word} (h : c.inRange = true) (hw : w.toNat = c.word) :
    assembleCore c = some w := by
  rw [assembleCore, if_pos h, ← hw, BitVec.ofNat_toNat, BitVec.setWidth_eq]

section Commands
variable (slot k b : Byte) (chan : Channel) (v : BitVec 16)

@[simp] theorem assembleCore_tick : assembleCore (.tick slot.toNat k.toNat) = some (tickWord slot k) :=
  assembleCore_of_toNat (by have := slot.isLt; have := k.isLt; simp [CoreLine.inRange]; omega) (toNat_tickWord slot k)

@[simp] theorem assembleCore_setStep : assembleCore (.setStep v.toNat) = some (setStepWord v) :=
  assembleCore_of_toNat (by have := v.isLt; simp [CoreLine.inRange]; omega) (toNat_setStepWord v)

@[simp] theorem assembleCore_midi : assembleCore (.midi b.toNat chan.toNat) = some (midiByteWord chan b) :=
  assembleCore_of_toNat (by have := b.isLt; have := chan.isLt; simp [CoreLine.inRange]; omega)
    (toNat_midiByteWord b chan)

@[simp] theorem assembleCore_load : assembleCore (.load v.toNat) = some (loadTableWord v) :=
  assembleCore_of_toNat (by have := v.isLt; simp [CoreLine.inRange]; omega) (toNat_loadTableWord v)

end Commands

/-- A number below a power of two is the value of a field of that width. -/
theorem exists_eq_toNat {n width : Nat} (h : n < 2 ^ width) : ∃ x : BitVec width, n = x.toNat :=
  ⟨BitVec.ofNat width n, (Nat.mod_eq_of_lt h).symm⟩

/-! ## The assembler's pseudo-instructions (R71) -/

/-- MIDI commands on one channel assemble one by one. -/
theorem assembleAll_midi (chan : Channel) (bytes : List Byte) :
    assembleAll (bytes.map fun b => .midi b.toNat chan.toNat) = some (bytes.map (midiByteWord chan)) := by
  induction bytes with
  | nil => rfl
  | cons b bytes ih => simp only [List.map_cons, assembleAll, assembleCore_midi, ih]

end Sys2Proof.Machine
end

section
/-! PROOFS. The obligations about the encoding, the assembler and the MIDI byte (spec/30_encoding.md). -/

namespace Sys2Proof.Proofs

open Sys2Proof.Machine

/-- Settles O2, by the round trip of each row. -/
theorem decodeOfEncodeIsTheInstruction : Obligations.DecodeOfEncodeIsTheInstruction :=
  fun _ => decode_encode

/-- Settles O3: the code is that of some well-formed instruction, which is the one it decodes to. -/
theorem encodeOfDecodeIsTheCode : Obligations.EncodeOfDecodeIsTheCode := by
  intro c i h
  obtain ⟨j, hj, rfl⟩ := exists_encode_eq_of_decode h
  obtain rfl : j = i := by
    rw [decode_encode hj] at h
    injection h
  exact ⟨hj, rfl⟩

/-- Settles O4: a command row's match fixes the fields the decoder tests; a MIDI row's match makes the byte the code of the
row's instruction. -/
theorem decoderFollowsTheOpcodeTable : Obligations.DecoderFollowsTheOpcodeTable := by
  refine ⟨fun w => ⟨fun h => ?tick, fun h => ?setStep, fun h => ?midiByte, fun h => ?loadTable⟩,
    fun chan b => ⟨fun h => ?sentinel, fun h => ?data, fun h => ?noteOff, fun h => ?noteOn, fun h => ?class2,
      fun h => ?controlChange, fun h => ?programChange, fun h => ?class5, fun h => ?pitchBend, fun h hne => ?class7⟩⟩
  case tick | setStep | loadTable =>
    obtain ⟨hop, hrsv⟩ := fields_of_mask16 h
    rw [decodeCommand, hop, hrsv]
    rfl
  case midiByte =>
    obtain ⟨hop, hrsv, hmidi⟩ := fields_of_mask20 h
    rw [decodeCommand, hop, hrsv, hmidi]
    rfl
  case sentinel =>
    have hb : b = 0xFF#8 := (BitVec.and_allOnes ..).symm.trans h
    exact decodeMidi_of_encode rfl (by rw [hb]; rfl)
  case data =>
    have hdata : isStatus b = false := by
      rw [← isStatus_and_0x80]
      exact congrArg isStatus h
    exact decodeMidi_of_encode rfl (congrArg (Code.midi chan) (data_payloadField b hdata))
  case noteOff | noteOn | class2 | controlChange | programChange | class5 | pitchBend =>
    exact decodeMidi_of_encode rfl (congrArg (Code.midi chan) (eq_statusOf_of_mask h).symm)
  case class7 =>
    have hb := eq_statusOf_of_mask (cls := 7#3) h
    have hlow : channelField b ≠ 0xF#4 := fun hlow => hne (hb.trans ((statusOf_eq_sentinel _ _).2 ⟨rfl, hlow⟩))
    exact decodeMidi_of_encode (i := .midiStatusClass7 chan _) (decide_eq_true hlow) (congrArg (Code.midi chan) hb.symm)

/-- Settles O5: the decoder refuses exactly the words R60 names, and the step that takes such a word records the fault. -/
theorem illegalWordsRaiseIllegalCommand : Obligations.IllegalWordsRaiseIllegalCommand := by
  intro s w p hfault htake
  have hstep : step s = presentCommand exec w (setPort p s) := step_of_take htake
  cases hdecode : decodeCommand w with
  | error e =>
    refine ⟨fun _ => ?_, fun hlegal => absurd (illegalWord_of_decode hdecode) hlegal⟩
    rw [hstep, presentCommand_of_error (s := setPort p s) exec hfault hdecode,
      raiseFault_of_no_fault (s := setPort p s) _ _ hfault]
    rfl
  | ok i =>
    exact ⟨fun hillegal => absurd hillegal (not_illegalWord_of_decode hdecode),
      fun _ => ⟨i, rfl, hstep.trans (presentCommand_of_decode exec hfault hdecode)⟩⟩

/-- Settles O10: operands in range are fields, and the sum of their command is the word the encoder gives it. -/
theorem assembledCommandsDecode : Obligations.AssembledCommandsDecode := by
  refine ⟨fun slot k => ⟨fun h => ?tick, fun h => ?tickRefused⟩, fun v => ⟨fun h => ?setStep, fun h => ?setStepRefused⟩,
    fun b chan => ⟨fun h => ?midi, fun h => ?midiRefused⟩, fun v => ⟨fun h => ?load, fun h => ?loadRefused⟩⟩
  case tick =>
    obtain ⟨slot, rfl⟩ := exists_eq_toNat (width := 8) (n := slot) (by omega)
    obtain ⟨k, rfl⟩ := exists_eq_toNat (width := 8) (n := k) (by omega)
    exact ⟨tickWord slot k, assembleCore_tick slot k, toNat_tickWord slot k, by simp⟩
  case setStep =>
    obtain ⟨v, rfl⟩ := exists_eq_toNat (width := 16) (n := v) (by omega)
    exact ⟨setStepWord v, assembleCore_setStep v, toNat_setStepWord v, by simp⟩
  case midi =>
    obtain ⟨b, rfl⟩ := exists_eq_toNat (width := 8) (n := b) (by omega)
    obtain ⟨chan, rfl⟩ := exists_eq_toNat (width := 4) (n := chan) (by omega)
    exact ⟨midiByteWord chan b, assembleCore_midi b chan, toNat_midiByteWord b chan, by simp⟩
  case load =>
    obtain ⟨v, rfl⟩ := exists_eq_toNat (width := 16) (n := v) (by omega)
    exact ⟨loadTableWord v, assembleCore_load v, toNat_loadTableWord v, by simp⟩
  case tickRefused | setStepRefused | midiRefused | loadRefused =>
    rw [assembleCore_eq_none_iff]
    simpa [CoreLine.inRange] using h

/-- Settles O11: each line expands to commands whose operands are fields, which assemble to the encoder's words. -/
theorem pseudoInstructionsExpand : Obligations.PseudoInstructionsExpand := by
  refine ⟨fun sr hz v h => ?setFreq, fun sr hz h => ?undefined, fun sr chan bytes => ?msg, fun sr chan note vel => ?noteOn,
    fun sr chan note => ?noteOff, fun sr => rfl⟩
  case setFreq => simp [assembleLine, expand, assembleAll, h]
  case undefined => simp only [assembleLine, expand, h]
  case msg =>
    rw [← assembleAll_midi]
    simp only [assembleLine, expand, List.map_map, Function.comp_def]
  case noteOn =>
    have hstatus : 0x90 + chan.toNat = (0x9#4 ++ chan).toNat := (toNat_append 0x9#4 chan).symm
    have h := assembleAll_midi chan [0x9#4 ++ chan, note, vel]
    rwa [List.map_cons, ← hstatus] at h
  case noteOff =>
    have hstatus : 0x80 + chan.toNat = (0x8#4 ++ chan).toNat := (toNat_append 0x8#4 chan).symm
    have h := assembleAll_midi chan [0x8#4 ++ chan, note, 0]
    rwa [List.map_cons, ← hstatus] at h

/-- Settles O53, by the frame of the MIDI instructions. -/
theorem midiBytesNeverFault : Obligations.MidiBytesNeverFault := by
  intro s chan b
  obtain ⟨t, hexec, hframe, -⟩ := exec_midi_frame (i := .midiByte chan b) rfl s
  exact ⟨t, hexec, hframe⟩

/-- Settles O1: each word and byte written out is the code of the instruction beside it. -/
theorem writtenOutWordsDecode : Obligations.WrittenOutWordsDecode :=
  ⟨decodeCommand_tickWord 60 255, decodeCommand_setStepWord 0x0400, decodeCommand_midiByteWord 15 0x90,
    decodeCommand_loadTableWord 65535, decode_encode (i := .midiReset 3) rfl, decode_encode (i := .midiData 3 0x41) rfl,
    decode_encode (i := .midiNoteOff 3 5) rfl, decode_encode (i := .midiNoteOn 3 5) rfl,
    decode_encode (i := .midiStatusClass2 3 5) rfl, decode_encode (i := .midiControlChange 3 5) rfl,
    decode_encode (i := .midiProgramChange 3 5) rfl, decode_encode (i := .midiStatusClass5 3 5) rfl,
    decode_encode (i := .midiPitchBend 3 5) rfl, decode_encode (i := .midiStatusClass7 3 8) rfl⟩

/-- Settles O6: the command's tests are the decoder's, arm by arm. -/
theorem midiByteRunsItsRow : Obligations.MidiByteRunsItsRow :=
  fun s chan b => execMidiByte_eq chan b s

end Sys2Proof.Proofs
end

section
/-! SUPPORT. What LOAD_TABLE makes of a blob that begins with accepted descriptors: the entries of the new table in terms
of the last descriptor's pairs, and the offset of each check the next table can fail (spec/40_waveform_loader.md
R74–R79). -/

namespace Sys2Proof.Machine

/-! ## LOAD_TABLE in terms of `load_nth` -/

/-- A table that loads is installed at once (R51, R79). -/
theorem execLoadTable_of_ok {index : BitVec 16} {s : State} {E : List Entry} {off : Nat}
    (h : loadNth s.cfg index.toNat 0 = .ok (E, off)) :
    execLoadTable index s = .next (installTable E (BitVec.ofNat 16 off) s) := by
  simp only [execLoadTable, takeTable, tableOrdinal, h]

/-- A check that fails is recorded, with its offset (R77, R79). -/
theorem execLoadTable_of_error {index : BitVec 16} {s : State} {a : Nat}
    (h : loadNth s.cfg index.toNat 0 = .error a) :
    execLoadTable index s = .next (raiseFault (.blobInvalid a) (loadTableWord index) s) := by
  simp only [execLoadTable, takeTable, tableOrdinal, h]

/-! ## Key frames of an accepted descriptor -/

section Accepted
variable {cfg : Params} {d : Descriptor} (h : d.Accepted cfg)
include h

/-- Every pair names a slot of the table (R77 (b)). -/
theorem slot_lt_of_accepted {p : Byte × Byte} (hp : p ∈ d.pairs) : p.2.toNat < cfg.tableSize := by
  obtain ⟨hinner, ⟨-, hlast⟩, -⟩ := h
  rcases List.mem_append.1 hp with hp | hp
  · have := (hinner p hp).2
    omega
  · rw [List.mem_singleton.1 hp]
    omega

/-- The key frames are the slots the pairs name (R74). -/
theorem keyAt_markedTable_iff {i : Nat} :
    keyAt (markedTable cfg d) i = true ↔ ∃ p ∈ d.pairs, p.2.toNat = i := by
  simp only [keyAt_markedTable, Bool.and_eq_true, decide_eq_true_eq, List.any_eq_true, and_iff_right_iff_imp]
  rintro ⟨p, hp, rfl⟩
  exact slot_lt_of_accepted h hp

/-- A slot no pair names is no key frame. -/
theorem keyAt_markedTable_eq_false {i : Nat} (hno : ∀ p ∈ d.pairs, p.2.toNat ≠ i) :
    keyAt (markedTable cfg d) i = false := by
  rw [← Bool.not_eq_true, keyAt_markedTable_iff h]
  rintro ⟨p, hp, hpi⟩
  exact hno p hp hpi

/-- THE SLOTS BETWEEN TWO KEY FRAMES (R75, R76): each has the waveforms of the two, and the factor of its distance. -/
theorem slotEntry_between {i lk rk : Nat} (hlki : lk ≤ i) (hirk : i < rk) (hlk : ∃ p ∈ d.pairs, p.2.toNat = lk)
    (hrk : ∃ p ∈ d.pairs, p.2.toNat = rk) (hno : ∀ p ∈ d.pairs, ¬ (lk < p.2.toNat ∧ p.2.toNat < rk)) :
    slotEntry cfg.tableSize (markedTable cfg d) i =
      { left := namedWave d.pairs lk, right := namedWave d.pairs rk,
        factor := BitVec.ofNat 8 (65535 / (rk - lk) * (i - lk) / 256), key := decide (i = lk) } := by
  have hrkSize : rk < cfg.tableSize := by
    obtain ⟨p, hp, rfl⟩ := hrk
    exact slot_lt_of_accepted h hp
  have hbetween : ∀ j, lk < j → j < rk → keyAt (markedTable cfg d) j = false := fun j hj hjr =>
    keyAt_markedTable_eq_false h fun p hp hpj => hno p hp (hpj ▸ ⟨hj, hjr⟩)
  have hlast : lastKey (markedTable cfg d) i = lk :=
    lastKey_unique (keyAt_zero_of_accepted h) ((keyAt_markedTable_iff h).2 hlk) hlki
      fun j hj hji => hbetween j hj (by omega)
  have hnext : nextKey cfg.tableSize (markedTable cfg d) lk = rk :=
    nextKey_unique ((keyAt_markedTable_iff h).2 hrk) (by omega) hrkSize hbetween
  have hkey : keyAt (markedTable cfg d) i = decide (i = lk) := by
    by_cases hi : i = lk
    · rw [hi, (keyAt_markedTable_iff h).2 hlk, decide_eq_true rfl]
    · rw [hbetween i (by omega) hirk, decide_eq_false hi]
  rw [slotEntry, hlast, hnext, hkey, leftAt_markedTable cfg d (by omega), leftAt_markedTable cfg d hrkSize,
    blendFactor_between hlki hirk hrkSize]

/-- The final slot has the waveform of the terminating pair, the last to name it (R74, 92 D14). -/
theorem namedWave_final : namedWave d.pairs (cfg.tableSize - 1) = some d.last.1 := by
  obtain ⟨-, ⟨-, hlast⟩, -⟩ := h
  have hslot : d.last.2.toNat = cfg.tableSize - 1 := by omega
  simp [namedWave, Descriptor.pairs, hslot]

/-- THE FINAL SLOT (R75, R76): no key frame follows it, so it has its own waveform twice and factor 0. -/
theorem slotEntry_final :
    slotEntry cfg.tableSize (markedTable cfg d) (cfg.tableSize - 1) =
      { left := some d.last.1, right := some d.last.1, factor := 0, key := true } := by
  have hkey : keyAt (markedTable cfg d) (cfg.tableSize - 1) = true := keyAt_last_of_lastPair h.2.1
  have hsize : cfg.tableSize - 1 < cfg.tableSize := by
    have := h.2.1.2
    omega
  have hlast : lastKey (markedTable cfg d) (cfg.tableSize - 1) = cfg.tableSize - 1 :=
    lastKey_unique (keyAt_zero_of_accepted h) hkey le_rfl fun j hj hj' => by omega
  have hnext : nextKey cfg.tableSize (markedTable cfg d) (cfg.tableSize - 1) = cfg.tableSize - 1 := by
    rcases nextKey_cases cfg.tableSize (markedTable cfg d) (cfg.tableSize - 1) with ⟨hlt, hlt', -⟩ | ⟨hself, -⟩
    · omega
    · exact hself
  rw [slotEntry, hlast, hnext, hkey, leftAt_markedTable cfg d hsize, namedWave_final h, blendFactor_last]
  rfl

end Accepted

/-! ## Accepted tables before the one asked for -/

/-- The bytes of some descriptors, one after the other (R68). -/
abbrev bytesOf (ds : List Descriptor) : List Byte := ds.flatMap Descriptor.bytes

section Before
variable {cfg : Params} {before : List Descriptor} {suffix : List Byte}
  (hbefore : ∀ b ∈ before, b.Accepted cfg) (hblob : cfg.blob = bytesOf before ++ suffix)
include hbefore hblob

/-- The table after them, if it is accepted, is the one kept (R79). -/
theorem loadNth_accepted {d : Descriptor} {rest : List Byte} (hd : d.Accepted cfg) (hsuffix : suffix = d.bytes ++ rest) :
    loadNth cfg before.length 0 =
      .ok (interpolate cfg.tableSize (markedTable cfg d), (bytesOf before ++ d.bytes).length) := by
  obtain ⟨hskip, hdrop⟩ := loadNth_skip hbefore (base := 0) hblob le_rfl
  rw [hskip, Nat.sub_self, loadNth_keep (loadOne_descriptor (hdrop.trans hsuffix) hd), List.length_append, Nat.zero_add]

/-- If it fails, so does every `load_nth` that reaches it (R79). -/
theorem loadNth_ill_formed {n a : Nat} (hn : before.length ≤ n)
    (hfail : loadOne cfg (bytesOf before).length = .error a) : loadNth cfg n 0 = .error a := by
  obtain ⟨hskip, -⟩ := loadNth_skip hbefore (base := 0) hblob hn
  rw [hskip, Nat.zero_add, loadNth_fail hfail]

end Before

/-! ## The checks of R77 -/

/-- A table that would begin at the blob's end fails there (R77 (a), log 8). -/
theorem loadOne_at_end {cfg : Params} {base : Nat} (hdrop : cfg.blob.drop base = []) :
    loadOne cfg base = .error base := by
  have hend : base ≥ cfg.blobLen := List.drop_eq_nil_iff.1 hdrop
  rw [loadOne, if_pos hend]

/-- The pair at hand fails a check: it is cut off, or its slot or waveform is out of range (R77 (a), (b), (c)). -/
abbrev BadPair (cfg : Params) (tail : List Byte) : Prop :=
  tail.length ≤ 1 ∨ ∃ w p r, tail = w :: p :: r ∧ (cfg.tableSize ≤ p.toNat ∨ cfg.nwaves ≤ w.toNat)

/-- The marking fails at the offset of that pair. -/
theorem markKeys_badPair {cfg : Params} {tail : List Byte} (hbad : BadPair cfg tail) (a : Nat) (E : List Entry) :
    markKeys cfg tail a E = .error a := by
  match tail, hbad with
  | [], _ => rfl
  | [_], _ => rfl
  | w :: p :: r, hbad =>
    have hrange : cfg.tableSize ≤ p.toNat ∨ cfg.nwaves ≤ w.toNat := by
      rcases hbad with hshort | ⟨_, _, _, htail, hrange⟩
      · simp at hshort
      · cases htail
        exact hrange
    rw [markKeys]
    by_cases hslot : cfg.tableSize ≤ p.toNat
    · rw [if_pos hslot]
    · rw [if_neg hslot, if_pos (hrange.resolve_left hslot)]

section Descriptors
variable {cfg : Params} {base : Nat} {ignored : Byte} {inner : List (Byte × Byte)} {tail : List Byte}
  (hdrop : cfg.blob.drop base = descriptor ignored inner ++ tail)
include hdrop

/-- A descriptor at `base` has its ignored byte in the blob, and its pairs follow (R67). -/
theorem drop_descriptor : base < cfg.blobLen ∧ cfg.blob.drop (base + 1) = pairBytes inner ++ tail := by
  refine ⟨?_, by rw [← List.drop_drop, hdrop]; rfl⟩
  by_contra hend
  simp [List.drop_eq_nil_of_le (Nat.not_lt.1 hend), descriptor] at hdrop

/-- A check that fails on its pairs fails `load_one` (R77 (a), (b), (c)). -/
theorem loadOne_of_markKeys_error {a : Nat}
    (hmark : markKeys cfg (pairBytes inner ++ tail) (base + 1) (clearedTable cfg) = .error a) :
    loadOne cfg base = .error a := by
  obtain ⟨hbase, hpairs⟩ := drop_descriptor hdrop
  rw [loadOne, if_neg (Nat.not_le.2 hbase), hpairs, hmark]

/-- Marks without slot 0 fail `load_one` at its base (R77 (d)). -/
theorem loadOne_of_markKeys_ok {a : Nat} {E : List Entry}
    (hmark : markKeys cfg (pairBytes inner ++ tail) (base + 1) (clearedTable cfg) = .ok (E, a))
    (hkey : keyAt E 0 = false) : loadOne cfg base = .error base := by
  obtain ⟨hbase, hpairs⟩ := drop_descriptor hdrop
  rw [loadOne, if_neg (Nat.not_le.2 hbase), hpairs, hmark]
  simp only [hkey, Bool.false_eq_true, if_false]

variable (hinner : ∀ p ∈ inner, InnerPair cfg p)
include hinner

/-- After good pairs, a bad one fails at its own offset (R77 (a), (b), (c)). -/
theorem loadOne_badPair (hbad : BadPair cfg tail) : loadOne cfg base = .error (base + 1 + 2 * inner.length) :=
  loadOne_of_markKeys_error hdrop (by rw [markKeys_inner inner hinner, markKeys_badPair hbad])

/-- A table without a key frame at slot 0 fails at its beginning (R77 (d)). -/
theorem loadOne_no_key_zero {w p : Byte} {r : List Byte} (htail : tail = w :: p :: r) (hlast : LastPair cfg (w, p))
    (hzero : ∀ q ∈ inner ++ [(w, p)], q.2 ≠ 0) : loadOne cfg base = .error base := by
  have hbytes : pairBytes inner ++ tail = pairBytes (inner ++ [(w, p)]) ++ r := by simp [pairBytes, htail]
  have hkey : keyAt (markAll (clearedTable cfg) (inner ++ [(w, p)])) 0 = false := by
    rw [keyAt_markAll, clearedTable, keyAt_replicate_cleared, Bool.false_or, Bool.and_eq_false_iff, List.any_eq_false]
    exact .inr fun q hq => by simpa [BitVec.toNat_eq] using hzero q hq
  exact loadOne_of_markKeys_ok hdrop (by rw [hbytes, markKeys_descriptor hinner hlast]) hkey

end Descriptors

end Sys2Proof.Machine
end

section
/-! PROOFS. The obligations about LOAD_TABLE (spec/40_waveform_loader.md). -/

namespace Sys2Proof.Proofs

open Sys2Proof.Machine

/-- Settles O37: `load_nth` keeps the descriptor's table, whose entries the closed form of the pass gives; the offset fits
its register because the blob does. -/
theorem loadTableInterpolatesTheKeyFrames : Obligations.LoadTableInterpolatesTheKeyFrames := by
  intro s index before d rest hwf hindex hblob hbefore hd
  have hload := loadNth_accepted hbefore (hblob.trans (List.append_assoc ..)) hd rfl
  rw [hindex] at hload
  have hzero := keyAt_zero_of_accepted hd
  have hsize := length_markedTable s.cfg d
  have hentry : ∀ i, i < s.cfg.tableSize → (interpolate s.cfg.tableSize (markedTable s.cfg d))[i]? =
      some (slotEntry s.cfg.tableSize (markedTable s.cfg d) i) := fun i => interpolate_getElem? hsize hzero
  refine ⟨_, _, execLoadTable_of_ok hload, ?offset, length_interpolate hsize hzero,
    fun i lk rk hlki hirk hlk hrk hno => ?between, ?final⟩
  case offset =>
    obtain ⟨-, -, hlen, -, -⟩ := params_wf hwf
    obtain ⟨-, -, hoff⟩ := loadNth_ok hload
    rw [BitVec.toNat_ofNat, Nat.mod_eq_of_lt (by omega)]
  case between =>
    have hrkSize : rk < s.cfg.tableSize := by
      obtain ⟨p, hp, rfl⟩ := hrk
      exact slot_lt_of_accepted hd hp
    rw [hentry i (by omega), slotEntry_between hd hlki hirk hlk hrk hno]
  case final =>
    obtain ⟨-, -, -, -, hpos⟩ := params_wf hwf
    rw [hentry _ (by omega), slotEntry_final hd]

/-- Settles O38: the tables before the ill-formed one are passed over, and its failed check fails the whole LOAD_TABLE. -/
theorem illFormedTablesRaiseBlobInvalid : Obligations.IllFormedTablesRaiseBlobInvalid := by
  intro s index before suffix hfault hbefore haccepted hblob
  obtain ⟨-, hdrop⟩ := loadNth_skip haccepted (base := 0) hblob hbefore
  rw [Nat.zero_add] at hdrop
  have hraise : ∀ a, loadOne s.cfg (bytesOf before).length = .error a → exec (.loadTable index) s =
      .next { s with fault := some { cause := .blobInvalid a, word := some (loadTableWord index) } } := by
    intro a hfail
    rw [← raiseFault_of_no_fault _ _ hfault]
    exact execLoadTable_of_error (loadNth_ill_formed haccepted hblob hbefore hfail)
  refine ⟨fun hend => ?atEnd, fun ignored inner tail hsuffix hinner => ⟨fun hbad => ?badPair, ?noKeyZero⟩⟩
  case atEnd => exact hraise _ (loadOne_at_end (hdrop.trans hend))
  case badPair => exact hraise _ (loadOne_badPair (hdrop.trans hsuffix) hinner hbad)
  case noKeyZero =>
    intro w p r htail hlast hzero
    exact hraise _ (loadOne_no_key_zero (hdrop.trans hsuffix) hinner htail hlast hzero)

end Sys2Proof.Proofs
end

section
/-! SUPPORT. The offset LOAD_TABLE leaves, the crossfade at a key frame and the bounds of the blend factor
(spec/40_waveform_loader.md R76, R79, R80). -/

namespace Sys2Proof.Machine

/-! ## The offset after a table -/

/-- A LOAD_TABLE that completes without a fault has installed what `load_nth` answers (R79). -/
theorem installed_of_exec_loadTable {index : BitVec 16} {s t : State} (hfault : s.fault = none)
    (h : exec (.loadTable index) s = .next t) (hdone : t.fault = none) :
    ∃ E off, loadNth s.cfg index.toNat 0 = .ok (E, off) ∧ t = installTable E (BitVec.ofNat 16 off) s := by
  cases executed_of_exec h with
  | loadTable _ hload => exact ⟨_, _, hload, rfl⟩
  | midi hmidi => cases hmidi
  | faulted => simp [raiseFault, hfault] at hdone

/-- The offset past a table that loads fits its register, because the blob does (R8, R27). -/
theorem toNat_ofNat_offset {cfg : Params} {n off : Nat} {E : List Entry} (hwf : cfg.wf = true)
    (hload : loadNth cfg n 0 = .ok (E, off)) : (BitVec.ofNat 16 off).toNat = off := by
  obtain ⟨-, -, hblob, -, -⟩ := params_wf hwf
  obtain ⟨-, -, hoff⟩ := loadNth_ok hload
  rw [BitVec.toNat_ofNat, Nat.mod_eq_of_lt (by omega)]

/-- Every table ends at least 3 bytes past the one before it (R80 item 3). -/
theorem loadNth_succ_offset {cfg : Params} {n base off off' : Nat} {E F : List Entry}
    (hn : loadNth cfg n base = .ok (E, off)) (hsucc : loadNth cfg (n + 1) base = .ok (F, off')) :
    off + 3 ≤ off' := by
  rw [loadNth_succ hn] at hsucc
  obtain ⟨-, hoff, -⟩ := loadNth_ok hsucc
  exact hoff

/-! ## The sample at a key frame -/

/-- With factor 0 the crossfade is its left operand (R83). -/
theorem crossfade_zero (l r : Byte) : crossfade 0 l r = l := by
  apply BitVec.eq_of_toNat_eq
  rw [toNat_crossfade]
  simp

/-- A good reference names a waveform that can be read (R25, R36). -/
theorem waveform_of_refOk {cfg : Params} {r : Option Byte} (h : refOk cfg.nwaves r = true) :
    ∃ w a, r = some w ∧ cfg.waves[w.toNat]? = some a := by
  obtain ⟨w, hw, hlt⟩ := refOk_some h
  exact ⟨w, _, hw, List.getElem?_eq_getElem hlt⟩

/-! ## The blend factor -/

/-- The product of R76 is below 65535: the distance from the left key frame falls short of the whole interval. -/
theorem quotient_mul_lt {d j : Nat} (hj : j < d) : 65535 / d * j < 65535 := by
  rcases Nat.eq_zero_or_pos (65535 / d) with hzero | hpos
  · simp [hzero]
  · calc 65535 / d * j < 65535 / d * d := Nat.mul_lt_mul_of_pos_left hj hpos
      _ ≤ 65535 := Nat.div_mul_le_self 65535 d

/-- Between two key frames the factor does not fall from one slot to the next (R76). -/
theorem blendFactor_le_succ {n i lk rk : Nat} (hlk : lk ≤ i) (hrk : i + 1 < rk) (hn : rk < n) :
    blendFactor n i lk rk ≤ blendFactor n (i + 1) lk rk := by
  rw [blendFactor_between hlk (by omega) hn, blendFactor_between (by omega) hrk hn]
  have hstep : i - lk ≤ i + 1 - lk := by omega
  exact Nat.div_le_div_right (Nat.mul_le_mul_left _ hstep)

end Sys2Proof.Machine
end

section
/-! PROOFS. The obligations about the loader's offsets, key frames and blend factors (spec/40_waveform_loader.md). -/

namespace Sys2Proof.Proofs

open Sys2Proof.Machine

/-- Settles O39: both offsets are what `load_nth` answers, and table `n + 1` is read from where table `n` ended. -/
theorem laterTablesEndLater : Obligations.LaterTablesEndLater := by
  intro s t u n hwf hfault hlt hexec ht hexec' hu
  obtain ⟨E, off, hload, rfl⟩ := installed_of_exec_loadTable hfault hexec ht
  obtain ⟨F, off', hload', rfl⟩ := installed_of_exec_loadTable hfault hexec' hu
  have hnext : (n + 1).toNat = n.toNat + 1 := BitVec.toNat_add_of_lt hlt
  rw [hnext] at hload'
  obtain ⟨-, -, hend⟩ := loadNth_ok hload'
  rw [installTable_tblOffset, installTable_tblOffset, toNat_ofNat_offset hwf hload, toNat_ofNat_offset hwf hload']
  exact ⟨loadNth_succ_offset hload hload', hend⟩

/-- Settles O40: a key frame of a loaded table has factor 0, and its right reference names a waveform, so the sample is
the left operand of a crossfade. -/
theorem keyFramesSampleTheirWaveform : Obligations.KeyFramesSampleTheirWaveform := by
  intro cfg tbl i e w a phase hloaded hentry hkey hleft hwave
  obtain ⟨-, hentries, -⟩ := hloaded
  obtain ⟨-, hright, hfactor⟩ := hentries e (List.mem_of_getElem? hentry)
  obtain ⟨wr, b, hwr, hb⟩ := waveform_of_refOk hright
  rw [sample_of_refs hentry hleft hwr hwave hb, hfactor hkey, crossfade_zero]

/-- Settles O41: the closed form between two key frames gives the bounds and the order; the final slot has factor 0
wherever the key frames are. -/
theorem blendFactorTruncatesTwice : Obligations.BlendFactorTruncatesTwice := by
  refine ⟨fun n i lk rk hlk hrk hn => ⟨blendFactor_between hlk hrk hn, quotient_mul_lt (by omega),
    blendFactor_le n i lk rk (.inl hrk), ?keySlot, fun hnext => blendFactor_le_succ hlk hnext hn⟩, blendFactor_last⟩
  case keySlot =>
    rintro rfl
    exact blendFactor_self n i rk

end Sys2Proof.Proofs
end

section
/-! SUPPORT. The two halves of the sampled period, the mirrored phase and the crossfade's corner cases
(spec/41_sampler.md R81–R83). -/

namespace Sys2Proof.Machine

/-! ## The sample by halves -/

/-- The second half of the period reads the stored half period directly (R81). -/
theorem sfp_of_secondHalf (wave : Waveform) {phase : BitVec 16} (h : 32768 ≤ phase.toNat) :
    sfp wave phase = wave.toList.getD (phase.toNat / 512 - 64) 0 := by
  have hphase := phase.isLt
  have hidx : phase.toNat / 512 % 64 = phase.toNat / 512 - 64 := by omega
  have hlt : phase.toNat / 512 - 64 < 64 := by omega
  simp [sfp, secondHalf_eq, toNat_sampleIndex, h, hidx, hlt]

/-- The first half of the period reads the stored half period mirrored and inverted; the inversion does not borrow
(R81). -/
theorem toNat_sfp_of_firstHalf (wave : Waveform) {phase : BitVec 16} (h : phase.toNat < 32768) :
    (sfp wave phase).toNat = 255 - (wave.toList.getD (63 - phase.toNat / 512) 0).toNat := by
  have hidx : phase.toNat / 512 % 64 = phase.toNat / 512 := by omega
  have hlt : 63 - phase.toNat / 512 < 64 := by omega
  have hle (b : Byte) : b ≤ 255#8 := by bv_omega
  simp [sfp, secondHalf_eq, toNat_sampleIndex, Nat.not_le.mpr h, hidx, hlt, BitVec.toNat_sub_of_le (hle _)]

/-! ## The mirrored phase -/

/-- Mirroring twice gives the phase back (R82). -/
theorem mirror_mirror (phase : BitVec 16) : mirror (mirror phase) = phase := by
  simp [mirror]

/-- Mirroring complements the sub-phase (R82). -/
theorem subPhase_mirror (phase : BitVec 16) : subPhase (mirror phase) = ~~~ subPhase phase := by
  have hones : (0xFE00#16).extractLsb' 9 7 = BitVec.allOnes 7 := by decide
  rw [subPhase, mirror, BitVec.extractLsb'_xor, hones, BitVec.xor_allOnes, subPhase]

/-- The sub-phase is the phase without its low 9 bits (R81). -/
theorem toNat_subPhase (phase : BitVec 16) : (subPhase phase).toNat = phase.toNat / 512 := by
  have := phase.isLt
  simp only [subPhase, BitVec.extractLsb'_toNat, Nat.shiftRight_eq_div_pow]; omega

/-- `sp' = 127 - sp` (R82). -/
theorem toNat_mirror_div (phase : BitVec 16) : (mirror phase).toNat / 512 = 127 - phase.toNat / 512 := by
  rw [← toNat_subPhase, subPhase_mirror, BitVec.toNat_not, toNat_subPhase]

/-- A phase of the first half and its mirror image read the same stored sample, one of them inverted (R82). -/
theorem sfp_add_sfp_mirror_of_firstHalf (wave : Waveform) {phase : BitVec 16} (h : phase.toNat < 32768) :
    (sfp wave phase).toNat + (sfp wave (mirror phase)).toNat = 255 := by
  have hmirror := toNat_mirror_div phase
  have hsecond : 32768 ≤ (mirror phase).toNat := by omega
  have hindex : (mirror phase).toNat / 512 - 64 = 63 - phase.toNat / 512 := by omega
  rw [toNat_sfp_of_firstHalf wave h, sfp_of_secondHalf wave hsecond, hindex]
  have := (wave.toList.getD (63 - phase.toNat / 512) 0).isLt
  omega

/-! ## The crossfade -/

/-- The mix of an entry whose references are good (R83). -/
theorem mix_of_refs {cfg : Params} {e : Entry} {wl wr : Byte} {a b : Waveform} (hl : e.left = some wl)
    (hr : e.right = some wr) (ha : cfg.waves[wl.toNat]? = some a) (hb : cfg.waves[wr.toNat]? = some b)
    (phase : BitVec 16) : mix cfg e phase = some (crossfade e.factor (sfp a phase) (sfp b phase)) :=
  sample_of_refs (tbl := [e]) (i := 0) rfl hl hr ha hb phase

/-- The two weights add to 256, so equal operands give that operand (R83). -/
theorem crossfade_self (f b : Byte) : crossfade f b b = b := by
  have hweights : 256 - f.toNat + f.toNat = 256 := Nat.sub_add_cancel f.isLt.le
  apply BitVec.eq_of_toNat_eq
  rw [toNat_crossfade, ← Nat.add_mul, hweights, Nat.mul_div_cancel_left _ (by decide)]

/-- At the greatest factor the left operand still has weight 1 (R83). -/
theorem toNat_crossfade_255 (l r : Byte) : (crossfade 255 l r).toNat = (l.toNat + 255 * r.toNat) / 256 := by
  rw [toNat_crossfade]
  simp

end Sys2Proof.Machine
end

section
/-! PROOFS. The obligations about the sampler (spec/41_sampler.md). -/

namespace Sys2Proof.Proofs

open Sys2Proof.Machine

/-- Settles O23, one lemma for each half of the period. -/
theorem sampleMirrorsTheFirstHalf : Obligations.SampleMirrorsTheFirstHalf :=
  fun wave _ => ⟨toNat_sfp_of_firstHalf wave, sfp_of_secondHalf wave⟩

/-- Settles O24: of a phase and its mirror image one is in the first half, and mirroring twice gives the phase back. -/
theorem mirroredSamplesAddTo255 : Obligations.MirroredSamplesAddTo255 := by
  intro wave phase
  rcases Nat.lt_or_ge phase.toNat 32768 with hfirst | hsecond
  · exact sfp_add_sfp_mirror_of_firstHalf wave hfirst
  · have hmirror : (mirror phase).toNat < 32768 := by
      have := toNat_mirror_div phase
      omega
    have hsum := sfp_add_sfp_mirror_of_firstHalf wave hmirror
    rwa [mirror_mirror, Nat.add_comm] at hsum

/-- Settles O25: the mix is the crossfade of the two samples, whose exact sum and corner cases are lemmas of their
own. -/
theorem mixIsTheExactCrossfade : Obligations.MixIsTheExactCrossfade := by
  intro cfg e phase wl wr a b hl hr ha hb
  refine ⟨_, mix_of_refs hl hr ha hb phase, toNat_crossfade _ _ _, crossfade_sum_le _ _ _, ?zero, ?equal, ?greatest⟩
  case zero =>
    intro hf
    rw [hf, crossfade_zero]
  case equal =>
    intro heq
    rw [← heq, crossfade_self]
  case greatest =>
    intro hf
    rw [hf, toNat_crossfade_255]

end Sys2Proof.Proofs
end

section
/-! SUPPORT. The phase under a constant step, TICKs on a loaded table, and the bounds of `freq_to_step`
(spec/42_oscillator.md R86–R88). -/

namespace Sys2Proof.Machine

/-! ## Advances with a constant step -/

/-- A multiple of a step is 0 modulo 2^16 exactly at the multiples of its period (R88). -/
theorem nsmul_step_eq_zero_iff (step : BitVec 16) (n : Nat) :
    n • step = 0 ↔ 65536 / Nat.gcd 65536 step.toNat ∣ n := by
  have hpos : 0 < Nat.gcd 65536 step.toNat := Nat.gcd_pos_of_pos_left _ (by decide)
  calc n • step = 0 ↔ 65536 ∣ step.toNat * n := by simp [BitVec.toNat_eq, Nat.dvd_iff_mod_eq_zero, Nat.mul_comm]
    _ ↔ 65536 ∣ Nat.gcd 65536 step.toNat * n := Nat.dvd_gcd_mul_iff_dvd_mul.symm
    _ ↔ 65536 / Nat.gcd 65536 step.toNat ∣ n := (Nat.div_dvd_iff_dvd_mul (Nat.gcd_dvd_left ..) hpos).symm

/-- `n` advances add `n` times the step (R86). -/
theorem advance_iterate (phase step : BitVec 16) (n : Nat) :
    (fun q => advance q step)^[n] phase = phase + n • step :=
  add_right_iterate_apply step phase

/-- The phase is back exactly after the multiples of its period (R88). -/
theorem advance_iterate_eq_self_iff (phase step : BitVec 16) (n : Nat) :
    (fun q => advance q step)^[n] phase = phase ↔ 65536 / Nat.gcd 65536 step.toNat ∣ n := by
  rw [advance_iterate, add_eq_left, nsmul_step_eq_zero_iff]

/-! ## TICKs on a loaded table -/

/-- A run whose first instruction completes goes on from there (R48). -/
theorem runInstrs_cons {i : Instr} {is : List Instr} {s t : State} (h : exec i s = .next t) :
    runInstrs (i :: is) s = runInstrs is t := by
  rw [runInstrs, h]

/-- TICKs of slots of a loaded table complete, and each advances the phase once by the same step (R86, R110). -/
theorem runInstrs_ticks_loaded {s : State} {ticks : List (Byte × Byte)} (hvalid : s.tblValid = true)
    (hloaded : LoadedTable s.cfg s.tbl) (hslots : ∀ x ∈ ticks, x.1.toNat < s.cfg.tableSize) :
    ∃ t, runInstrs (ticks.map fun x => .tick x.1 x.2) s = .next t ∧ t.fault = s.fault ∧ t.stepReg = s.stepReg ∧
      t.phase = (fun q => advance q s.stepReg)^[ticks.length] s.phase := by
  induction ticks generalizing s with
  | nil => exact ⟨s, rfl, rfl, rfl, rfl⟩
  | cons x ticks ih =>
    obtain ⟨smp, htick⟩ := execTick_loaded x.2 hvalid hloaded (hslots x List.mem_cons_self)
    obtain ⟨t, hrun, hfault, hstep, hphase⟩ :=
      ih (s := tickWith x.2 smp s) hvalid hloaded fun y hy => hslots y (List.mem_cons_of_mem x hy)
    exact ⟨t, (runInstrs_cons (i := .tick x.1 x.2) htick).trans hrun, hfault, hstep, hphase⟩

/-! ## `freq_to_step` -/

/-- The bound R87 states on `hz` is where the rounded quotient would pass 65535. -/
theorem quotient_lt_iff (hz : ℚ) {sr : Nat} (hsr : 0 < sr) :
    65536 * hz / sr + 1 / 2 < 65536 ↔ hz < sr * (131071 / 131072) := by
  have hpos : (0 : ℚ) < sr := Nat.cast_pos.mpr hsr
  rw [← lt_sub_iff_add_lt, div_lt_iff₀ hpos]
  constructor <;> intro h <;> linarith

/-- Where the rounded quotient is a word, it is the step (R87). -/
theorem freqToStep_eq_some {hz : ℚ} {sr : Nat} (hhz : 0 ≤ hz) (hsr : 0 < sr)
    (hlt : 65536 * hz / sr + 1 / 2 < 65536) :
    ∃ v, freqToStep hz sr = some v ∧ (v.toNat : ℤ) = (65536 * hz / sr + 1 / 2 : ℚ).floor := by
  have hle : (65536 * hz / sr + 1 / 2 : ℚ).floor ≤ 65535 := Int.lt_add_one_iff.mp (Rat.floor_lt_iff.mpr hlt)
  have hnonneg : 0 ≤ (65536 * hz / sr + 1 / 2 : ℚ).floor := Rat.le_floor_iff.mpr (by positivity)
  have hdomain : ¬ (hz < 0 ∨ sr = 0 ∨ (65536 * hz / sr + 1 / 2 : ℚ).floor > 65535) := by
    push Not
    exact ⟨hhz, hsr.ne', hle⟩
  refine ⟨BitVec.ofInt 16 _, if_neg hdomain, ?_⟩
  rw [BitVec.toNat_ofInt]
  omega

/-- Where the rounded quotient is no word, there is no step (R87). -/
theorem freqToStep_eq_none {hz : ℚ} {sr : Nat} (hle : 65536 ≤ 65536 * hz / sr + 1 / 2) : freqToStep hz sr = none :=
  if_pos (.inr (.inr (Int.lt_iff_add_one_le.mpr (Rat.le_floor_iff.mpr hle))))

end Sys2Proof.Machine
end

section
/-! PROOFS. The obligations about the oscillator (spec/42_oscillator.md). -/

namespace Sys2Proof.Proofs

open Sys2Proof.Machine

/-- Settles O21: over TICKs too the phase is an iterated advance, whose period the step's multiples give. -/
theorem phaseReturnsAfterItsPeriod : Obligations.PhaseReturnsAfterItsPeriod := by
  refine ⟨advance_iterate_eq_self_iff, fun s ticks hfault hvalid hloaded hslots => ?_⟩
  obtain ⟨t, hrun, htfault, hstep, hphase⟩ := runInstrs_ticks_loaded hvalid hloaded hslots
  refine ⟨t, hrun, htfault.trans hfault, hstep, ?_⟩
  rw [hphase, advance_iterate_eq_self_iff]

/-- Settles O22: the step is a floor, so it rounds half up, and the bound on `hz` is where that floor passes 65535. -/
theorem freqToStepRoundsHalfUp : Obligations.FreqToStepRoundsHalfUp := by
  intro hz sr hhz hsr
  rw [← quotient_lt_iff hz hsr, ← not_lt, ← quotient_lt_iff hz hsr, not_lt]
  refine ⟨fun hlt => ?_, freqToStep_eq_none⟩
  obtain ⟨v, hv, hfloor⟩ := freqToStep_eq_some hhz hsr hlt
  refine ⟨v, hv, ?lower, ?upper⟩
  case lower => exact_mod_cast Rat.le_floor_iff.mp hfloor.le
  case upper => exact_mod_cast Rat.floor_lt_iff.mp (Int.lt_add_one_of_le hfloor.ge)

/-- Settles O20: a word with a reserved bit set is illegal, so it does not decode; the execution is one register write. -/
theorem setStepWritesOnlyStep : Obligations.SetStepWritesOnlyStep := by
  refine ⟨decodeCommand_setStepWord, fun w _ hreserved => ?_, fun _ _ => rfl⟩
  cases hdecode : decodeCommand w with
  | error err => exact ⟨err, rfl⟩
  | ok i => exact absurd (.inr (.inr (.inl hreserved))) (not_illegalWord_of_decode hdecode)

end Sys2Proof.Proofs
end

section
/-! SUPPORT. The saturating add, the two roundings, the filter step by its modes, and how far a filter and a cascade are
from a constant input (spec/43_filter.md R89–R94). -/

namespace Sys2Proof.Machine

/-! ## Clamping and rounding -/

/-- Past the range `sat16` answers the nearer end (R11). -/
theorem sat16_of_gt {v : Int} (h : 32767 < v) : sat16 v = 32767 := by unfold sat16; omega

theorem sat16_of_lt {v : Int} (h : v < -32768) : sat16 v = -32768 := by unfold sat16; omega

/-- `swrap_16` answers the only congruent value in range (R11). -/
theorem swrap16_eq_of_congr {v d : Int} (hd : -32768 ≤ d ∧ d ≤ 32767) (h : (d - v) % 65536 = 0) : swrap16 v = d := by
  have := swrap16_spec v
  omega

/-- Where the quotient is exact or not negative, truncation is the floor (R91). -/
theorem q8_trunc_eq_floor {s : Int} (h : 0 ≤ s ∨ s % 256 = 0) : q8 .trunc s = q8 .floor s := by
  simp only [q8, asr8]
  rcases Int.le_total 0 s with h0 | h0
  · exact tdiv256_of_nonneg h0
  · rw [tdiv256_of_nonpos h0]; omega

/-- Elsewhere truncation is one more than the floor (R91). -/
theorem q8_trunc_eq_floor_add_one {s : Int} (hneg : s < 0) (h : s % 256 ≠ 0) : q8 .trunc s = q8 .floor s + 1 := by
  simp only [q8, asr8]
  rw [tdiv256_of_nonpos hneg.le]; omega

/-! ## One step -/

/-- The new state (R92). -/
theorem filterFeed_fst (cfg : Params) (s k x : Int) : (filterFeed cfg s k x).1 = satAdd s (filterDelta cfg s k x) := rfl

/-- The output is read from the new state (R92). -/
theorem filterFeed_snd (cfg : Params) (s k x : Int) :
    (filterFeed cfg s k x).2 = q8 cfg.q8Div (filterFeed cfg s k x).1 := rfl

/-- The delta by `DELTA_MODE` (R92). -/
theorem filterDelta_exact {cfg : Params} (h : cfg.deltaMode = .exact) (s k x : Int) :
    filterDelta cfg s k x = (x - q8 cfg.q8Div s) * k := by
  simp only [filterDelta, h]

theorem filterDelta_wrap16 {cfg : Params} (h : cfg.deltaMode = .wrap16) (s k x : Int) :
    filterDelta cfg s k x = swrap16 ((x - q8 cfg.q8Div s) * k) := by
  simp only [filterDelta, h]

/-- With coefficient 0, and at the input, the delta is 0 in both modes (R92). -/
theorem filterDelta_eq_zero {cfg : Params} {s k x : Int} (h : k = 0 ∨ x = q8 cfg.q8Div s) :
    filterDelta cfg s k x = 0 := by
  have hzero : (x - q8 cfg.q8Div s) * k = 0 := by
    rcases h with rfl | rfl
    · exact Int.mul_zero _
    · rw [Int.sub_self, Int.zero_mul]
  cases hd : cfg.deltaMode with
  | exact => rw [filterDelta_exact hd, hzero]
  | wrap16 => rw [filterDelta_wrap16 hd, hzero]; rfl

/-- A delta of 0 leaves a 16-bit state (R89, R92). -/
theorem filterFeed_of_delta_zero {cfg : Params} {s k x : Int} (hs : -32768 ≤ s ∧ s ≤ 32767)
    (h : filterDelta cfg s k x = 0) : filterFeed cfg s k x = (s, q8 cfg.q8Div s) := by
  have hfst : (filterFeed cfg s k x).1 = s := by
    rw [filterFeed_fst, h, satAdd, Int.add_zero, sat16_of_range hs]
  exact Prod.ext hfst (by rw [filterFeed_snd, hfst])

/-! ## A constant input -/

/-- How far the state `s` is from those whose quotient is `x` (R94). -/
def inputDistance (x s : Int) : Nat := (max (256 * x - s) (s - (256 * x + 255))).toNat

/-- No distance: the quotient is the input. -/
theorem inputDistance_eq_zero_iff {x s : Int} : inputDistance x s = 0 ↔ asr8 s = x := by
  have := asr8_spec s
  unfold inputDistance; omega

/-- Between 16-bit states and 8-bit inputs the distance is below 2^16. -/
theorem inputDistance_lt {x s : Int} (hs : -32768 ≤ s ∧ s ≤ 32767) (hx : -128 ≤ x ∧ x ≤ 127) :
    inputDistance x s < 65536 := by
  unfold inputDistance; omega

/-- The coefficient of a TICK that moves the filters is at least 1 (R92). -/
theorem one_le_coefficient {k : Byte} (hk : k ≠ 0) : 1 ≤ coefficient k := by
  have : k.toNat ≠ 0 := fun h => hk (BitVec.eq_of_toNat_eq h)
  unfold coefficient; omega

/-- The state after one step of a filter with coefficient `k` and input `x` (R92). -/
def feedState (cfg : Params) (k x s : Int) : Int := (filterFeed cfg s k x).1

section ConstantInput
variable {cfg : Params} {k x : Int}

/-- Repeated steps stay in the integrator's range (R21, R92). -/
theorem feedState_iterate_range {s : Int} (hs : -32768 ≤ s ∧ s ≤ 32767) (n : Nat) :
    -32768 ≤ (feedState cfg k x)^[n] s ∧ (feedState cfg k x)^[n] s ≤ 32767 :=
  Function.Iterate.rec (fun v => -32768 ≤ v ∧ v ≤ 32767) hs (fun v _ => (filterFeed_range cfg v k x).1) n

/-- What every step keeps of a 16-bit state, repeated steps keep. -/
theorem feedState_iterate_kept {P : Int → Prop}
    (hP : ∀ v, -32768 ≤ v ∧ v ≤ 32767 → P v → P (feedState cfg k x v)) {s : Int} (hs : -32768 ≤ s ∧ s ≤ 32767)
    (h : P s) (n : Nat) : P ((feedState cfg k x)^[n] s) := by
  induction n with
  | zero => exact h
  | succ n ih =>
    rw [Function.iterate_succ_apply']
    exact hP _ (feedState_iterate_range hs n) ih

section Defaults
variable (hq : cfg.q8Div = .floor) (hd : cfg.deltaMode = .exact) (hk : 1 ≤ k ∧ k ≤ 255) (hx : -128 ≤ x ∧ x ≤ 127)
include hq hd hk hx

/-- With the default parameters no step clips (R94). -/
theorem feedState_eq {s : Int} (hs : -32768 ≤ s ∧ s ≤ 32767) : feedState cfg k x s = s + (x - asr8 s) * k := by
  have hk0 : 0 ≤ k ∧ k ≤ 255 := ⟨by omega, hk.2⟩
  rcases Int.le_total (asr8 s) x with h | h
  · exact (filterFeed_below hq hd hs hk0 hx h).1
  · exact (filterFeed_above hq hd hs hk0 hx h).1

/-- A step from below: the quotient rises and does not pass the input (R94). -/
theorem asr8_feedState_below {s : Int} (hs : -32768 ≤ s ∧ s ≤ 32767) (h : asr8 s ≤ x) :
    asr8 s ≤ asr8 (feedState cfg k x s) ∧ asr8 (feedState cfg k x s) ≤ x := by
  obtain ⟨-, -, -, hbound, hrise⟩ := filterFeed_below hq hd hs ⟨by omega, hk.2⟩ hx h
  exact ⟨hrise, hbound⟩

/-- A step from above: the quotient falls and does not pass the input (R94). -/
theorem asr8_feedState_above {s : Int} (hs : -32768 ≤ s ∧ s ≤ 32767) (h : x ≤ asr8 s) :
    asr8 (feedState cfg k x s) ≤ asr8 s ∧ x ≤ asr8 (feedState cfg k x s) := by
  obtain ⟨-, -, -, hbound, hfall⟩ := filterFeed_above hq hd hs ⟨by omega, hk.2⟩ hx h
  exact ⟨hfall, hbound⟩

/-- So it is for each of any number of steps from below (R94). -/
theorem asr8_feedState_iterate_below {s : Int} (hs : -32768 ≤ s ∧ s ≤ 32767) (h : asr8 s ≤ x) (n : Nat) :
    asr8 ((feedState cfg k x)^[n] s) ≤ asr8 ((feedState cfg k x)^[n + 1] s) ∧
      asr8 ((feedState cfg k x)^[n + 1] s) ≤ x := by
  rw [Function.iterate_succ_apply']
  exact asr8_feedState_below hq hd hk hx (feedState_iterate_range hs n)
    (feedState_iterate_kept (fun _ hv hle => (asr8_feedState_below hq hd hk hx hv hle).2) hs h n)

/-- And from above (R94). -/
theorem asr8_feedState_iterate_above {s : Int} (hs : -32768 ≤ s ∧ s ≤ 32767) (h : x ≤ asr8 s) (n : Nat) :
    asr8 ((feedState cfg k x)^[n + 1] s) ≤ asr8 ((feedState cfg k x)^[n] s) ∧
      x ≤ asr8 ((feedState cfg k x)^[n + 1] s) := by
  rw [Function.iterate_succ_apply']
  exact asr8_feedState_above hq hd hk hx (feedState_iterate_range hs n)
    (feedState_iterate_kept (fun _ hv hle => (asr8_feedState_above hq hd hk hx hv hle).2) hs h n)

/-- Each step brings the state nearer, until there is no distance left (R94). -/
theorem inputDistance_feedState_le {s : Int} (hs : -32768 ≤ s ∧ s ≤ 32767) :
    inputDistance x (feedState cfg k x s) ≤ inputDistance x s - 1 := by
  have hspec := asr8_spec s
  have hspec' := asr8_spec (filterFeed cfg s k x).1
  unfold inputDistance feedState
  rcases Int.le_total (asr8 s) x with h | h
  · obtain ⟨-, hrise, hstrict, hbound, -⟩ := filterFeed_below hq hd hs ⟨by omega, hk.2⟩ hx h
    omega
  · obtain ⟨-, hfall, hstrict, hbound, -⟩ := filterFeed_above hq hd hs ⟨by omega, hk.2⟩ hx h
    omega

/-- After as many steps as the distance the quotient is the input, and stays it (R94). -/
theorem asr8_feedState_iterate_eq {n : Nat} {s : Int} (hs : -32768 ≤ s ∧ s ≤ 32767) (hn : inputDistance x s ≤ n) :
    asr8 ((feedState cfg k x)^[n] s) = x := by
  induction n generalizing s with
  | zero => exact inputDistance_eq_zero_iff.mp (Nat.le_zero.mp hn)
  | succ n ih =>
    have hnear := inputDistance_feedState_le hq hd hk hx hs
    rw [Function.iterate_succ_apply]
    exact ih (filterFeed_range cfg s k x).1 (by omega)

end Defaults
end ConstantInput

/-! ## The cascade -/

section Cascade
variable {cfg : Params} (i0 i1 : BitVec 16) (k x : Int)

/-- The first integrator takes one filter step (R93). -/
theorem toInt_cascade_integ0 : (cascade cfg i0 i1 k x).integ0.toInt = (filterFeed cfg i0.toInt k x).1 := by
  have hrange := (filterFeed_range cfg i0.toInt k x).1
  cases hn : cfg.nfilt with
  | one => simp only [cascade, hn, toInt_ofInt16 hrange]
  | two => simp only [cascade, hn, toInt_ofInt16 hrange]

/-- With one filter its output is the cascade's (R93). -/
theorem cascade_y_of_one (hn : cfg.nfilt = .one) : (cascade cfg i0 i1 k x).y = (filterFeed cfg i0.toInt k x).2 := by
  simp only [cascade, hn]

/-- With two filters the second integrator takes a filter step on the first one's output (R93). -/
theorem toInt_cascade_integ1_of_two (hn : cfg.nfilt = .two) :
    (cascade cfg i0 i1 k x).integ1.toInt = (filterFeed cfg i1.toInt k (filterFeed cfg i0.toInt k x).2).1 := by
  simp only [cascade, hn, toInt_ofInt16 (filterFeed_range cfg i1.toInt k (filterFeed cfg i0.toInt k x).2).1]

/-- With two filters the second one's output is the cascade's (R93). -/
theorem cascade_y_of_two (hn : cfg.nfilt = .two) :
    (cascade cfg i0 i1 k x).y = (filterFeed cfg i1.toInt k (filterFeed cfg i0.toInt k x).2).2 := by
  simp only [cascade, hn]

end Cascade

/-- How far the integrators are from holding the constant input `x`. The first one's distance counts 2^16-fold: the
second one may move away from `x` for as long as the first has not arrived (R93, R94). -/
def cascadeDistance (cfg : Params) (x : Int) (i0 i1 : BitVec 16) : Nat :=
  match cfg.nfilt with
  | .one => inputDistance x i0.toInt
  | .two => 65536 * inputDistance x i0.toInt + inputDistance x i1.toInt

theorem cascadeDistance_of_one {cfg : Params} (hn : cfg.nfilt = .one) (x : Int) (i0 i1 : BitVec 16) :
    cascadeDistance cfg x i0 i1 = inputDistance x i0.toInt := by
  simp only [cascadeDistance, hn]

theorem cascadeDistance_of_two {cfg : Params} (hn : cfg.nfilt = .two) (x : Int) (i0 i1 : BitVec 16) :
    cascadeDistance cfg x i0 i1 = 65536 * inputDistance x i0.toInt + inputDistance x i1.toInt := by
  simp only [cascadeDistance, hn]

section Defaults
variable {cfg : Params} (hq : cfg.q8Div = .floor) (hd : cfg.deltaMode = .exact) {k x : Int} (hk : 1 ≤ k ∧ k ≤ 255)
  (hx : -128 ≤ x ∧ x ≤ 127) {i0 i1 : BitVec 16}
include hq hd hk hx

/-- An integrator at no distance answers the input (R94). -/
theorem filterFeed_snd_of_distance_zero {s : Int} (hs : -32768 ≤ s ∧ s ≤ 32767) (h : inputDistance x s = 0) :
    (filterFeed cfg s k x).2 = x := by
  have hnear := inputDistance_feedState_le hq hd hk hx hs
  rw [filterFeed_snd, hq]
  exact inputDistance_eq_zero_iff.mp (by rw [h] at hnear; exact Nat.le_zero.mp hnear)

/-- At no distance the cascade answers its input (R93, R94). -/
theorem cascade_y_of_distance_zero (h : cascadeDistance cfg x i0 i1 = 0) : (cascade cfg i0 i1 k x).y = x := by
  cases hn : cfg.nfilt with
  | one =>
    rw [cascadeDistance_of_one hn] at h
    rw [cascade_y_of_one _ _ _ _ hn, filterFeed_snd_of_distance_zero hq hd hk hx (toInt16_range i0) h]
  | two =>
    rw [cascadeDistance_of_two hn] at h
    rw [cascade_y_of_two _ _ _ _ hn, filterFeed_snd_of_distance_zero hq hd hk hx (toInt16_range i0) (by omega),
      filterFeed_snd_of_distance_zero hq hd hk hx (toInt16_range i1) (by omega)]

/-- Each run of the cascade brings it nearer, until there is no distance left (R93, R94). -/
theorem cascadeDistance_cascade_le :
    cascadeDistance cfg x (cascade cfg i0 i1 k x).integ0 (cascade cfg i0 i1 k x).integ1 ≤
      cascadeDistance cfg x i0 i1 - 1 := by
  have hnear0 : inputDistance x (cascade cfg i0 i1 k x).integ0.toInt ≤ inputDistance x i0.toInt - 1 := by
    rw [toInt_cascade_integ0]
    exact inputDistance_feedState_le hq hd hk hx (toInt16_range i0)
  cases hn : cfg.nfilt with
  | one => simpa only [cascadeDistance_of_one hn] using hnear0
  | two =>
    simp only [cascadeDistance_of_two hn]
    have hlt := inputDistance_lt (toInt16_range (cascade cfg i0 i1 k x).integ1) hx
    rcases Nat.eq_zero_or_pos (inputDistance x i0.toInt) with harrived | haway
    · have hnear1 := inputDistance_feedState_le hq hd hk hx (toInt16_range i1)
      rw [toInt_cascade_integ1_of_two _ _ _ _ hn,
        filterFeed_snd_of_distance_zero hq hd hk hx (toInt16_range i0) harrived]
      rw [feedState] at hnear1
      omega
    · omega

end Defaults

/-! ## TICKs of one slot -/

/-- A slot that can be ticked with the default parameters and `STEP = 0`, and the sample it gives at the phase that
stays (R94, R110). -/
structure Steady (slot smp : Byte) (s : State) : Prop where
  floorQuotient : s.cfg.q8Div = .floor
  exactDelta : s.cfg.deltaMode = .exact
  valid : s.tblValid = true
  inTable : slot.toNat < s.cfg.tableSize
  still : s.stepReg = 0
  sampled : sample s.cfg s.tbl slot.toNat s.phase = some smp

section Steady
variable {slot smp : Byte} {s : State} (h : Steady slot smp s) (k : Byte)
include h

theorem Steady.advance_eq : advance s.phase s.stepReg = s.phase := by
  rw [advance, h.still]
  exact BitVec.add_zero _

/-- Such a TICK runs the pipeline on that sample (R110). -/
theorem Steady.exec_tick : exec (.tick slot k) s = .next (tickWith k smp s) := by
  have hsmp := h.sampled
  rcases execTick_cases slot k s with ⟨hv, -⟩ | ⟨-, hs, -⟩ | ⟨-, -, smp', hsmp', hexec⟩ | ⟨-, -, hnone, -⟩
  · rw [h.valid] at hv; cases hv
  · exact absurd h.inTable (Nat.not_lt.mpr hs)
  · rw [h.advance_eq, hsmp] at hsmp'
    cases hsmp'
    exact hexec
  · rw [h.advance_eq, hsmp] at hnone; cases hnone

/-- And leaves the phase (R88). -/
theorem Steady.phase_tickWith : (tickWith k smp s).phase = s.phase := h.advance_eq

/-- And the next one is such a TICK again. -/
theorem Steady.after_tick : Steady slot smp (tickWith k smp s) :=
  { h with sampled := by rw [h.phase_tickWith]; exact h.sampled }

end Steady

/-- More such TICKs than the cascade's distance make `OUT` the sample (R94, R110). -/
theorem Steady.runInstrs_replicate {slot smp k : Byte} (hk : 1 ≤ coefficient k ∧ coefficient k ≤ 255) {n : Nat}
    {s : State} (h : Steady slot smp s)
    (hn : cascadeDistance s.cfg (filterInput smp) s.integ0 s.integ1 ≤ n) :
    ∃ t, runInstrs (List.replicate (n + 1) (.tick slot k)) s = .next t ∧ t.phase = s.phase ∧ t.out = some smp := by
  have hx := filterInput_range smp
  induction n generalizing s with
  | zero =>
    have hy := cascade_y_of_distance_zero h.floorQuotient h.exactDelta hk hx (Nat.le_zero.mp hn)
    refine ⟨_, runInstrs_cons (h.exec_tick k), h.phase_tickWith k, ?_⟩
    rw [tickWith, writeAudio_out, hy, outputSample_filterInput]
  | succ n ih =>
    have hnear := cascadeDistance_cascade_le h.floorQuotient h.exactDelta hk hx (i0 := s.integ0) (i1 := s.integ1)
    obtain ⟨t, hrun, hphase, hout⟩ := ih (h.after_tick k) (Nat.le_trans hnear (by omega))
    exact ⟨t, (runInstrs_cons (h.exec_tick k)).trans hrun, hphase.trans (h.phase_tickWith k), hout⟩

/-- So from some number of them on `OUT` is the sample (R110). -/
theorem Steady.converges {slot smp k : Byte} (hk : 1 ≤ coefficient k ∧ coefficient k ≤ 255) {s : State}
    (h : Steady slot smp s) :
    ∃ N : Nat, ∀ n, N ≤ n →
      ∃ t, runInstrs (List.replicate n (.tick slot k)) s = .next t ∧ t.phase = s.phase ∧ t.out = some smp := by
  refine ⟨cascadeDistance s.cfg (filterInput smp) s.integ0 s.integ1 + 1, fun n hn => ?_⟩
  obtain ⟨m, rfl⟩ := Nat.exists_eq_add_of_le' hn
  exact h.runInstrs_replicate hk (Nat.le_add_left _ m)

end Sys2Proof.Machine
end

section
/-! PROOFS. The obligations about the filter (spec/43_filter.md). -/

namespace Sys2Proof.Proofs

open Sys2Proof.Machine

/-- Settles O26: below, above and in range, and `integrator_feed` is the add by definition. -/
theorem saturatingAddClamps : Obligations.SaturatingAddClamps :=
  fun _ _ => ⟨sat16_of_gt, sat16_of_lt, fun hlo hhi => sat16_of_range ⟨hlo, hhi⟩, rfl⟩

/-- Settles O27: the floor by its bounds, truncation by the sign of the state. -/
theorem quotientRoundsByItsMode : Obligations.QuotientRoundsByItsMode :=
  fun s hlo hhi => ⟨asr8_spec s, q8_trunc_eq_floor, q8_trunc_eq_floor_add_one, fun m => q8_range m ⟨hlo, hhi⟩⟩

/-- Settles O28: the new state is the saturating add of the delta, which is exact or the only congruent 16-bit value, and
0 at both fixed points. -/
theorem filterStepIsTheLeakyIntegrator : Obligations.FilterStepIsTheLeakyIntegrator := by
  intro cfg s k x hlo hhi _ _ _ _
  obtain ⟨hstate, hout⟩ := filterFeed_range cfg s k x
  refine ⟨fun hmode => ?exact, fun hmode d hdlo hdhi hcongr => ?wrap16, rfl, hstate, hout, fun hfixed => ?fixed⟩
  case exact => rw [filterFeed_fst, filterDelta_exact hmode]
  case wrap16 => rw [filterFeed_fst, filterDelta_wrap16 hmode, swrap16_eq_of_congr ⟨hdlo, hdhi⟩ hcongr]
  case fixed => exact filterFeed_of_delta_zero ⟨hlo, hhi⟩ (filterDelta_eq_zero hfixed)

/-- Settles O29: each step is one from below or from above the input, and the distance to the input falls to 0. -/
theorem filterConvergesToItsInput : Obligations.FilterConvergesToItsInput := by
  intro cfg s k x hq hd hslo hshi hklo hkhi hxlo hxhi
  have hs := And.intro hslo hshi
  have hk := And.intro hklo hkhi
  have hx := And.intro hxlo hxhi
  refine ⟨fun n => ?unclipped, asr8_feedState_iterate_below hq hd hk hx hs,
    asr8_feedState_iterate_above hq hd hk hx hs, inputDistance x s, fun n hn => ?settled⟩
  case unclipped =>
    rw [Function.iterate_succ_apply']
    exact feedState_eq hq hd hk hx (feedState_iterate_range hs n)
  case settled =>
    have hsettled := asr8_feedState_iterate_eq hq hd hk hx hs hn
    exact ⟨hsettled, filterFeed_snd_of_distance_zero hq hd hk hx (feedState_iterate_range hs n)
      (inputDistance_eq_zero_iff.mpr hsettled)⟩

/-- Settles O30: with `STEP = 0` every TICK filters the same sample, and the distance of the cascade falls to 0. -/
theorem ticksConvergeToTheSample : Obligations.TicksConvergeToTheSample := by
  intro s slot k e wl wr a b hfloor hexact hstep hk hvalid hslot he hl hr ha hb
  have hsteady : Steady slot _ s := ⟨hfloor, hexact, hvalid, hslot, hstep, sample_of_refs he hl hr ha hb s.phase⟩
  have hcoef : 1 ≤ coefficient k ∧ coefficient k ≤ 255 := ⟨one_le_coefficient hk, (coefficient_range k).2⟩
  exact hsteady.converges hcoef

end Sys2Proof.Proofs
end

section
/-! SUPPORT. What a MIDI byte does, as an equation per case: the sentinel, a status byte, a data byte that is absorbed,
buffered, or completes its message; and runs of data bytes (spec/44_midi.md R96–R107). -/

namespace Sys2Proof.Machine

/-! ## Status bytes (R97) -/

/-- A byte from 0x80 on is a status byte (R62). -/
theorem isStatus_of_le {b : Byte} (h : 0x80 ≤ b.toNat) : isStatus b = true := by
  have hmsb : isStatus b = b.msb := rfl
  rw [hmsb, BitVec.msb_eq_decide]
  exact decide_eq_true h

/-- The high nibble of a status byte is 8 plus its class (R63). -/
theorem toNat_statusOf_div (c : BitVec 3) (ch : Channel) : (statusOf c ch).toNat / 16 = 8 + c.toNat := by
  have := ch.isLt
  simp only [statusOf, toNat_append]
  simp
  omega

/-- The data length by the high nibble of the status byte (R64). -/
theorem classLen_classField {b : Byte} (h : isStatus b = true) :
    classLen (classField b) =
      if b.toNat / 16 = 0x8 ∨ b.toNat / 16 = 0x9 ∨ b.toNat / 16 = 0xB ∨ b.toNat / 16 = 0xE then 2
      else if b.toNat / 16 = 0xC then 1 else 0 := by
  have hlen : ∀ c : BitVec 3, classLen c =
      if 8 + c.toNat = 0x8 ∨ 8 + c.toNat = 0x9 ∨ 8 + c.toNat = 0xB ∨ 8 + c.toNat = 0xE then 2
      else if 8 + c.toNat = 0xC then 1 else 0 := by decide
  rw [hlen, ← toNat_statusOf_div _ (channelField b), statusOf_fields b h]

/-- What the status byte of a class writes (R97). -/
theorem acceptStatus_statusOf (c : BitVec 3) (ch : Channel) (s : State) :
    acceptStatus (statusOf c ch) s = { s with rs := statusOf c ch, dcount := 0, dlimit := classLen c } := by
  rw [acceptStatus_eq, classField_statusOf]

/-- The command runs a status byte, whichever its class, and no channel filter applies (R97). -/
theorem exec_midiByte_status {b : Byte} (hstatus : isStatus b = true) (hne : b ≠ 0xFF#8) (chan : Channel)
    (s : State) : exec (.midiByte chan b) s = .next (acceptStatus b s) := by
  have hrow : ∀ c, classField b = c → acceptStatus (statusOf c (channelField b)) s = acceptStatus b s := by
    rintro _ rfl
    rw [statusOf_fields b hstatus]
  change execMidiByte chan b s = _
  rw [execMidiByte, if_neg hne, if_neg (by simp [hstatus])]
  split_ifs with h0 h1 h2 h3 h4 h5 h6
  · exact congrArg _ (hrow 0 h0)
  · exact congrArg _ (hrow 1 h1)
  · exact congrArg _ (hrow 2 h2)
  · exact congrArg _ (hrow 3 h3)
  · exact congrArg _ (hrow 4 h4)
  · exact congrArg _ (hrow 5 h5)
  · exact congrArg _ (hrow 6 h6)
  · exact congrArg _ (hrow 7 (by bv_omega))

/-! ## The sentinel (R96) -/

/-- By default the sentinel is no status byte. -/
theorem exec_midiReset_of_not_status (chan : Channel) {s : State} (h : s.cfg.ffAlsoStatus = false) :
    exec (.midiReset chan) s = .next (setResetFlag s) := by
  simp [exec, execMidiReset, h]

/-- Under `FF_ALSO_STATUS` the sentinel is a status byte too, of class 7. -/
theorem exec_midiReset_of_status (chan : Channel) {s : State} (h : s.cfg.ffAlsoStatus = true) :
    exec (.midiReset chan) s = .next (acceptStatus 0xFF#8 (setResetFlag s)) := by
  simp [exec, execMidiReset, h]

/-! ## Data bytes (R98, R99) -/

section Data
variable (chan : Channel) (d : Payload) {s : State}

/-- No data byte counts while the block awaits a status byte (R99). -/
theorem takeData_awaiting (h : s.dlimit = 0) : takeData chan d s = s :=
  if_pos h

variable {chan}

/-- A data byte for another channel than the filter's changes nothing (R98). -/
theorem takeData_filtered (h : channelField s.rs ≠ chan) : takeData chan d s = s := by
  rw [takeData, if_pos h, ite_self]

/-- An accepted data byte reaches the buffer (R98, R99). -/
theorem takeData_accepted (hchan : channelField s.rs = chan) (hlimit : s.dlimit ≠ 0#2) :
    takeData chan d s = acceptPayload d s := by
  rw [takeData, if_neg hlimit, if_neg (not_not.2 hchan)]

/-- A data byte short of the limit is buffered and counted (R99). -/
theorem takeData_buffered (hchan : channelField s.rs = chan) (hlimit : s.dlimit ≠ 0)
    (hcount : s.dcount + 1 ≠ s.dlimit) :
    takeData chan d s = writeDcount (s.dcount + 1) (bufferPayload d s) := by
  rw [takeData_accepted d hchan hlimit, acceptPayload, if_neg hcount]

/-- A note-off neither reads nor writes the count, whether its note is the held one or not (R102). -/
theorem dispatchNoteOff_writeDcount (v : BitVec 2) (s : State) :
    dispatchNoteOff (writeDcount v s) = writeDcount v (dispatchNoteOff s) :=
  (apply_ite (writeDcount v) (s.dbuf0 = s.note) (clearGate s) s).symm

/-- A dispatch neither reads nor writes the count (R100). -/
theorem dispatch_writeDcount (c : BitVec 3) (v : BitVec 2) (s : State) :
    dispatch c (writeDcount v s) = writeDcount v (dispatch c s) := by
  unfold dispatch
  split_ifs
  · exact dispatchNoteOff_writeDcount v s
  all_goals rfl

/-- A data byte that reaches the limit dispatches the message and resets the count (R99, R100). -/
theorem takeData_completes (hchan : channelField s.rs = chan) (hlimit : s.dlimit ≠ 0)
    (hcount : s.dcount + 1 = s.dlimit) :
    takeData chan d s = writeDcount 0 (dispatch (classField s.rs) (bufferPayload d s)) := by
  rw [takeData_accepted d hchan hlimit, acceptPayload, if_pos hcount, dispatch_writeDcount]
  rfl

/-- The buffer's first entry is written at count 0 (R99). -/
theorem bufferPayload_of_zero (h : s.dcount = 0) : bufferPayload d s = { s with dbuf0 := d } := by
  simp [bufferPayload, h]

/-- The buffer's second entry is written at count 1 (R99). -/
theorem bufferPayload_of_one (h : s.dcount = 1) : bufferPayload d s = { s with dbuf1 := d } := by
  simp [bufferPayload, h]

/-- The first of two data bytes. -/
theorem takeData_first_of_two (hchan : channelField s.rs = chan) (hlimit : s.dlimit = 2) (hcount : s.dcount = 0) :
    takeData chan d s = { s with dbuf0 := d, dcount := 1 } := by
  rw [takeData_buffered d hchan (by simp [hlimit]) (by simp [hlimit, hcount]), bufferPayload_of_zero d hcount, hcount]
  rfl

/-- The second of two data bytes. -/
theorem takeData_second_of_two (hchan : channelField s.rs = chan) (hlimit : s.dlimit = 2) (hcount : s.dcount = 1) :
    takeData chan d s = writeDcount 0 (dispatch (classField s.rs) { s with dbuf1 := d }) := by
  rw [takeData_completes d hchan (by simp [hlimit]) (by rw [hlimit, hcount]; rfl), bufferPayload_of_one d hcount]

/-- The only data byte. -/
theorem takeData_only (hchan : channelField s.rs = chan) (hlimit : s.dlimit = 1) (hcount : s.dcount = 0) :
    takeData chan d s = writeDcount 0 (dispatch (classField s.rs) { s with dbuf0 := d }) := by
  rw [takeData_completes d hchan (by simp [hlimit]) (by rw [hlimit, hcount]; rfl), bufferPayload_of_zero d hcount]

end Data

/-- Data bytes none of which the state takes change nothing, however many (R98, R99). -/
theorem runInstrs_absorbed {s : State} {data : List (Channel × Payload)} (h : ∀ p ∈ data, takeData p.1 p.2 s = s) :
    runInstrs (data.map fun p => .midiData p.1 p.2) s = .next s := by
  induction data with
  | nil => rfl
  | cons p data ih =>
    have hp : exec (.midiData p.1 p.2) s = .next s := congrArg _ (h p List.mem_cons_self)
    exact (runInstrs_cons hp).trans (ih fun q hq => h q (List.mem_cons_of_mem _ hq))

/-! ## Messages: the data bytes up to the limit, and running status (R99, R107) -/

/-- Setting the count to what it is. -/
theorem writeDcount_self {v : BitVec 2} {s : State} (h : s.dcount = v) : writeDcount v s = s := by
  subst h
  rfl

section Parser
variable (c : BitVec 3) (s : State)

@[simp] theorem dispatch_rs : (dispatch c s).rs = s.rs := by rw [dispatch_frame]

@[simp] theorem dispatch_dcount : (dispatch c s).dcount = s.dcount := by rw [dispatch_frame]

@[simp] theorem dispatch_dlimit : (dispatch c s).dlimit = s.dlimit := by rw [dispatch_frame]

end Parser

/-- Two accepted data bytes of a class of two are one message, after which the block is between messages again. -/
theorem runInstrs_two_data {s : State} {ch : Channel} (hchan : channelField s.rs = ch) (hlimit : s.dlimit = 2)
    (hcount : s.dcount = 0) (d e : Payload) :
    runInstrs [.midiData ch d, .midiData ch e] s =
      .next (dispatch (classField s.rs) { s with dbuf0 := d, dbuf1 := e }) := by
  have hfirst : exec (.midiData ch d) s = .next { s with dbuf0 := d, dcount := 1 } :=
    congrArg _ (takeData_first_of_two d hchan hlimit hcount)
  have hsecond : exec (.midiData ch e) { s with dbuf0 := d, dcount := 1 } =
      .next (writeDcount 0 (dispatch (classField s.rs) { s with dbuf0 := d, dcount := 1, dbuf1 := e })) :=
    congrArg _ (takeData_second_of_two (s := { s with dbuf0 := d, dcount := 1 }) e hchan hlimit rfl)
  have hcounted : writeDcount 0 { s with dbuf0 := d, dcount := 1, dbuf1 := e } = { s with dbuf0 := d, dbuf1 := e } :=
    writeDcount_self (s := { s with dbuf0 := d, dbuf1 := e }) hcount
  rw [runInstrs_cons hfirst, runInstrs_cons hsecond, ← dispatch_writeDcount, hcounted]
  rfl

/-- One accepted data byte of a class of one is one message, after which the block is between messages again. -/
theorem exec_one_data {s : State} {ch : Channel} (hchan : channelField s.rs = ch) (hlimit : s.dlimit = 1)
    (hcount : s.dcount = 0) (d : Payload) :
    exec (.midiData ch d) s = .next (dispatch (classField s.rs) { s with dbuf0 := d }) := by
  have htake : exec (.midiData ch d) s = .next (writeDcount 0 (dispatch (classField s.rs) { s with dbuf0 := d })) :=
    congrArg _ (takeData_only d hchan hlimit hcount)
  rw [htake, ← dispatch_writeDcount, writeDcount_self (s := { s with dbuf0 := d }) hcount]

/-- Running status in a class of two data bytes: each further pair is a message (R107). -/
theorem runInstrs_pairs {s : State} {ch : Channel} {c : BitVec 3} (hchan : channelField s.rs = ch)
    (hclass : classField s.rs = c) (hlimit : s.dlimit = 2) (hcount : s.dcount = 0) (pairs : List (Payload × Payload)) :
    runInstrs (pairs.flatMap fun p => [.midiData ch p.1, .midiData ch p.2]) s =
      .next (pairs.foldl (fun u p => dispatch c { u with dbuf0 := p.1, dbuf1 := p.2 }) s) := by
  induction pairs generalizing s with
  | nil => rfl
  | cons p pairs ih =>
    have hmessage := runInstrs_two_data hchan hlimit hcount p.1 p.2
    rw [hclass] at hmessage
    rw [List.flatMap_cons, runInstrs_append hmessage, List.foldl_cons]
    exact ih (by simpa using hchan) (by simpa using hclass) (by simpa using hlimit) (by simpa using hcount)

/-- Running status in a class of one data byte: each further one is a message (R107). -/
theorem runInstrs_singles {s : State} {ch : Channel} {c : BitVec 3} (hchan : channelField s.rs = ch)
    (hclass : classField s.rs = c) (hlimit : s.dlimit = 1) (hcount : s.dcount = 0) (data : List Payload) :
    runInstrs (data.map fun d => .midiData ch d) s =
      .next (data.foldl (fun u d => dispatch c { u with dbuf0 := d }) s) := by
  induction data generalizing s with
  | nil => rfl
  | cons d data ih =>
    have hmessage := exec_one_data hchan hlimit hcount d
    rw [hclass] at hmessage
    rw [List.map_cons, runInstrs_cons hmessage, List.foldl_cons]
    exact ih (by simpa using hchan) (by simpa using hclass) (by simpa using hlimit) (by simpa using hcount)

/-- A message of two data bytes from any state, on the channel its status byte names (R97, R99). -/
theorem runInstrs_message {status : Instr} {c : BitVec 3} {ch : Channel} {s : State}
    (hstatus : exec status s = .next (acceptStatus (statusOf c ch) s)) (hlen : classLen c = 2) (d e : Payload) :
    runInstrs [status, .midiData ch d, .midiData ch e] s =
      .next (dispatch c { s with rs := statusOf c ch, dcount := 0, dlimit := 2, dbuf0 := d, dbuf1 := e }) := by
  rw [acceptStatus_statusOf, hlen] at hstatus
  rw [runInstrs_cons hstatus, runInstrs_two_data (channelField_statusOf ..) rfl rfl, classField_statusOf]

/-- Program changes one after the other: the last one stays in the buffer and in `PROG` (R104). -/
theorem foldl_dispatch_programChange (earlier : List Payload) (last : Payload) (s : State) :
    (earlier ++ [last]).foldl (fun u d => dispatch 4#3 { u with dbuf0 := d }) s =
      { s with dbuf0 := last, prog := last } := by
  induction earlier generalizing s with
  | nil => rfl
  | cons d earlier ih => exact ih _

end Sys2Proof.Machine
end

section
/-! SUPPORT. A TICK beside a MIDI byte: no instruction reads or writes the port, so two offered commands run as the two
instructions, and the two instructions may be swapped (R48, R108, R112). -/

namespace Sys2Proof.Machine

/-- An outcome with another port in its next state. -/
def outcomeAtPort (p : Port) : Host.Outcome State Fault Refusal → Host.Outcome State Fault Refusal
  | .next t => .next (setPort p t)
  | .fault f => .fault f
  | .refused r => .refused r

/-- TICK neither reads nor writes the port, in each of its four ends (R110). -/
theorem execTick_setPort (slot k : Byte) (p : Port) (s : State) :
    execTick slot k (setPort p s) = outcomeAtPort p (execTick slot k s) := by
  have hpast : s.tblValid = true → slot.toNat < s.cfg.tableSize →
      execTick slot k (setPort p s) = outcomeAtPort p (execTick slot k s) := by
    intro hv hs
    rcases execTick_past_checks slot k hv hs with ⟨smp, h⟩ | h <;>
      rw [h s rfl rfl rfl rfl rfl, h (setPort p s) rfl rfl rfl rfl rfl] <;> rfl
  rcases execTick_cases slot k s with ⟨hv, he⟩ | ⟨hv, hs, he⟩ | ⟨hv, hs, -⟩ | ⟨hv, hs, -⟩
  · rw [he]
    exact if_pos hv
  · rw [he]
    exact (if_neg (by simp [hv])).trans (if_pos hs)
  · exact hpast hv hs
  · exact hpast hv hs

/-- No instruction reads or writes the port (R17). -/
theorem exec_setPort (i : Instr) (p : Port) (s : State) : exec i (setPort p s) = outcomeAtPort p (exec i s) := by
  by_cases hmidi : isMidi i = true
  · obtain ⟨t, hexec, hframe, -⟩ := exec_midi_frame hmidi s
    have hport : withAudioOf (setPort p s) t = setPort p t := by
      rw [hframe]
      rfl
    rw [hexec]
    exact (exec_midi_withAudioOf (g := setPort p s) hmidi hexec).trans (congrArg _ hport)
  · cases i with
    | tick slot k => exact execTick_setPort slot k p s
    | setStep v => rfl
    | loadTable index =>
      change execLoadTable index (setPort p s) = outcomeAtPort p (execLoadTable index s)
      rcases execLoadTable_cases index s with ⟨E, off, hload, he⟩ | ⟨a, hfail, he⟩ <;> rw [he]
      · exact execLoadTable_of_ok hload
      · exact execLoadTable_of_error hfail
    | _ => exact absurd rfl hmidi

/-- A run of one step is that step. -/
theorem runSteps_one (s : State) : runSteps 1 s = step s := by
  rw [runSteps]
  cases step s <;> rfl

/-- A run of one instruction is that instruction. -/
theorem runInstrs_one (i : Instr) (s : State) : runInstrs [i] s = exec i s := by
  rw [runInstrs]
  cases exec i s <;> rfl

/-- Two legal words that arrive one after the other, the first of which does not fault the block, run as the
instructions they decode to (R48, R61). -/
theorem runSteps_two_commands {s : State} {r p q : Port} {w v : Word} {i j : Instr} (hfault : s.fault = none)
    (hw : r.take = some (.command w, p)) (hv : p.take = some (.command v, q)) (hi : decodeCommand w = .ok i)
    (hj : decodeCommand v = .ok j) (hkept : ∀ t, exec i s = .next t → t.fault = none) :
    runSteps 2 (setPort r s) = runInstrs [i, j] (setPort q s) := by
  have hstep : step (setPort r s) = outcomeAtPort p (exec i s) := by
    rw [step_of_take (s := setPort r s) hw, ← exec_setPort]
    exact presentCommand_of_decode exec hfault hi
  rw [runSteps, runInstrs, hstep, exec_setPort]
  cases hexec : exec i s with
  | fault f => rfl
  | refused _ => rfl
  | next t =>
    calc runSteps 1 (setPort p t)
        = presentCommand exec v (setPort q t) := (runSteps_one _).trans (step_of_take (s := setPort p t) hv)
      _ = exec j (setPort q t) := presentCommand_of_decode exec (hkept t hexec) hj
      _ = runInstrs [j] (setPort q t) := (runInstrs_one ..).symm

/-- A MIDI instruction leaves what a TICK reads, and `FAULT` (R66, R108). -/
theorem audio_of_midiFrame {s t : State} (h : MidiFrame s t) :
    t.cfg = s.cfg ∧ t.tbl = s.tbl ∧ t.tblValid = s.tblValid ∧ t.phase = s.phase ∧ t.stepReg = s.stepReg ∧
      t.fault = s.fault := by
  rw [MidiFrame] at h
  rw [h]
  exact ⟨rfl, rfl, rfl, rfl, rfl, rfl⟩

/-- A MIDI instruction does not fault a block (R66). -/
theorem fault_of_midi {i : Instr} (hi : isMidi i = true) {s t : State} (h : exec i s = .next t) :
    t.fault = s.fault := by
  obtain ⟨u, hu, hframe, -⟩ := exec_midi_frame hi s
  obtain rfl : u = t := by
    rw [hu] at h
    injection h
  obtain ⟨-, -, -, -, -, hfault⟩ := audio_of_midiFrame hframe
  exact hfault

section Swap
variable {slot : Byte} {s : State} (hvalid : s.tblValid = true) (hslot : slot.toNat < s.cfg.tableSize)
include hvalid hslot

/-- A TICK past its checks records no fault (R110). -/
theorem fault_of_tick {k : Byte} {t : State} (h : exec (.tick slot k) s = .next t) : t.fault = s.fault := by
  change execTick slot k s = .next t at h
  rcases execTick_past_checks slot k hvalid hslot with ⟨smp, htick⟩ | htick <;>
    rw [htick s rfl rfl rfl rfl rfl] at h <;> cases h
  rfl

/-- A TICK past its checks and a MIDI instruction may be swapped: each leaves what the other reads (R108, R112). -/
theorem runInstrs_tick_midi_swap (k : Byte) {i : Instr} (hi : isMidi i = true) :
    runInstrs [.tick slot k, i] s = runInstrs [i, .tick slot k] s := by
  obtain ⟨m, hm, hframe, -⟩ := exec_midi_frame hi s
  obtain ⟨hcfg, htbl, htblValid, hphase, hstepReg, -⟩ := audio_of_midiFrame hframe
  rw [runInstrs_cons hm, runInstrs_one]
  rcases execTick_past_checks slot k hvalid hslot with ⟨smp, htick⟩ | htick
  · have hs : exec (.tick slot k) s = .next (tickWith k smp s) := htick s rfl rfl rfl rfl rfl
    have hwrites : withAudioOf (tickWith k smp s) m = tickWith k smp m := by
      rw [hframe]
      rfl
    calc runInstrs [.tick slot k, i] s
        = exec i (tickWith k smp s) := (runInstrs_cons hs).trans (runInstrs_one ..)
      _ = .next (withAudioOf (tickWith k smp s) m) := exec_midi_withAudioOf (g := tickWith k smp s) hi hm
      _ = .next (tickWith k smp m) := congrArg _ hwrites
      _ = exec (.tick slot k) m := (htick m hcfg htbl htblValid hphase hstepReg).symm
  · have hs : exec (.tick slot k) s = .fault (.noSample slot) := htick s rfl rfl rfl rfl rfl
    rw [runInstrs, hs]
    exact (htick m hcfg htbl htblValid hphase hstepReg).symm

end Swap

end Sys2Proof.Machine
end

section
/-! PROOFS. The obligations about the MIDI decoder (spec/44_midi.md), and that it does not touch the audio path. -/

namespace Sys2Proof.Proofs

open Sys2Proof.Machine

/-- Settles O33: two offered commands run as the two instructions, which may be swapped. -/
theorem tickAndMidiByteCommute : Obligations.TickAndMidiByteCommute := by
  intro s slot k chan b hfault hvalid hslot
  refine ⟨runInstrs_tick_midi_swap hvalid hslot k rfl, fun clock host schedule => ?offers⟩
  case offers =>
    have htick : ∀ t, exec (.tick slot k) s = .next t → t.fault = none := fun t h =>
      (fault_of_tick hvalid hslot h).trans hfault
    have hmidi : ∀ t, exec (.midiByte chan b) s = .next t → t.fault = none := fun t h =>
      (fault_of_midi rfl h).trans hfault
    have hswap := runInstrs_tick_midi_swap (i := .midiByte chan b) (k := k)
      (s := setPort { clock := clock, host := host, schedule := schedule } s) hvalid hslot rfl
    have hclockFirst := runSteps_two_commands hfault
      (r := { clock := tickWord slot k :: clock, host := .command (midiByteWord chan b) :: host,
              schedule := .sampleClock :: .host :: schedule })
      rfl rfl (decodeCommand_tickWord ..) (decodeCommand_midiByteWord ..) htick
    have hhostFirst := runSteps_two_commands hfault
      (r := { clock := tickWord slot k :: clock, host := .command (midiByteWord chan b) :: host,
              schedule := .host :: .sampleClock :: schedule })
      rfl rfl (decodeCommand_midiByteWord ..) (decodeCommand_tickWord ..) hmidi
    exact hclockFirst.trans (hswap.trans hhostFirst.symm)

/-- Settles O43: every status byte runs the row of its class, and each row accepts the status byte of its class. -/
theorem statusBytesStartAMessage : Obligations.StatusBytesStartAMessage := by
  intro s chan ch
  have hrow : ∀ {i : Instr} (c : BitVec 3), exec i s = .next (acceptStatus (statusOf c ch) s) →
      exec i s = .next { s with rs := statusOf c ch, dcount := 0, dlimit := classLen c } := fun c h => by
    rw [h, acceptStatus_statusOf]
  refine ⟨fun b hle hne => ?byte, hrow 0 rfl, hrow 1 rfl, hrow 2 rfl, hrow 3 rfl, hrow 4 rfl, hrow 5 rfl, hrow 6 rfl,
    hrow 7 rfl, fun hff => exec_midiReset_of_status chan hff⟩
  case byte =>
    have hstatus := isStatus_of_le hle
    rw [exec_midiByte_status hstatus hne, acceptStatus_eq, classLen_classField hstatus]

/-- Settles O44: the two settings of `FF_ALSO_STATUS`; and a step that clears the flag has taken `RESET`. -/
theorem sentinelSetsTheResetFlag : Obligations.SentinelSetsTheResetFlag := by
  intro s chan
  refine ⟨exec_midiReset_of_not_status chan, exec_midiReset_of_status chan, execMidiByte_eq chan 0xFF s,
    fun t hset hstep => ?sticky⟩
  case sticky =>
    rcases resetFlag_of_step hstep with hkept | ⟨ht, -⟩ | ⟨-, hreset⟩
    · exact .inl (hkept.trans hset)
    · exact .inl ht
    · exact .inr hreset

/-- Settles O45, by the equation of each case of a data byte. -/
theorem dataBytesBufferAndDispatch : Obligations.DataBytesBufferAndDispatch := by
  intro s chan d
  refine ⟨fun h => ?awaiting, fun h => ?filtered, fun hchan =>
    ⟨fun hlimit hcount => ?first, fun hlimit hcount => ?second, fun hlimit hcount => ?only⟩⟩
  case awaiting => exact congrArg _ (takeData_awaiting chan d h)
  case filtered => exact congrArg _ (takeData_filtered d h)
  case first => exact congrArg _ (takeData_first_of_two d hchan hlimit hcount)
  case second => exact congrArg _ (takeData_second_of_two d hchan hlimit hcount)
  case only => exact congrArg _ (takeData_only d hchan hlimit hcount)

/-- Settles O46: the message of class 1. -/
theorem noteOnSetsNoteVelocityGate : Obligations.NoteOnSetsNoteVelocityGate :=
  fun _ _ _ n v => runInstrs_message (c := 1) rfl rfl n v

/-- Settles O47: the message of class 0, for a note that is held and for another one. -/
theorem noteOffClearsTheHeldGate : Obligations.NoteOffClearsTheHeldGate := by
  intro s chan0 ch n v
  refine (runInstrs_message (c := 0) rfl rfl n v).trans (congrArg _ ?_)
  by_cases hheld : n = s.note
  · rw [if_pos hheld]
    exact if_pos hheld
  · rw [if_neg hheld]
    exact if_neg hheld

/-- Settles O48: the message of class 3 writes the controllers at the first byte only. -/
theorem controlChangeStoresOneController : Obligations.ControlChangeStoresOneController :=
  fun s _ _ n v => ⟨(writeCtrl n v s).ctrl, runInstrs_message (c := 3) rfl rfl n v, readCtrl_writeCtrl_self n v s,
    fun _ hne => readCtrl_writeCtrl_ne hne.symm v s⟩

/-- Settles O49: under the status byte each data byte is a program change, and the last one stays. -/
theorem programChangeStoresProgram : Obligations.ProgramChangeStoresProgram := by
  intro s chan0 ch earlier last
  have hstatus : exec (.midiProgramChange chan0 ch) s =
      .next { s with rs := statusOf 4#3 ch, dcount := 0, dlimit := 1 } :=
    congrArg _ (acceptStatus_statusOf 4#3 ch s)
  rw [runInstrs_cons hstatus, runInstrs_singles (channelField_statusOf ..) (classField_statusOf ..) rfl rfl,
    foldl_dispatch_programChange]
  rfl

/-- Settles O50: the message of class 6 puts the second byte above the first one's 7 bits. -/
theorem pitchBendCombinesTwoBytes : Obligations.PitchBendCombinesTwoBytes := by
  intro s chan0 ch lo hi
  refine ⟨hi ++ lo, ?_, runInstrs_message (c := 6) rfl rfl lo hi⟩
  rw [toNat_append]
  omega

/-- Settles O51: an unknown class has no data length, so the block awaits a status byte. -/
theorem unknownClassesAbsorbTheirData : Obligations.UnknownClassesAbsorbTheirData := by
  intro s chan ch data
  have habsorbed : ∀ {i : Instr} (c : BitVec 3), exec i s = .next (acceptStatus (statusOf c ch) s) → classLen c = 0 →
      runInstrs (i :: data.map fun p => .midiData p.1 p.2) s =
        .next { s with rs := statusOf c ch, dcount := 0, dlimit := 0 } := fun c h hlen => by
    rw [acceptStatus_statusOf, hlen] at h
    rw [runInstrs_cons h]
    exact runInstrs_absorbed fun p _ => takeData_awaiting p.1 p.2 rfl
  exact ⟨habsorbed 2 rfl rfl, habsorbed 5 rfl rfl, habsorbed 7 rfl rfl⟩

/-- Settles O52, by induction on the messages: a dispatch leaves the parser between messages. -/
theorem runningStatusRepeatsTheMessage : Obligations.RunningStatusRepeatsTheMessage :=
  fun _ hcount => ⟨fun pairs hlimit => runInstrs_pairs rfl rfl hlimit hcount pairs,
    fun data hlimit => runInstrs_singles rfl rfl hlimit hcount data⟩

/-- Settles O54: the status byte is accepted, and each data byte on the other channel changes nothing. -/
theorem filteredMessageLeavesTheChannelState : Obligations.FilteredMessageLeavesTheChannelState := by
  intro s chan ch n v hne
  have hstatus : exec (.midiNoteOn chan ch) s = .next { s with rs := statusOf 1 ch, dcount := 0, dlimit := 2 } :=
    congrArg _ (acceptStatus_statusOf 1 ch s)
  have hchan : channelField (statusOf 1 ch) ≠ chan := by rwa [channelField_statusOf, ne_comm]
  rw [runInstrs_cons hstatus]
  exact runInstrs_absorbed (data := [(chan, n), (chan, v)]) fun p hp => by
    obtain rfl | rfl : p = (chan, n) ∨ p = (chan, v) := by simpa using hp
    · exact takeData_filtered n hchan
    · exact takeData_filtered v hchan

end Sys2Proof.Proofs
end

section
/-! SUPPORT. The three ends of a TICK by their conditions, and the output of the cascade as a register value
(spec/45_tick.md R110, spec/43_filter.md R93). -/

namespace Sys2Proof.Machine

/-! ## The output -/

/-- The cascade's output is a signed 8-bit value, for one filter and for two (R91, R93). -/
theorem cascade_y_range (cfg : Params) (i0 i1 : BitVec 16) (k x : Int) :
    -128 ≤ (cascade cfg i0 i1 k x).y ∧ (cascade cfg i0 i1 k x).y ≤ 127 := by
  cases hn : cfg.nfilt with
  | one =>
    rw [cascade_y_of_one _ _ _ _ hn]
    exact (filterFeed_range ..).2
  | two =>
    rw [cascade_y_of_two _ _ _ _ hn]
    exact (filterFeed_range ..).2

/-- With one filter the second integrator is not written (R93). -/
theorem cascade_integ1_of_one {cfg : Params} (hn : cfg.nfilt = .one) (i0 i1 : BitVec 16) (k x : Int) :
    (cascade cfg i0 i1 k x).integ1 = i1 := by
  simp only [cascade, hn]

/-- The bias brings a signed 8-bit value into the output register's range (R110). -/
theorem toNat_outputSample {y : Int} (h : -128 ≤ y ∧ y ≤ 127) : ((outputSample y).toNat : Int) = y + 128 := by
  rw [outputSample, BitVec.toNat_ofInt]
  omega

/-! ## The ends of a TICK -/

section Ends
variable {slot : Byte} (k : Byte) {s : State}

/-- Without a table TICK raises TableNotLoaded, whatever its slot (R110). -/
theorem execTick_of_not_loaded (hvalid : s.tblValid = false) :
    execTick slot k s = .next (raiseFault .tableNotLoaded (tickWord slot k) s) :=
  if_pos hvalid

/-- With a table TICK of a slot past its end raises SlotRange (R110). -/
theorem execTick_of_slot_out_of_range (hvalid : s.tblValid = true) (hslot : s.cfg.tableSize ≤ slot.toNat) :
    execTick slot k s = .next (raiseFault (.slotRange slot) (tickWord slot k) s) :=
  (if_neg (by simp [hvalid])).trans (if_pos hslot)

/-- A TICK past its checks that finds a sample runs the pipeline on it (R110). -/
theorem execTick_of_sample (hvalid : s.tblValid = true) (hslot : slot.toNat < s.cfg.tableSize) {smp : Byte}
    (hsample : sample s.cfg s.tbl slot.toNat (advance s.phase s.stepReg) = some smp) :
    execTick slot k s = .next (tickWith k smp s) := by
  rcases execTick_cases slot k s with ⟨h, -⟩ | ⟨-, h, -⟩ | ⟨-, -, smp', h, htick⟩ | ⟨-, -, h, -⟩
  · rw [hvalid] at h
    cases h
  · omega
  · rw [hsample] at h
    cases h
    exact htick
  · rw [hsample] at h
    cases h

end Ends

end Sys2Proof.Machine
end

section
/-! PROOFS. The obligation about TICK as a whole (spec/45_tick.md). -/

namespace Sys2Proof.Proofs

open Sys2Proof.Machine

/-- Settles O31: the word decodes and no illegal word does; each check that fails records its fault; past them the sample
of the new phase goes through the cascade, whose output fits `OUT` after the bias. -/
theorem tickRunsThePipeline : Obligations.TickRunsThePipeline := by
  refine ⟨decodeCommand_tickWord, fun w _ hreserved => ?illegal, fun s slot k hfault =>
    ⟨fun hvalid => ?notLoaded, fun hvalid hslot => ?outOfRange⟩,
    fun s slot k e wl wr a b hvalid hslot he hl hr ha hb => ?completes⟩
  case illegal =>
    cases hdecode : decodeCommand w with
    | error err => exact ⟨err, rfl⟩
    | ok i => exact absurd (.inr (.inr (.inl hreserved))) (not_illegalWord_of_decode hdecode)
  case notLoaded =>
    exact (execTick_of_not_loaded k hvalid).trans (congrArg _ (raiseFault_of_no_fault _ _ hfault))
  case outOfRange =>
    exact (execTick_of_slot_out_of_range k hvalid hslot).trans (congrArg _ (raiseFault_of_no_fault _ _ hfault))
  case completes =>
    have hsample := sample_of_refs he hl hr ha hb (advance s.phase s.stepReg)
    exact ⟨_, _, _, _, _, _, execTick_of_sample k hvalid hslot hsample, BitVec.toNat_add .., rfl,
      toNat_outputSample (cascade_y_range ..), toInt_cascade_integ0 ..,
      fun hone => ⟨cascade_integ1_of_one hone .., cascade_y_of_one _ _ _ _ hone⟩,
      fun htwo => ⟨toInt_cascade_integ1_of_two _ _ _ _ htwo, cascade_y_of_two _ _ _ _ htwo⟩⟩

end Sys2Proof.Proofs
end

section
/-! SUPPORT. The idle step, what a step can do with `FAULT`, and the step of one block of a system (R114, R115, R125,
R127). -/

namespace Sys2Proof.Machine

/-- With nothing offered there is no event to handle (R127). -/
theorem step_of_take_none {s : State} (htake : s.port.take = none) : step s = .next s := by
  simp only [step, stepWith, htake]

/-! ## Faults -/

/-- A faulted block drops the presented word (R115, log 13). -/
theorem presentCommand_of_fault (run : Instr → State → Host.Outcome State Fault Refusal) (w : Word) {r : FaultRecord}
    {s : State} (hfault : s.fault = some r) : presentCommand run w s = .next s := by
  simp only [presentCommand, isFaulted, hfault, Option.isSome_some, if_true]

/-- A block without a fault that records one holds that one, and nothing else is written (R114). -/
theorem recordFault_eq_of_fault {q r : FaultRecord} {s : State} (hfault : s.fault = none)
    (hr : (recordFault q s).fault = some r) : q = r ∧ recordFault q s = { s with fault := some r } := by
  rw [recordFault_fault, hfault, firstFault_none, Option.some.injEq] at hr
  subst hr
  exact ⟨rfl, by rw [recordFault, hfault, firstFault_none]⟩

/-- A record that holds a command word is not that of a host read (R113). -/
theorem cause_ne_outUnwritten {cfg : Params} {cause : FaultCause} {w : Word}
    (h : recordOk cfg { cause := cause, word := some w } = true) : cause ≠ .outUnwritten := by
  rintro rfl
  cases h

/-- A fault record belongs to the event that raised it: a command's holds the command word, and a host read of `OUT` has
`OutUnwritten` without a word (R113, R114). -/
abbrev RaisedBy (e : Event) (r : FaultRecord) : Prop :=
  (∃ w, e = .command w ∧ r.word = some w ∧ r.cause ≠ .outUnwritten) ∨
    (e = .read .out ∧ r = { cause := .outUnwritten, word := none })

/-- An instruction that completes leaves `FAULT`, or has only recorded a fault of the word that encodes it (R114). -/
theorem fault_of_executed {w : Word} {i : Instr} {s t : State} (hcode : encode i = .command w)
    (hexec : Executed s i t) : t.fault = s.fault ∨ ∃ q, t = recordFault q s ∧ RaisedBy (.command w) q := by
  cases hexec with
  | midi _ _ hframe =>
    obtain ⟨-, -, -, -, -, hkept⟩ := audio_of_midiFrame hframe
    exact .inl hkept
  | faulted cause word hword hrecord =>
    obtain rfl : word = w := Code.command.inj (hword.symm.trans hcode)
    exact .inr ⟨_, rfl, .inl ⟨word, rfl, rfl, cause_ne_outUnwritten hrecord⟩⟩
  | _ => exact .inl rfl

/-- A step leaves `FAULT`, clears it by `RESET`, or takes an event and only records the fault it raises (R114, R115,
R128). -/
theorem fault_of_step {s t : State} (h : step s = .next t) :
    t.fault = s.fault ∨
      (t.fault = none ∧ ∃ p, s.port.take = some (.reset, p)) ∨
      (∃ e p q, s.port.take = some (e, p) ∧ t = recordFault q (setPort p s) ∧ RaisedBy e q) := by
  cases stepped_of_step h with
  | reset htake => exact .inr (.inl ⟨rfl, _, htake⟩)
  | ran htake _ hdecode hexec =>
    obtain ⟨-, hcode⟩ := Proofs.encodeOfDecodeIsTheCode (.command _) _ hdecode
    rcases fault_of_executed hcode hexec with hkept | ⟨q, rfl, hraised⟩
    · exact .inl hkept
    · exact .inr (.inr ⟨_, _, q, htake, rfl, hraised⟩)
  | illegal htake => exact .inr (.inr ⟨_, _, _, htake, rfl, .inl ⟨_, rfl, rfl, nofun⟩⟩)
  | unwritten htake => exact .inr (.inr ⟨_, _, _, htake, rfl, .inr ⟨rfl, rfl⟩⟩)
  | _ => exact .inl rfl

/-- The first fault is kept until `RESET` (R114, R115). -/
theorem fault_kept_or_reset {s t : State} {r : FaultRecord} (hfault : s.fault = some r) (h : step s = .next t) :
    t.fault = some r ∨ (t.fault = none ∧ ∃ p, s.port.take = some (.reset, p)) := by
  rcases fault_of_step h with hkept | hreset | ⟨e, p, q, -, rfl, -⟩
  · exact .inl (hkept.trans hfault)
  · exact .inr hreset
  · left
    rw [recordFault_fault, setPort_fault, hfault, firstFault_some]

/-! ## Several blocks -/

/-- What a step of block `j` that completes has done: there is no such block, or that block alone has stepped (R125). -/
theorem stepInstance_cases {j : Nat} {sys sys' : List State} (h : stepInstance j sys = .next sys') :
    (sys[j]? = none ∧ sys' = sys) ∨ (∃ s t, sys[j]? = some s ∧ step s = .next t ∧ sys' = sys.set j t) := by
  cases hblock : sys[j]? with
  | none =>
    simp only [stepInstance, hblock] at h
    cases h
    exact .inl ⟨rfl, rfl⟩
  | some s =>
    cases hstep : step s with
    | next t =>
      simp only [stepInstance, hblock, hstep] at h
      cases h
      exact .inr ⟨s, t, rfl, hstep, rfl⟩
    | fault f => simp [stepInstance, hblock, hstep] at h
    | refused r => simp [stepInstance, hblock, hstep] at h

/-- The later blocks of a system share the first one's ROMs, which are parameters (R125). -/
theorem sharesRoms_cons (s : State) (rest : List State) : sharesRoms (s :: rest) =
    (rest.map (·.cfg)).all fun c => decide (c.waves = s.cfg.waves) && decide (c.blob = s.cfg.blob) := by
  simp only [sharesRoms, List.all_map, Function.comp_def]

/-- Sharing the ROMs is about the blocks' parameters only (R125). -/
theorem sharesRoms_eq_of_cfg {sys sys' : List State} (h : sys'.map (·.cfg) = sys.map (·.cfg)) :
    sharesRoms sys' = sharesRoms sys := by
  cases sys with
  | nil => rw [List.map_eq_nil_iff.mp h]
  | cons s rest =>
    obtain ⟨s', rest', rfl, hfirst, hrest⟩ := List.map_eq_cons_iff.mp h
    rw [sharesRoms_cons, sharesRoms_cons, hfirst, hrest]

/-- A step of one block leaves the parameters of every block of the system (R8, R125). -/
theorem map_cfg_set_of_step {j : Nat} {sys : List State} {s t : State} (hblock : sys[j]? = some s)
    (h : step s = .next t) : (sys.set j t).map (·.cfg) = sys.map (·.cfg) := by
  obtain ⟨hj, rfl⟩ := List.getElem?_eq_some_iff.mp hblock
  rw [List.map_set, Proofs.romsAndParametersNeverChange _ t h, ← List.map_set, List.set_getElem_self]

end Sys2Proof.Machine
end

section
/-! PROOFS. The obligations about the idle block, the faults and several blocks (spec/60_exceptions.md). -/

namespace Sys2Proof.Proofs

open Sys2Proof.Machine

/-- Settles O12: with nothing offered there is no event to handle. -/
theorem idleBlockKeepsItsState : Obligations.IdleBlockKeepsItsState :=
  fun _ => step_of_take_none

/-- Settles O14: the presented word is dropped, `RESET` is handled in the faulted state too, and no other step changes
the fault that is recorded. -/
theorem faultedBlockAcceptsNoCommand : Obligations.FaultedBlockAcceptsNoCommand := by
  intro s r hfault
  refine ⟨fun w p htake => ?command, fun p htake => ?reset, fun t hstep hchanged => ?onlyReset⟩
  case command =>
    exact (step_of_take htake).trans (presentCommand_of_fault (s := setPort p s) exec w hfault)
  case reset => exact ⟨_, step_of_take htake, resetBlock_fault _⟩
  case onlyReset =>
    rcases fault_kept_or_reset hfault hstep with hkept | ⟨-, hreset⟩
    · exact absurd hkept hchanged
    · exact hreset

/-- Settles O15: a fault that is there stays until `RESET`; where there was none, a step that leaves one has taken the
event that raised it and has done nothing else but record it. -/
theorem faultsArePreciseAndTheFirstIsKept : Obligations.FaultsArePreciseAndTheFirstIsKept := by
  intro s t hstep
  refine ⟨fun r hfault => fault_kept_or_reset hfault hstep, fun hfault r hr => ?recorded⟩
  rcases fault_of_step hstep with hkept | ⟨hclear, -⟩ | ⟨e, p, q, htake, rfl, hraised⟩
  · rw [hkept, hfault] at hr
    cases hr
  · rw [hclear] at hr
    cases hr
  · obtain ⟨rfl, hprecise⟩ := recordFault_eq_of_fault (s := setPort p s) hfault hr
    exact ⟨e, p, htake, hprecise, hraised⟩

/-- Settles O58: the step replaces block `j` by its own next state, which has the same parameters. -/
theorem instancesAreIndependent : Obligations.InstancesAreIndependent := by
  intro sys sys' j h
  rcases stepInstance_cases h with ⟨hnone, rfl⟩ | ⟨s, t, hblock, hstep, rfl⟩
  · refine ⟨rfl, fun _ _ => rfl, fun s hs => ?_, id⟩
    rw [hnone] at hs
    cases hs
  · refine ⟨List.length_set, fun i hi => List.getElem?_set_ne hi.symm, fun s' hs' => ?_, fun hshared => ?_⟩
    · obtain rfl : s = s' := Option.some.inj (hblock.symm.trans hs')
      obtain ⟨hj, -⟩ := List.getElem?_eq_some_iff.mp hblock
      exact ⟨t, hstep, List.getElem?_set_self hj⟩
    · rw [sharesRoms_eq_of_cfg (map_cfg_set_of_step hblock hstep)]
      exact hshared

end Sys2Proof.Proofs
end

section
/-! PROOFS. The obligation about the RESET input (spec/70_reset_and_hazards.md). -/

namespace Sys2Proof.Proofs

open Sys2Proof.Machine

/-- Settles O18: the step runs `resetBlock` on the state with the offer taken, whether or not a fault is recorded, and
`resetBlock` reads no more of that state than its parameters and the rest of its port. -/
theorem resetSetsEveryRegister : Obligations.ResetSetsEveryRegister := by
  intro s p htake
  have hstep : step s = .next (resetBlock (setPort p s)) := step_of_take htake
  rw [hstep, resetBlock, setPort_cfg, setPort_port, Entry.cleared]

end Sys2Proof.Proofs
end
